-- ==== Sys2Proof/Word.lean ====
section
/-! DEFINITION. The words the block handles: bytes, the 16-bit host and wire address, the environment's error value. -/

namespace Sys2Proof

/-- A byte, bits `[7:0]`, bit 0 the least significant (R16). -/
abbrev Byte := BitVec 8

/-- A host address and the address field of a wire frame: 16 bits, unsigned (R10, R11, D2). -/
abbrev HostAddr := BitVec 16

/-- The opaque error value `e` of a failed interaction: any value, passed through unchanged (R19, D22; log 14). -/
abbrev EnvError := Nat

end Sys2Proof
end

