-- ==== Sys2Proof/Config.lean ====
section
/-! DEFINITION. The fixed numbers of the block (R7 to R13) and the free values: what the environment answers (R47) and
what the spec leaves open (D6, D10, D14, R61), each an opaque constant applied to the state's draw counter (log 21). -/

namespace Sys2Proof

/-- The answer to one `CsSet` (R19). -/
inductive CsAnswer where
  | ok
  | fail (e : EnvError)
  deriving DecidableEq, Repr, Inhabited

/-- The answer to one `Exchange` (R20). -/
inductive XferAnswer where
  | ok (rx : List Byte)
  | fail (e : EnvError)
  deriving DecidableEq, Repr, Inhabited

namespace Config

/-- `PAGE_SIZE` (R7). -/
def pageSize : Nat := 32

/-- `ADDR_BITS` (R8). -/
def addrBits : Nat := 12

/-- `CAPACITY` (R8). -/
def capacity : Nat := 2 ^ addrBits

/-- `MAX_ADDR` (R8). -/
def maxAddr : Nat := 2 ^ addrBits - 1

/-- `PAGE_COUNT` (R9). -/
def pageCount : Nat := capacity / pageSize

/-- `STATUS_MASK` (R13). -/
def statusMask : Byte := 0x8F

/-- FREE: the answer to a `CsSet` that nothing has decided (R47; log 2). -/
opaque csAnswer : Nat → CsAnswer

/-- FREE: the answer to an `Exchange` that nothing has decided (R47; log 2). -/
opaque xferAnswer : Nat → XferAnswer

/-- FREE: received byte `i` of an exchange whose decided answer does not give it (R47; log 3). -/
opaque rxByte : Nat → Nat → Byte

/-- FREE: `DUMMY_TX`, transmitted dummy byte `i` of a frame (R14, D6; log 12). -/
opaque dummyTx : Nat → Nat → Byte

/-- FREE: which error `Command` reports when the exchange and the release both fail, `true` for the transport's (D10;
log 13). -/
opaque reportsTransport : Nat → Bool

/-- FREE: byte `i` of the host's buffer while a `read` has it, and after the read failed (D14; log 11). -/
opaque bufferByte : Nat → Nat → Byte

/-- FREE: byte `i` of those a failed exchange or release may have written into the device (R61; log 24). -/
opaque lostByte : Nat → Nat → Byte

/-- FREE: the device's WEL after a failed exchange or release (R45; log 24). -/
opaque lostWel : Nat → Bool

/-- FREE: how many busy answers the device still owes after a failed exchange or release (R45; log 24). -/
opaque lostBusy : Nat → Nat

end Config

end Sys2Proof
end

