-- ==== Sys2Proof/Syntax.lean ====
section
/-! DEFINITION. The instructions: one constructor per row of spec/opcode_table.json, six wire commands and six host
operations. -/

namespace Sys2Proof

/-- The twelve rows of the opcode table. A wire command is one codec function called on its own (log 6); a host
operation is a request of the host (R83). -/
inductive Instr where
  /-- `CMD_WREN`, opcode `0x06` (R94). -/
  | cmdWren
  /-- `CMD_WRDI`, opcode `0x04` (R95). -/
  | cmdWrdi
  /-- `CMD_RDSR`, opcode `0x05` (R93). Its dummy byte is a draw, not an operand (R75, D6). -/
  | cmdRdsr
  /-- `CMD_READ A, n`, opcode `0x03` (R96). Its `n` payload bytes are draws, not operands (R76, D6). -/
  | cmdRead (addr : HostAddr) (n : Nat)
  /-- `CMD_WRITE A, c`, opcode `0x02` (R97). -/
  | cmdWrite (addr : HostAddr) (chunk : List Byte)
  /-- `CMD_WRSR`, opcode `0x01`: named, never sent, its frame undefined (R80; log 7). -/
  | cmdWrsr
  /-- `init`, `op = 0b000` (R100). -/
  | init
  /-- `read_status`, `op = 0b001` (R118). -/
  | readStatus
  /-- `read addr, n`, `op = 0b010` (R119). -/
  | read (addr : HostAddr) (n : Nat)
  /-- `write_bytes addr, data`, `op = 0b011` (R120). -/
  | writeBytes (addr : HostAddr) (data : List Byte)
  /-- `erase_sectors addr, amount`, `op = 0b100` (R121). -/
  | eraseSectors (addr : HostAddr) (amount : Nat)
  /-- `erase_all`, `op = 0b101` (R122). -/
  | eraseAll
  deriving DecidableEq, Repr

end Sys2Proof
end

