-- ==== Sys2Proof/WellFormed.lean ====
section
/-! DEFINITION. Which instructions have an encoding the block can send: only `CMD_WRITE` constrains its operands. -/

namespace Sys2Proof

/-- `CMD_WRITE`'s operands: an address of the array, at most a page of bytes, and no page boundary crossed (R97, R58,
R82). Every other operand may take any value: a read's address is unchecked (R51) and a length has no bound (R12). -/
def Instr.wellFormed : Instr → Bool
  | .cmdWrite addr chunk =>
      decide (addr.toNat ≤ Config.maxAddr) && decide (chunk.length ≤ Config.pageSize) &&
        decide (addr.toNat % Config.pageSize + chunk.length ≤ Config.pageSize)
  | .cmdWren => true
  | .cmdWrdi => true
  | .cmdRdsr => true
  | .cmdRead _ _ => true
  | .cmdWrsr => true
  | .init => true
  | .readStatus => true
  | .read _ _ => true
  | .writeBytes _ _ => true
  | .eraseSectors _ _ => true
  | .eraseAll => true

/-- The same check as a proposition. -/
abbrev Instr.WellFormed (i : Instr) : Prop := i.wellFormed = true

end Sys2Proof
end

