-- ==== Sys2Proof/Decode.lean ====
section
/-! DEFINITION. The two encoded interfaces (30_encoding.md): wire frames, read by their opcode byte, and host requests,
read by their `op` field; the encoder beside the decoder; and the opcode table's numbering of both. -/

namespace Sys2Proof

/-- A host request as the host presents it: the 3-bit `op` and the operand fields (R83). The spec gives the operands no
bit layout (`n`, `amount` and the data have no bound), so they are fields, not bits; an operation reads the fields it
takes and no other (log 5). `count` is `n` for `read` and `amount` for `erase_sectors`. -/
structure HostRequest where
  op : BitVec 3
  addr : HostAddr := 0
  count : Nat := 0
  data : List Byte := []
  deriving DecidableEq, Repr

/-- What can be presented to the block: a host request, or a call of one codec function by its frame (log 6). -/
inductive Request where
  | host (r : HostRequest)
  | codec (frame : List Byte)
  deriving DecidableEq, Repr

/-- Why a request has no instruction. -/
inductive Reject where
  /-- `op = 0b110` or `0b111` (R84). -/
  | reservedOp
  /-- A frame holds at least its opcode byte (R73, R88). -/
  | emptyFrame
  /-- An opcode the block never sends (R81), other than the named `0x01`. -/
  | unsentOpcode
  /-- A length the opcode's format does not have (R74 to R76, R82). -/
  | badLength
  /-- A write frame outside `[0, 4095]` or crossing its page, which no sequence of the block sends (R58, R77, R82). -/
  | badWriteFrame
  deriving DecidableEq, Repr

/-- The 16-bit address of the two wire address bytes, high byte first (R53). -/
def wireAddr (hi lo : Byte) : HostAddr := BitVec.ofNat 16 (hi.toNat * 256 + lo.toNat)

/-- `A[15:8]`, the first address byte on the wire: `A >> 8` (R53, R77). -/
def addrHigh (a : Nat) : Byte := BitVec.ofNat 8 (a / 256)

/-- `A[7:0]`, the second address byte on the wire: `A & 0xFF` (R53, R77). -/
def addrLow (a : Nat) : Byte := BitVec.ofNat 8 a

/-- Accept a write frame only where the block can send it (R82). -/
def checkedWrite (addr : HostAddr) (chunk : List Byte) : Except Reject Instr :=
  if (Instr.cmdWrite addr chunk).wellFormed then .ok (.cmdWrite addr chunk) else .error .badWriteFrame

/-- The operands after the opcode byte of a frame in format `FMT_OP` (R74). -/
def decodeOp (i : Instr) : List Byte → Except Reject Instr
  | [] => .ok i
  | _ :: _ => .error .badLength

/-- The operands after the opcode byte of a frame in format `FMT_OPD`: one dummy byte, whatever it is (R75). -/
def decodeOpd (i : Instr) : List Byte → Except Reject Instr
  | [_] => .ok i
  | [] => .error .badLength
  | _ :: _ :: _ => .error .badLength

/-- The operands after the opcode byte of a frame in format `FMT_ADDR`: two address bytes and the payload (R76). -/
def decodeAddr (k : HostAddr → List Byte → Except Reject Instr) : List Byte → Except Reject Instr
  | hi :: lo :: payload => k (wireAddr hi lo) payload
  | [] => .error .badLength
  | [_] => .error .badLength

/-- A wire frame read by its opcode byte (R79, R82). A read frame's payload is dummy bytes: only its length counts
(R76). The frame of `0x01` is undefined by the source: every tail reads as the one named command (R80; log 7). -/
def decodeFrame : List Byte → Except Reject Instr
  | [] => .error .emptyFrame
  | op :: tail =>
    if op = 0x06 then decodeOp .cmdWren tail
    else if op = 0x04 then decodeOp .cmdWrdi tail
    else if op = 0x05 then decodeOpd .cmdRdsr tail
    else if op = 0x03 then decodeAddr (fun a payload => .ok (.cmdRead a payload.length)) tail
    else if op = 0x02 then decodeAddr checkedWrite tail
    else if op = 0x01 then .ok .cmdWrsr
    else .error .unsentOpcode

/-- A host request read by its `op` field (R83, R84). -/
def decodeHost (r : HostRequest) : Except Reject Instr :=
  if r.op = 0b000 then .ok .init
  else if r.op = 0b001 then .ok .readStatus
  else if r.op = 0b010 then .ok (.read r.addr r.count)
  else if r.op = 0b011 then .ok (.writeBytes r.addr r.data)
  else if r.op = 0b100 then .ok (.eraseSectors r.addr r.count)
  else if r.op = 0b101 then .ok .eraseAll
  else .error .reservedOp

/-- The decoder: total on every request, rejecting by name. -/
def decode : Request → Except Reject Instr
  | .host r => decodeHost r
  | .codec frame => decodeFrame frame

/-- The encoder. `d` fills the dummy bytes, whose value the spec leaves open (R14). -/
def encode (d : Byte) : Instr → Request
  | .cmdWren => .codec [0x06]
  | .cmdWrdi => .codec [0x04]
  | .cmdRdsr => .codec [0x05, d]
  | .cmdRead a n => .codec (0x03 :: addrHigh a.toNat :: addrLow a.toNat :: List.replicate n d)
  | .cmdWrite a c => .codec (0x02 :: addrHigh a.toNat :: addrLow a.toNat :: c)
  | .cmdWrsr => .codec [0x01]
  | .init => .host { op := 0b000 }
  | .readStatus => .host { op := 0b001 }
  | .read a n => .host { op := 0b010, addr := a, count := n }
  | .writeBytes a data => .host { op := 0b011, addr := a, data := data }
  | .eraseSectors a amount => .host { op := 0b100, addr := a, count := amount }
  | .eraseAll => .host { op := 0b101 }

/-- The bytes of a table word, the first byte the least significant (the opcode table's numbering). -/
def wordBytes : Nat → Nat → List Byte
  | 0, _ => []
  | k + 1, w => BitVec.ofNat 8 w :: wordBytes k (w / 256)

/-- The shortest frame its opcode byte allows: 2 bytes for `FMT_OPD`, 3 for `FMT_ADDR`, else 1 (R82). -/
def shortestFrame (op : Byte) : Nat :=
  if op = 0x05 then 2 else if op = 0x03 then 3 else if op = 0x02 then 3 else 1

/-- A table word as a request (log 16): a word of fewer than 8 bits is a host `op` code; a word of 8 bits or more is a
frame, its bytes above `nbits` zero up to the shortest frame of its opcode. The two code spaces share the values 1 to 5;
the byte 0 is no wire opcode and reads as the host's `op` 0. -/
def tableRequest (nbits w : Nat) : Request :=
  if nbits < 8 then .host { op := BitVec.ofNat 3 w }
  else if w = 0 then .host { op := 0 }
  else
    let bytes := wordBytes (nbits / 8) w
    .codec (bytes ++ List.replicate (shortestFrame (BitVec.ofNat 8 w) - bytes.length) 0)

/-- The instruction the decoder reads from a word of the opcode table. -/
def decodeTableWord (nbits w : Nat) : Option Instr :=
  match decode (tableRequest nbits w) with
  | .ok i => some i
  | .error _ => none

end Sys2Proof
end

