-- ==== Sys2Proof/Machine/State.lean ====
section
/-! DEFINITION. The state: the block (R27, R28, R30), what one host operation shows (R46), and the plain data of the
two other agents, the host and the environment (R25). -/

namespace Sys2Proof.Machine

/-- `S.mode`, the tracker state (R27). -/
inductive Mode where
  | uninitialized
  | idle
  | writeEnabled
  | busy
  deriving DecidableEq, Repr

/-- `S.cs`, the last level driven on the active-low chip-select output; `unknown` before the first drive and after a
failed one (R28, D11). -/
inductive CsLevel where
  | high
  | low
  | unknown
  deriving DecidableEq, Repr

/-- The argument of `CsSet` (R19). -/
inductive Level where
  | high
  | low
  deriving DecidableEq, Repr

/-- The four errors and what they carry (R124, D22). -/
inductive Error where
  | transport (e : EnvError)
  | gpio (e : EnvError)
  | addressOutOfBounds
  | unexpectedStatus
  deriving DecidableEq, Repr

/-- What a finished operation returns (R46, R85, R124). -/
inductive Result where
  | ok
  /-- `Ok` with the decoded status byte. -/
  | okStatus (s : Byte)
  /-- `Ok` with the bytes read. -/
  | okData (b : List Byte)
  | error (e : Error)
  deriving DecidableEq, Repr

/-- One interaction with its answer (R46). -/
inductive BusEvent where
  | csLow
  | csHigh
  | csLowFail (e : EnvError)
  | csHighFail (e : EnvError)
  | xfer (tx rx : List Byte)
  | xferFail (tx : List Byte) (e : EnvError)
  deriving DecidableEq, Repr

/-- The bytes of one page write and where they go (glossary, R101). An address is a natural number: arithmetic on it
does not wrap (R18). -/
structure Chunk where
  addr : Nat
  bytes : List Byte
  deriving DecidableEq, Repr

/-- A codec function called on its own, with its operands (log 6). -/
inductive CodecCall where
  | writeEnable
  | writeDisable
  | readStatus
  | readData (addr : HostAddr) (n : Nat)
  | writeData (addr : HostAddr) (chunk : List Byte)
  deriving DecidableEq, Repr

/-- What the frame in progress is for: the line of its operation's pseudocode (R30). In a page write `c` is the chunk
being written and `todo` the page writes that follow it: the splitter's `cur` is the address of the first of these, and
its `rest` their bytes (R29, R109). -/
inductive Purpose where
  /-- The status read of `init` (R100). -/
  | initStatus
  /-- `read_status` (R118). -/
  | hostStatus
  /-- `read` (R119). -/
  | hostRead (addr : HostAddr) (n : Nat)
  /-- The write-enable of a page write (R101). -/
  | pageEnable (c : Chunk) (todo : List Chunk)
  /-- The write command of a page write (R101). -/
  | pageData (c : Chunk) (todo : List Chunk)
  /-- A poll of a page write (R102). -/
  | pagePoll (c : Chunk) (todo : List Chunk)
  /-- A codec function called on its own (log 6). -/
  | call (f : CodecCall)
  deriving DecidableEq, Repr

/-- Which interaction of `Command(tx)` comes next (R88). -/
inductive Phase where
  /-- `CsSet(Low)`. -/
  | assert
  /-- `Exchange(tx)`. -/
  | exchange
  /-- `CsSet(High)`, the exchange answered `x`. -/
  | release (x : XferAnswer)
  deriving DecidableEq, Repr

/-- Where the block is: which interaction it makes next (R30, R159). -/
inductive Activity where
  /-- No operation is in progress: the block waits for a request. -/
  | waiting
  /-- At the first step of `init`, `CsSet(High)` (R100). -/
  | driving
  /-- In `Command(tx)` (R88). -/
  | framing (tx : List Byte) (phase : Phase) (purpose : Purpose)
  deriving DecidableEq, Repr

/-- The spec's reference device (R69): one environment, used by its test vectors (D17; log 15). `arr` lists the bytes
that differ from `fill`, by rising address. -/
structure RefDevice where
  arr : List Host.Cell
  wel : Bool
  wip : Bool
  busy : Nat
  /-- `REF_BUSY_POLLS`. -/
  busyPolls : Nat
  /-- `REF_INIT_FILL`. -/
  fill : Byte
  deriving DecidableEq, Repr

/-- The environment (R47): the answers already decided, oldest first, each kind in its own queue, where `none` leaves
one answer to what follows; else the reference device where one is attached; else the free values of Config, applied
to `drawn` (log 2, log 21). -/
structure Env where
  csAnswers : List (Option CsAnswer)
  xferAnswers : List (Option XferAnswer)
  dummies : List Byte
  choices : List Bool
  device : Option RefDevice
  drawn : Nat
  deriving DecidableEq, Repr

/-- The host's side (R144): the requests it has placed, oldest first, and in how many steps its reset of the block lands
(R145; log 4). -/
structure HostSide where
  requests : List Request
  resetIn : Option Nat
  deriving DecidableEq, Repr

/-- The machine. -/
structure State where
  mode : Mode
  cs : CsLevel
  activity : Activity
  /-- The result of the last operation, once it has one (log 19). -/
  result : Option Result
  /-- The bus event trace of the operation in progress, or of the last one (R46; log 19). -/
  trace : List BusEvent
  /-- The host's data buffer, which `read` fills in place (R43). -/
  buffer : List Byte
  host : HostSide
  env : Env
  deriving DecidableEq, Repr

/-- Nothing stops this machine: its errors are results that go to the host (R124, R131), so no fault exists (log 18). -/
inductive Fault where
  deriving DecidableEq, Repr

/-- A request with no meaning (R129): no bus activity, no state change, no result. -/
inductive Refusal where
  /-- An instruction without a meaning in this model. Safe. -/
  | notModelled (mnemonic : String)
  /-- Raised by `step`: the request is no instruction; for a reserved `op`, R84. Safe. -/
  | badRequest (why : Reject)
  /-- Raised by `init` in any mode but Uninitialized (R100, D8). Safe. -/
  | alreadyInitialized
  /-- Raised by the other host operations in mode Uninitialized (R117, D9). Safe. -/
  | notInitialized
  /-- Raised by `erase_sectors` with `amount = 0` (R113, D12). Safe. -/
  | eraseOfZeroPages
  /-- Raised by `CMD_WRSR`: the block has no frame for it (R80, R98). Safe. -/
  | writeStatusUnimplemented
  /-- Raised by every instruction while an operation is in progress: the spec has no move for it (R123, D19; log 10).
  `step` never asks. Safe. -/
  | operationRunning
  deriving DecidableEq, Repr

/-- The block right after reset (R145), with nothing placed by the host and an environment of which nothing is
decided (log 20). -/
def State.reset : State where
  mode := .uninitialized
  cs := .unknown
  activity := .waiting
  result := none
  trace := []
  buffer := []
  host := { requests := [], resetIn := none }
  env := { csAnswers := [], xferAnswers := [], dummies := [], choices := [], device := none, drawn := 0 }

end Sys2Proof.Machine
end

