-- ==== Sys2Proof/Machine/Operands.lean ====
section
/-! DEFINITION. Operand forms: the page arithmetic (R49, R104, R105), runs of zeros and the wire frames (R73 to R77). -/

namespace Sys2Proof.Machine

/-- `page(a)` (R49). -/
def pageOf (a : Nat) : Nat := a / Config.pageSize

/-- `off(a)` (R49). -/
def pageOff (a : Nat) : Nat := a % Config.pageSize

/-- `base(a)` (R49). -/
def pageBase (a : Nat) : Nat := a - pageOff a

/-- `fcl(addr)`, the bytes from `addr` to its page end (R104). -/
def firstChunkLength (a : Nat) : Nat := Config.pageSize - a % Config.pageSize

/-- The cursor after the first chunk: the next page boundary (R105). -/
def nextPage (a : Nat) : Nat := a - a % Config.pageSize + Config.pageSize

/-- `zeros(n)` (R17). -/
def zeros (n : Nat) : List Byte := List.replicate n 0

/-- The write-enable frame (R74, R94). -/
def wrenFrame : List Byte := [0x06]

/-- The write-disable frame (R74, R95). -/
def wrdiFrame : List Byte := [0x04]

/-- The read-status frame with dummy byte `d` (R75, R93). -/
def rdsrFrame (d : Byte) : List Byte := [0x05, d]

/-- The read frame with dummy bytes `payload` (R76, R96). -/
def readFrame (a : Nat) (payload : List Byte) : List Byte := 0x03 :: addrHigh a :: addrLow a :: payload

/-- The write frame (R76, R97). -/
def writeFrame (a : Nat) (chunk : List Byte) : List Byte := 0x02 :: addrHigh a :: addrLow a :: chunk

end Sys2Proof.Machine
end

