-- ==== Sys2Proof/Machine/Device.lean ====
section
/-! DEFINITION. The spec's reference device and its array (R69 to R72), one environment the block may meet (D17; log
15). It binds neither the block nor the other environments. -/

namespace Sys2Proof.Machine

/-- `MemRead(a, 1)` (R21): an address that is not listed reads as the fill byte (R72). -/
def memRead (fill : Byte) : List Host.Cell → Nat → Byte
  | [], _ => fill
  | (k, v) :: rest, a => if k = a then v else memRead fill rest a

/-- `MemWrite(a, 1, v)` (R21), keeping the canonical form: a byte equal to the fill is not listed. -/
def memWrite (fill : Byte) (a : Nat) (v : Byte) : List Host.Cell → List Host.Cell
  | [] => if v = fill then [] else [(a, v)]
  | (k, b) :: rest =>
    if a < k then (if v = fill then (k, b) :: rest else (a, v) :: (k, b) :: rest)
    else if a = k then (if v = fill then rest else (a, v) :: rest)
    else (k, b) :: memWrite fill a v rest

/-- The canonical form: addresses of the array, strictly rising, none listed with the byte an unlisted one reads as. -/
abbrev Memory.wf (fill : Byte) (m : List Host.Cell) : Prop :=
  m.Pairwise (fun c d => c.1 < d.1) ∧ ∀ c ∈ m, c.1 < Config.capacity ∧ c.2 ≠ fill

/-- Byte `a` of the device's array. -/
def RefDevice.byte (d : RefDevice) (a : Nat) : Byte := memRead d.fill d.arr a

/-- `SR() = D.wip | (D.wel << 1)` (R69). -/
def RefDevice.status (d : RefDevice) : Byte :=
  BitVec.ofNat 8 (d.wip.toNat + 2 * d.wel.toNat)

/-- The device as it starts (R72). -/
def RefDevice.fresh (busyPolls : Nat) (fill : Byte) : RefDevice :=
  { arr := [], wel := false, wip := false, busy := 0, busyPolls := busyPolls, fill := fill }

/-- The array address of a frame's two address bytes, modulo the capacity (R70). -/
def deviceAddr (tx : List Byte) : Nat :=
  ((tx.getD 1 0).toNat * 256 + (tx.getD 2 0).toNat) % Config.capacity

/-- The array after a write command's payload, each byte kept in its page (R70): byte `i` and those after it. -/
def storePayload (fill : Byte) (a : Nat) : Nat → List Byte → List Host.Cell → List Host.Cell
  | _, [], m => m
  | i, v :: rest, m =>
    storePayload fill a (i + 1) rest
      (memWrite fill (pageBase a + (pageOff a + i) % Config.pageSize) v m)

/-- The bytes a read command returns after its first three (R70). -/
def loadPayload (d : RefDevice) (a n : Nat) : List Byte :=
  (List.range n).map fun i => d.byte ((a + i) % Config.capacity)

/-- The status answer: the opcode's byte, the status byte, and zeros (R70). -/
def statusAnswer (d : RefDevice) (n : Nat) : List Byte := 0 :: d.status :: zeros (n - 2)

/-- `DevExchange(tx)` while an internal write cycle runs (R70): only read-status is answered, and it counts the cycle
down. That an attached device keeps to this after a failed page write is the model's choice (R153; log 25). -/
def busyExchange (d : RefDevice) (tx : List Byte) : List Byte × RefDevice :=
  if tx.getD 0 0 = 0x05 ∧ 2 ≤ tx.length then
    (statusAnswer d tx.length,
      if d.busy - 1 = 0 then { d with busy := 0, wip := false, wel := false } else { d with busy := d.busy - 1 })
  else (zeros tx.length, d)

/-- The state of the device after it accepted a write (R70). -/
def acceptWrite (d : RefDevice) (tx : List Byte) : RefDevice :=
  let arr := storePayload d.fill (deviceAddr tx) 0 (tx.drop 3) d.arr
  if 0 < d.busyPolls then { d with arr := arr, busy := d.busyPolls, wip := true }
  else { d with arr := arr, wel := false }

/-- `DevExchange(tx)` of a device that is not busy (R70). -/
def idleExchange (d : RefDevice) (tx : List Byte) : List Byte × RefDevice :=
  let op := tx.getD 0 0
  if op = 0x06 then (zeros tx.length, { d with wel := true })
  else if op = 0x04 then (zeros tx.length, { d with wel := false })
  else if op = 0x05 ∧ 2 ≤ tx.length then (statusAnswer d tx.length, d)
  else if op = 0x03 ∧ 3 ≤ tx.length then
    (zeros 3 ++ loadPayload d (deviceAddr tx) (tx.length - 3), d)
  else if op = 0x02 ∧ 4 ≤ tx.length ∧ d.wel = true then (zeros tx.length, acceptWrite d tx)
  else (zeros tx.length, d)

/-- `DevExchange(tx)` (R70). -/
def devExchange (d : RefDevice) (tx : List Byte) : List Byte × RefDevice :=
  if 0 < d.busy then busyExchange d tx else idleExchange d tx

/-- The device after an exchange or a release failed (R45, R61; log 24): its WEL and its write cycle are free, and so
are the `n` bytes at `a` that the failed frame may have written. Its later answers are still R70's over these (R153; log
25). -/
def RefDevice.lose (k a n : Nat) (d : RefDevice) : RefDevice :=
  { d with
    arr := storePayload d.fill (a % Config.capacity) 0 ((List.range n).map (Config.lostByte k)) d.arr
    wel := Config.lostWel k
    wip := decide (0 < Config.lostBusy k)
    busy := Config.lostBusy k }

end Sys2Proof.Machine
end

