-- ==== Sys2Proof/Machine/Flags.lean ====
section
/-! DEFINITION. The status byte's decode and fields (R78), and the result codes (R124). -/

namespace Sys2Proof.Machine

/-- The decoded status of a received byte: the bits of the mask, every other bit 0; total (R78). -/
def decodeStatus (received : Byte) : Byte := received &&& Config.statusMask

/-- `WIP = s[0]` (R33, R78). -/
def statusWip (s : Byte) : Bool := s.getLsbD 0

/-- `WEL = s[1]` (R34, R78). -/
def statusWel (s : Byte) : Bool := s.getLsbD 1

/-- `BP = s[3:2]` (R35, R78). -/
def statusBp (s : Byte) : BitVec 2 := s.extractLsb' 2 2

/-- `SRWD = s[7]` (R37, R78). -/
def statusSrwd (s : Byte) : Bool := s.getLsbD 7

/-- The result code `res[2:0]` (R124). -/
def resultCode : Result → BitVec 3
  | .ok => 0
  | .okStatus _ => 0
  | .okData _ => 0
  | .error (.transport _) => 1
  | .error (.gpio _) => 2
  | .error .addressOutOfBounds => 3
  | .error .unexpectedStatus => 4

end Sys2Proof.Machine
end

