-- ==== Sys2Proof/Machine/Ops.lean ====
section
/-! DEFINITION. The shared operations: the environment's draws (R47), the two interactions `CsSet` and `Exchange` (R19,
R20), the frame an operation sends, the ends of an operation with the abort (R131), and the block's reset (R145). -/

namespace Sys2Proof.Machine

/-! ### The environment's draws -/

/-- `n` received bytes of a decided answer: those it gives, and free bytes where it is short (R20, R47; log 3). -/
def fitBytes (n k : Nat) (rx : List Byte) : List Byte :=
  (List.range n).map fun i => rx.getD i (Config.rxByte k i)

/-- A decided `Exchange` answer under the contract `len(rx) = len(tx)` (R20). -/
def fitAnswer (n k : Nat) : XferAnswer → XferAnswer
  | .ok rx => .ok (fitBytes n k rx)
  | .fail e => .fail e

/-- The answer to a `CsSet` (R47): decided, or `ok` by the reference Transport (R69), or free. -/
def Env.csAnswer (e : Env) : CsAnswer :=
  match e.csAnswers.head?.join, e.device with
  | some a, _ => a
  | none, some _ => .ok
  | none, none => Config.csAnswer e.drawn

/-- That answer, and the environment after it. -/
def Env.drawCs (e : Env) : CsAnswer × Env :=
  (e.csAnswer, { e with csAnswers := e.csAnswers.tail, drawn := e.drawn + 1 })

/-- The answer to `Exchange(tx)` (R47): decided, or the reference device's (R70), or free. An attached device reads
every frame as a new one, also where `S.cs` was Unknown before its assert and the line may have stayed low (R90, R152),
and after a failure it still answers as R70 has it: the model's choices (log 25). -/
def Env.xferAnswer (e : Env) (tx : List Byte) : XferAnswer :=
  match e.xferAnswers.head?.join, e.device with
  | some a, _ => fitAnswer tx.length e.drawn a
  | none, some d => .ok (devExchange d tx).1
  | none, none => fitAnswer tx.length e.drawn (Config.xferAnswer e.drawn)

/-- The attached device after an exchange so answered: it takes every frame that went through, also where its answer was
decided otherwise (log 15), and takes it as a new CS-low interval, also the first one after a failed release (log 25);
what a failed one leaves is `Env.lose`. -/
def Env.deviceAfter (e : Env) (tx : List Byte) : XferAnswer → Option RefDevice
  | .ok _ => e.device.map fun d => (devExchange d tx).2
  | .fail _ => e.device

/-- The answer to `Exchange(tx)`, and the environment after it. -/
def Env.drawXfer (e : Env) (tx : List Byte) : XferAnswer × Env :=
  (e.xferAnswer tx,
    { e with
      xferAnswers := e.xferAnswers.tail, device := e.deviceAfter tx (e.xferAnswer tx), drawn := e.drawn + 1 })

/-- `n` draws of `DUMMY_TX` (R14; log 12). -/
def Env.drawDummies (e : Env) (n : Nat) : List Byte × Env :=
  ((List.range n).map fun i => e.dummies.getD i (Config.dummyTx e.drawn i),
    { e with dummies := e.dummies.drop n, drawn := e.drawn + 1 })

/-- The choice of the error to report when exchange and release both fail: `true` for the transport's (D10; log 13). -/
def Env.drawChoice (e : Env) : Bool × Env :=
  (e.choices.headD (Config.reportsTransport e.drawn), { e with choices := e.choices.tail, drawn := e.drawn + 1 })

/-- What a failed exchange or release leaves in the attached device: free values, of the `n` bytes at `a` too (log
24). -/
def Env.lose (a n : Nat) (e : Env) : Env :=
  { e with device := e.device.map (RefDevice.lose e.drawn a n), drawn := e.drawn + 1 }

/-! ### The two interactions -/

/-- The event of an answered `CsSet` (R46). -/
def csEvent : Level → CsAnswer → BusEvent
  | .low, .ok => .csLow
  | .high, .ok => .csHigh
  | .low, .fail e => .csLowFail e
  | .high, .fail e => .csHighFail e

/-- The event of an answered `Exchange` (R46). -/
def xferEvent (tx : List Byte) : XferAnswer → BusEvent
  | .ok rx => .xfer tx rx
  | .fail e => .xferFail tx e

/-- `S.cs` after a `CsSet`: the level driven, or `Unknown` (R28, R89). -/
def csAfter : Level → CsAnswer → CsLevel
  | .low, .ok => .low
  | .high, .ok => .high
  | _, .fail _ => .unknown

/-- `CsSet(level)` (R19), the only writer of `S.cs` (R28): the state after it. Its answer is `s.env.csAnswer`. -/
def csSet (level : Level) (s : State) : State :=
  { s with
    cs := csAfter level s.env.csAnswer, trace := s.trace ++ [csEvent level s.env.csAnswer], env := s.env.drawCs.2 }

/-- `Exchange(tx)` (R20): the state after it. Its answer is `s.env.xferAnswer tx`. -/
def exchange (tx : List Byte) (s : State) : State :=
  { s with trace := s.trace ++ [xferEvent tx (s.env.xferAnswer tx)], env := (s.env.drawXfer tx).2 }

/-- The attached device has lost what `Env.lose` says (log 24). -/
def State.lose (a n : Nat) (s : State) : State := { s with env := s.env.lose a n }

/-! ### Frames -/

/-- The block goes to `Command(tx)`: its assert comes next (R88). -/
def sendFrame (tx : List Byte) (p : Purpose) (s : State) : State := { s with activity := .framing tx .assert p }

/-! ### The ends of an operation -/

/-- An operation begins: its observation is empty (R46; log 19). -/
def State.begin (s : State) : State := { s with result := none, trace := [] }

/-- An operation returns its result and the block waits for the next request (R123). -/
def State.finish (r : Result) (s : State) : State := { s with activity := .waiting, result := some r }

/-- Whether an error leaves `S.mode`: in `init` (R131), and in a codec function called on its own, for the codec never
writes it (log 6). -/
def Purpose.keepsMode : Purpose → Bool
  | .initStatus => true
  | .call _ => true
  | .hostStatus => false
  | .hostRead _ _ => false
  | .pageEnable _ _ => false
  | .pageData _ _ => false
  | .pagePoll _ _ => false

/-- The abort (R131), the block's trap entry: `S.mode` becomes `Idle` unless it is kept; nothing later is issued; the
error goes to the host; the bus is not touched. -/
def State.abort (keepMode : Bool) (e : Error) (s : State) : State :=
  { s with mode := if keepMode then s.mode else .idle, activity := .waiting, result := some (.error e) }

/-- The block's reset (R145): any operation in progress is abandoned with no result and no further bus activity. The
device and the environment are not touched (R146), and neither are the host's waiting requests, the buffer, the trace so
far, and the result of an operation that had finished (log 4). -/
def State.resetBlock (s : State) : State :=
  { s with mode := .uninitialized, cs := .unknown, activity := .waiting,
           result := if s.activity = .waiting then s.result else none,
           host := { s.host with resetIn := none } }

/-- One step nearer to the host's reset (log 4). -/
def HostSide.tick (h : HostSide) : HostSide := { h with resetIn := h.resetIn.map (· - 1) }

/-- Nothing is admitted while an operation is in progress (R123, D19). -/
def whenWaiting (s : State) (k : Host.Outcome State Fault Refusal) : Host.Outcome State Fault Refusal :=
  match s.activity with
  | .waiting => k
  | .driving => .refused .operationRunning
  | .framing _ _ _ => .refused .operationRunning

end Sys2Proof.Machine
end

