-- ==== Sys2Proof/Machine/Codec.lean ====
section
/-! DEFINITION. The Command Codec (40_codec.md): the frame each of its five functions sends, and what the function
returns from the answer. -/

namespace Sys2Proof.Machine

/-- `ReadStatus()` up to its command (R93): a fresh dummy byte, one frame. -/
def sendStatus (p : Purpose) (s : State) : State :=
  sendFrame (rdsrFrame ((s.env.drawDummies 1).1.getD 0 0)) p { s with env := (s.env.drawDummies 1).2 }

/-- `WriteEnable()` up to its command (R94). -/
def sendEnable (p : Purpose) (s : State) : State := sendFrame wrenFrame p s

/-- `WriteDisable()` up to its command (R95). -/
def sendDisable (p : Purpose) (s : State) : State := sendFrame wrdiFrame p s

/-- `ReadData(A, n)` up to its command (R96): one frame whatever the length, no address check. -/
def sendRead (a n : Nat) (p : Purpose) (s : State) : State :=
  sendFrame (readFrame a (s.env.drawDummies n).1) p { s with env := (s.env.drawDummies n).2 }

/-- `WriteCmd(A, c)` up to its command (R97): checks nothing itself. -/
def sendWrite (a : Nat) (chunk : List Byte) (p : Purpose) (s : State) : State := sendFrame (writeFrame a chunk) p s

/-- What `ReadStatus()` returns: the second received byte, decoded (R93, R78). -/
def statusIn (rx : List Byte) : Byte := decodeStatus (rx.getD 1 0)

/-- What `ReadData(A, n)` returns: the `n` bytes after the first three (R96). -/
def dataIn (n : Nat) (rx : List Byte) : List Byte := (rx.drop 3).take n

/-- A codec function called on its own, up to its command (log 6). -/
def sendCall (f : CodecCall) (s : State) : State :=
  match f with
  | .writeEnable => sendEnable (.call f) s
  | .writeDisable => sendDisable (.call f) s
  | .readStatus => sendStatus (.call f) s
  | .readData addr n => sendRead addr.toNat n (.call f) s
  | .writeData addr chunk => sendWrite addr.toNat chunk (.call f) s

/-- What such a call returns. -/
def callResult (f : CodecCall) (rx : List Byte) : Result :=
  match f with
  | .writeEnable => .ok
  | .writeDisable => .ok
  | .readStatus => .okStatus (statusIn rx)
  | .readData _ n => .okData (dataIn n rx)
  | .writeData _ _ => .ok

end Sys2Proof.Machine
end

