-- ==== Sys2Proof/Machine/Tracker.lean ====
section
/-! DEFINITION. The Device State Tracker (41_state_tracker.md): what follows each interaction of `init`, of the page
write and of its completion poll. -/

namespace Sys2Proof.Machine

/-- `init()` after its `CsSet(High)` was answered (R100). -/
def initDriven (answer : CsAnswer) (s : State) : State :=
  match answer with
  | .fail e => s.abort true (.gpio e)
  | .ok => sendStatus .initStatus s

/-- `init()` after its status read (R100): WIP = 0 and WEL = 0 are required. -/
def initRead (status : Byte) (s : State) : State :=
  if statusWip status || statusWel status then s.abort true .unexpectedStatus
  else { s with mode := .idle }.finish .ok

/-- `PageWrite(a, c)` up to its first command (R101): `CheckAddr` (R107) comes before any bus activity of the page. -/
def startPageWrite (c : Chunk) (todo : List Chunk) (s : State) : State :=
  if Config.maxAddr < c.addr then s.abort false .addressOutOfBounds else sendEnable (.pageEnable c todo) s

/-- `PageWrite` after `WriteEnable()` returned (R101). -/
def pageEnabled (c : Chunk) (todo : List Chunk) (s : State) : State :=
  sendWrite c.addr c.bytes (.pageData c todo) { s with mode := .writeEnabled }

/-- `PageWrite` after `WriteCmd` returned (R101): the first poll follows. -/
def pageSent (c : Chunk) (todo : List Chunk) (s : State) : State :=
  sendStatus (.pagePoll c todo) { s with mode := .busy }

end Sys2Proof.Machine
end

