-- ==== Sys2Proof/Machine/Splitter.lean ====
section
/-! DEFINITION. The Page Splitter (42_page_splitter.md): the chunks of a write and of an erase, and the page writes made
of them in order. -/

namespace Sys2Proof.Machine

/-- The loop of `SplitWrite` (R109): a page at a time from a page boundary. The first argument bounds the rounds; each
takes at least one byte. -/
def laterChunks : Nat → Nat → List Byte → List Chunk
  | 0, _, _ => []
  | _ + 1, _, [] => []
  | fuel + 1, cur, b :: rest =>
    { addr := cur, bytes := (b :: rest).take Config.pageSize } ::
      laterChunks fuel (cur + Config.pageSize) ((b :: rest).drop Config.pageSize)

/-- The page writes of `SplitWrite(addr, data)`, in order (R109): the first chunk, also of no bytes (D18), then whole
pages, the last perhaps shorter. -/
def splitWrite (addr : Nat) (data : List Byte) : List Chunk :=
  { addr := addr, bytes := data.take (firstChunkLength addr) } ::
    laterChunks data.length (nextPage addr) (data.drop (firstChunkLength addr))

/-- `n` full zero pages from a page boundary, the loop of `SplitErase` (R112). -/
def zeroPages : Nat → Nat → List Chunk
  | 0, _ => []
  | n + 1, cur => { addr := cur, bytes := zeros Config.pageSize } :: zeroPages n (cur + Config.pageSize)

/-- The page writes of `SplitErase(addr, amount)` for `amount >= 1`, in order (R112): from `addr` to its page end, then
`amount - 1` full pages. -/
def splitErase (addr amount : Nat) : List Chunk :=
  { addr := addr, bytes := zeros (firstChunkLength addr) } :: zeroPages (amount - 1) (nextPage addr)

/-- The page writes that remain, in order (R109, R112): the next one starts, or with none left the operation returns. An
error in one leaves the rest out (R108). -/
def writeRest (todo : List Chunk) (s : State) : State :=
  match todo with
  | [] => s.finish .ok
  | c :: todo => startPageWrite c todo s

/-- A poll of the page write of `c` has read the status (R102): with WIP = 1 it polls again, with WIP = 0 the page
write is done, `S.mode` is `Idle` again (R101), and the page writes that remain follow. Only WIP is tested (C1). -/
def polled (c : Chunk) (todo : List Chunk) (status : Byte) (s : State) : State :=
  if statusWip status then sendStatus (.pagePoll c todo) s else writeRest todo { s with mode := .idle }

end Sys2Proof.Machine
end

