-- ==== Sys2Proof/Machine/Facade.lean ====
section
/-! DEFINITION. The Driver Façade (43_facade.md): how each of the five host operations after `init` starts. -/

namespace Sys2Proof.Machine

/-- `read_status()` (R118). -/
def startStatus (s : State) : State := sendStatus .hostStatus s

/-- The host's buffer of length `n` while a `read` has it: any value, and so it stays unless the read succeeds (D14; log
11). -/
def lendBuffer (n : Nat) (s : State) : State :=
  { s with
    buffer := (List.range n).map (Config.bufferByte s.env.drawn)
    env := { s.env with drawn := s.env.drawn + 1 } }

/-- `read(addr, n)` (R119): one frame. -/
def startRead (addr : HostAddr) (n : Nat) (s : State) : State :=
  sendRead addr.toNat n (.hostRead addr n) (lendBuffer n s)

/-- `read` after its frame (R119): the buffer is filled. -/
def readDone (b : List Byte) (s : State) : State := { s with buffer := b }.finish (.okData b)

/-- `write_bytes(addr, data)` (R120). -/
def startWrite (addr : Nat) (data : List Byte) (s : State) : State := writeRest (splitWrite addr data) s

/-- `erase_sectors(addr, amount)` for `amount >= 1` (R121), and `erase_all` (R122). -/
def startErase (addr amount : Nat) (s : State) : State := writeRest (splitErase addr amount) s

/-- The admission of every host operation but `init` (R117): not before `init` succeeded (D9). -/
def admitted (s : State) (k : Host.Outcome State Fault Refusal) : Host.Outcome State Fault Refusal :=
  whenWaiting s (if s.mode = .uninitialized then .refused .notInitialized else k)

end Sys2Proof.Machine
end

