-- ==== Sys2Proof/Machine/Sequencer.lean ====
section
/-! DEFINITION. The block's one interaction a step (R159): each interaction of `Command(tx)` (R88), and the lines of the
operation's pseudocode that follow it up to the next interaction (R23; log 1). -/

namespace Sys2Proof.Machine

/-- What follows `Command(tx)` once it returned `rx`: the rest of its operation up to the next interaction. -/
def returned (p : Purpose) (rx : List Byte) (s : State) : State :=
  match p with
  | .initStatus => initRead (statusIn rx) s
  | .hostStatus => s.finish (.okStatus (statusIn rx))
  | .hostRead _ n => readDone (dataIn n rx) s
  | .pageEnable c todo => pageEnabled c todo s
  | .pageData c todo => pageSent c todo s
  | .pagePoll c todo => polled c todo (statusIn rx) s
  | .call f => s.finish (callResult f rx)

/-- The bytes of the device that a failing frame may have touched: address and length (R61; log 24). A read-status frame
inside a page write puts that page write's bytes at risk, for they may still be on their way (R132). -/
def Purpose.atRisk : Purpose → Nat × Nat
  | .pageData c _ => (c.addr, c.bytes.length)
  | .pagePoll c _ => (c.addr, c.bytes.length)
  | .call (.writeData addr chunk) => (addr.toNat, chunk.length)
  | .call .writeEnable => (0, 0)
  | .call .writeDisable => (0, 0)
  | .call .readStatus => (0, 0)
  | .call (.readData _ _) => (0, 0)
  | .initStatus => (0, 0)
  | .hostStatus => (0, 0)
  | .hostRead _ _ => (0, 0)
  | .pageEnable _ _ => (0, 0)

/-- The assert of `Command(tx)`, `CsSet(Low)` (R88): when it fails neither exchange nor release is attempted (D24). -/
def assertStep (tx : List Byte) (p : Purpose) (s : State) : State :=
  match s.env.csAnswer with
  | .ok => { csSet .low s with activity := .framing tx .exchange p }
  | .fail e => (csSet .low s).abort p.keepsMode (.gpio e)

/-- The exchange of `Command(tx)` (R88): the release follows whether or not it failed. -/
def exchangeStep (tx : List Byte) (p : Purpose) (s : State) : State :=
  match s.env.xferAnswer tx with
  | .ok rx => { exchange tx s with activity := .framing tx (.release (.ok rx)) p }
  | .fail e => { (exchange tx s).lose p.atRisk.1 p.atRisk.2 with activity := .framing tx (.release (.fail e)) p }

/-- The release of `Command(tx)`, `CsSet(High)` (R88), and how the command ends. -/
def releaseStep (x : XferAnswer) (p : Purpose) (s : State) : State :=
  match x, s.env.csAnswer with
  | .ok rx, .ok => returned p rx (csSet .high s)
  | .ok _, .fail e2 => ((csSet .high s).lose p.atRisk.1 p.atRisk.2).abort p.keepsMode (.gpio e2)
  | .fail e1, .ok => (csSet .high s).abort p.keepsMode (.transport e1)
  | .fail e1, .fail e2 =>
    let t := (csSet .high s).lose p.atRisk.1 p.atRisk.2
    { t with env := t.env.drawChoice.2 }.abort p.keepsMode
      (if t.env.drawChoice.1 then .transport e1 else .gpio e2)

/-- The next interaction of the operation in progress, and what follows it up to the one after. -/
def advance (s : State) : State :=
  match s.activity with
  | .waiting => s
  | .driving => initDriven s.env.csAnswer (csSet .high s)
  | .framing tx .assert p => assertStep tx p s
  | .framing tx .exchange p => exchangeStep tx p s
  | .framing _ (.release x) p => releaseStep x p s

/-- An operation starts and makes its first interaction, if it comes to one. -/
def launch (start : State → State) (s : State) : Host.Outcome State Fault Refusal := .next (advance (start s.begin))

end Sys2Proof.Machine
end

