-- ==== Sys2Proof/Machine/HostOperations.lean ====
section
/-! DEFINITION. The six host operations (R117): the admission of each, and its first interaction. -/

namespace Sys2Proof.Machine

/-- `init`: admitted only in mode Uninitialized (R100, D8). -/
def execInit (s : State) : Host.Outcome State Fault Refusal :=
  whenWaiting s
    (if s.mode = .uninitialized then launch (fun s => { s with activity := .driving }) s
     else .refused .alreadyInitialized)

/-- `read_status` (R118). -/
def execReadStatus (s : State) : Host.Outcome State Fault Refusal := admitted s (launch startStatus s)

/-- `read addr, n` (R119). -/
def execRead (addr : HostAddr) (n : Nat) (s : State) : Host.Outcome State Fault Refusal :=
  admitted s (launch (startRead addr n) s)

/-- `write_bytes addr, data` (R120). -/
def execWriteBytes (addr : HostAddr) (data : List Byte) (s : State) : Host.Outcome State Fault Refusal :=
  admitted s (launch (startWrite addr.toNat data) s)

/-- `erase_sectors addr, amount` (R121); no pages is refused (R113). -/
def execEraseSectors (addr : HostAddr) (amount : Nat) (s : State) : Host.Outcome State Fault Refusal :=
  admitted s (if amount = 0 then .refused .eraseOfZeroPages else launch (startErase addr.toNat amount) s)

/-- `erase_all` (R122): every page from address 0 (R115). -/
def execEraseAll (s : State) : Host.Outcome State Fault Refusal :=
  admitted s (launch (startErase 0 Config.pageCount) s)

end Sys2Proof.Machine
end

