-- ==== Sys2Proof/Machine/WireCommands.lean ====
section
/-! DEFINITION. The six wire rows of the opcode table: each a codec function called on its own (log 6). -/

namespace Sys2Proof.Machine

/-- `CMD_WREN` (R94). -/
def execCmdWren (s : State) : Host.Outcome State Fault Refusal := whenWaiting s (launch (sendCall .writeEnable) s)

/-- `CMD_WRDI` (R95). -/
def execCmdWrdi (s : State) : Host.Outcome State Fault Refusal := whenWaiting s (launch (sendCall .writeDisable) s)

/-- `CMD_RDSR` (R93). -/
def execCmdRdsr (s : State) : Host.Outcome State Fault Refusal := whenWaiting s (launch (sendCall .readStatus) s)

/-- `CMD_READ A, n` (R96). -/
def execCmdRead (addr : HostAddr) (n : Nat) (s : State) : Host.Outcome State Fault Refusal :=
  whenWaiting s (launch (sendCall (.readData addr n)) s)

/-- `CMD_WRITE A, c` (R97). -/
def execCmdWrite (addr : HostAddr) (chunk : List Byte) (s : State) : Host.Outcome State Fault Refusal :=
  whenWaiting s (launch (sendCall (.writeData addr chunk)) s)

/-- `CMD_WRSR` (R80, R98): the block has no frame for it and refuses it. -/
def execCmdWrsr (_ : State) : Host.Outcome State Fault Refusal := .refused .writeStatusUnimplemented

end Sys2Proof.Machine
end

