-- ==== Sys2Proof/Machine/Dispatch.lean ====
section
/-! DEFINITION. One arm per instruction (R117 for the host operations). -/

namespace Sys2Proof.Machine

def exec (i : Instr) (s : State) : Host.Outcome State Fault Refusal :=
  match i with
  | .cmdWren => Sys2Proof.Machine.execCmdWren s
  | .cmdWrdi => Sys2Proof.Machine.execCmdWrdi s
  | .cmdRdsr => Sys2Proof.Machine.execCmdRdsr s
  | .cmdRead addr n => Sys2Proof.Machine.execCmdRead addr n s
  | .cmdWrite addr chunk => Sys2Proof.Machine.execCmdWrite addr chunk s
  | .cmdWrsr => Sys2Proof.Machine.execCmdWrsr s
  | .init => Sys2Proof.Machine.execInit s
  | .readStatus => Sys2Proof.Machine.execReadStatus s
  | .read addr n => Sys2Proof.Machine.execRead addr n s
  | .writeBytes addr data => Sys2Proof.Machine.execWriteBytes addr data s
  | .eraseSectors addr amount => Sys2Proof.Machine.execEraseSectors addr amount s
  | .eraseAll => Sys2Proof.Machine.execEraseAll s

end Sys2Proof.Machine
end

