-- ==== Sys2Proof/Machine/Fetch.lean ====
section
/-! DEFINITION. What one step of the machine does: the host's reset, the next interaction of the operation in
progress, or the next request. -/

namespace Sys2Proof.Machine

/-- The block waits: take the host's oldest request and run it; with none placed nothing happens (R117, R131; log 9). -/
def takeRequest (s : State) : Host.Outcome State Fault Refusal :=
  match s.host.requests with
  | [] => .next s
  | r :: rest =>
    match decode r with
    | .error why => .refused (.badRequest why)
    | .ok i => exec i { s with host := { s.host with requests := rest } }

/-- The step of a block that no reset interrupts: the operation in progress goes on (R123), or a request is taken. -/
def runBlock (s : State) : Host.Outcome State Fault Refusal :=
  match s.activity with
  | .waiting => takeRequest s
  | .driving => .next (advance s)
  | .framing _ _ _ => .next (advance s)

/-- One step: a reset that lands now comes first and is the whole step (R145; log 4); else the reset on its way comes
one step nearer and the block runs. -/
def stepOnce (s : State) : Host.Outcome State Fault Refusal :=
  if s.host.resetIn = some 0 then .next s.resetBlock else runBlock { s with host := s.host.tick }

/-- Place a request as the host's next, with the block ready to take it: no operation in progress and no reset on its
way. -/
def State.placeNext (s : State) (r : Request) : State :=
  { s with activity := .waiting, host := { requests := r :: s.host.requests, resetIn := none } }

end Sys2Proof.Machine
end

