-- ==== Sys2Proof/Machine/Step.lean ====
section
/-! DEFINITION. The step function and where it fetches. -/

namespace Sys2Proof.Machine

/-- One step of the machine: at most one interaction (R159; log 1). -/
def step (s : State) : Host.Outcome State Fault Refusal := stepOnce s

/-- `s` with a word of the opcode table placed as the host's next request (log 17). -/
def State.withFetchWord (s : State) (nbits w : Nat) : State := s.placeNext (tableRequest nbits w)

end Sys2Proof.Machine
end

