-- ==== Sys2Proof/Safety.lean ====
section
/-! DEFINITION. The terms statements are made in: what interactions without failure leave, the frames of a trace, which
instruction an operation in progress belongs to, the legal moves of `S.mode` (R99), and the invariant of the machine. -/

namespace Sys2Proof.Machine

/-! ### Runs -/

/-- `n` steps, stopping at the first refusal: `core.run` (Host/Core.lean) at the machine's own types. -/
def runFor : Nat → State → Host.Outcome State Fault Refusal
  | 0, s => .next s
  | n + 1, s =>
    match step s with
    | .next t => runFor n t
    | .fault r => .fault r
    | .refused r => .refused r

/-! ### Interactions without failure -/

/-- The block waits for a request and no reset is on its way. -/
abbrev State.Ready (s : State) : Prop := s.activity = .waiting ∧ s.host.resetIn = none

/-- The environment answers the three interactions of `Command(tx)` with `ok`, `ok(rx)` and `ok`. -/
abbrev FrameOk (s : State) (tx rx : List Byte) : Prop :=
  s.env.drawCs.1 = .ok ∧ (s.env.drawCs.2.drawXfer tx).1 = .ok rx ∧ (s.env.drawCs.2.drawXfer tx).2.drawCs.1 = .ok

/-- The state after the assert of a command, answered `ok`: `CS_LOW` on the trace, the exchange next (R88). -/
def asserted (s : State) (tx : List Byte) (p : Purpose) : State :=
  { s with cs := .low, trace := s.trace ++ [.csLow], env := s.env.drawCs.2, activity := .framing tx .exchange p }

/-- The block after the three interactions of such a command: `CS_LOW, XFER(tx, rx), CS_HIGH` on the trace (R88). -/
def afterFrame (s : State) (tx rx : List Byte) : State :=
  { s with
    cs := .high
    trace := s.trace ++ [.csLow, .xfer tx rx, .csHigh]
    env := (s.env.drawCs.2.drawXfer tx).2.drawCs.2 }

/-- The state once the `n` dummy bytes of a frame are drawn (R14). -/
def State.afterDummies (s : State) (n : Nat) : State := { s with env := (s.env.drawDummies n).2 }

/-- The read-status frame the block sends next (R93). -/
def nextRdsr (s : State) : List Byte := rdsrFrame ((s.env.drawDummies 1).1.getD 0 0)

/-- The read frame the block sends next for `n` bytes at `a` (R96). -/
def nextRead (s : State) (a n : Nat) : List Byte := readFrame a (s.env.drawDummies n).1

/-- The state after the first step of `init` succeeded: chip-select driven High (R100). -/
def afterDriveHigh (s : State) : State :=
  { s with cs := .high, trace := s.trace ++ [.csHigh], env := s.env.drawCs.2 }

/-! ### Traces -/

/-- The exchanges of a trace, in order: the frame, and the answer unless it failed. -/
def exchangesOf (trace : List BusEvent) : List (List Byte × Option (List Byte)) :=
  trace.filterMap fun e =>
    match e with
    | .xfer tx rx => some (tx, some rx)
    | .xferFail tx _ => some (tx, none)
    | .csLow => none
    | .csHigh => none
    | .csLowFail _ => none
    | .csHighFail _ => none

/-- The frames of a trace, in order (R73). -/
def framesOf (trace : List BusEvent) : List (List Byte) := (exchangesOf trace).map Prod.fst

/-- A read-status frame, by its opcode (R79). -/
def isRdsr (frame : List Byte) : Bool := frame.head? == some 0x05

/-- The frames of a trace but for its polls. -/
def unpolled (trace : List BusEvent) : List (List Byte) := (framesOf trace).filter fun f => !isRdsr f

/-- Every frame of a trace begins with one of the given opcodes (R81). -/
def SendsOnly (opcodes : List Byte) (trace : List BusEvent) : Prop :=
  ∀ frame ∈ framesOf trace, ∃ op ∈ opcodes, frame.head? = some op

/-- What may follow an exchange inside a write or an erase (R103): the write command after the write-enable, the poll
after the write command, the poll again after a status with WIP = 1, the next write-enable after one with WIP = 0, and
nothing after a failure. -/
def exchangeMove (x y : List Byte × Option (List Byte)) : Bool :=
  match x.2 with
  | none => false
  | some rx =>
    if x.1.head? = some 0x06 then y.1.head? == some 0x02
    else if x.1.head? = some 0x02 then y.1.head? == some 0x05
    else if x.1.head? = some 0x05 then
      if statusWip (statusIn rx) then y.1.head? == some 0x05 else y.1.head? == some 0x06
    else false

/-- Every two neighbours of a list are so related. -/
def Adjacent {α : Type} (p : α → α → Bool) : List α → Bool
  | [] => true
  | [_] => true
  | x :: y :: rest => p x y && Adjacent p (y :: rest)

/-- The frames of a list of page writes but for their polls: `CMD_WREN`, `CMD_WRITE` for each (R101). -/
def writeFrames (chunks : List Chunk) : List (List Byte) :=
  chunks.flatMap fun c => [wrenFrame, writeFrame c.addr c.bytes]

/-- The bytes a list of page writes names, with their addresses, in order (R54). -/
def chunkBytes (chunks : List Chunk) : List (Nat × Byte) :=
  chunks.flatMap fun c => c.bytes.zipIdx.map fun p => (c.addr + p.2, p.1)

/-! ### Which instruction an operation in progress belongs to -/

/-- A host operation (R83), as against a call of a codec function. -/
def isHostOp : Instr → Bool
  | .cmdWren => false
  | .cmdWrdi => false
  | .cmdRdsr => false
  | .cmdRead _ _ => false
  | .cmdWrite _ _ => false
  | .cmdWrsr => false
  | .init => true
  | .readStatus => true
  | .read _ _ => true
  | .writeBytes _ _ => true
  | .eraseSectors _ _ => true
  | .eraseAll => true

/-- The page writes an instruction makes, where it makes any (R109, R112, R115); an erase of 0 pages makes none
(R113). -/
def pageWritesOf : Instr → Option (List Chunk)
  | .writeBytes addr data => some (splitWrite addr.toNat data)
  | .eraseSectors addr amount => if amount = 0 then none else some (splitErase addr.toNat amount)
  | .eraseAll => some (splitErase 0 Config.pageCount)
  | .cmdWren => none
  | .cmdWrdi => none
  | .cmdRdsr => none
  | .cmdRead _ _ => none
  | .cmdWrite _ _ => none
  | .cmdWrsr => none
  | .init => none
  | .readStatus => none
  | .read _ _ => none

/-- The instruction of a codec function called on its own. -/
def CodecCall.instr : CodecCall → Instr
  | .writeEnable => .cmdWren
  | .writeDisable => .cmdWrdi
  | .readStatus => .cmdRdsr
  | .readData addr n => .cmdRead addr n
  | .writeData addr chunk => .cmdWrite addr chunk

/-- The page write a frame belongs to and the ones after it. -/
def Purpose.pages : Purpose → Option (Chunk × List Chunk)
  | .pageEnable c todo => some (c, todo)
  | .pageData c todo => some (c, todo)
  | .pagePoll c todo => some (c, todo)
  | .initStatus => none
  | .hostStatus => none
  | .hostRead _ _ => none
  | .call _ => none

/-- A frame of this purpose is one of the instruction's; of a write or an erase, with the rest of its page writes. -/
def Purpose.Serves (p : Purpose) (i : Instr) : Prop :=
  match p with
  | .initStatus => i = .init
  | .hostStatus => i = .readStatus
  | .hostRead addr n => i = .read addr n
  | .pageEnable c todo => ∃ chunks, pageWritesOf i = some chunks ∧ (c :: todo) <:+ chunks
  | .pageData c todo => ∃ chunks, pageWritesOf i = some chunks ∧ (c :: todo) <:+ chunks
  | .pagePoll c todo => ∃ chunks, pageWritesOf i = some chunks ∧ (c :: todo) <:+ chunks
  | .call f => i = f.instr

/-- An operation of this instruction is in progress. -/
def InProgress (i : Instr) (s : State) : Prop :=
  match s.activity with
  | .waiting => False
  | .driving => i = .init
  | .framing _ _ p => p.Serves i

/-- A step of the instruction: the one that takes it, or one that goes on with it, no reset landing there. -/
def StepOf (i : Instr) (s t : State) : Prop :=
  exec i s = .next t ∨ (InProgress i s ∧ s.host.resetIn ≠ some 0 ∧ step s = .next t)

/-! ### The modes -/

/-- The changes of `S.mode` that no reset makes, each with what makes it (R99): the command that was released, in the
state before, or an error. -/
def ModeMoves (s t : State) : Prop :=
  t.mode = s.mode ∨
  (t.mode = .idle ∧ s.mode ≠ .uninitialized ∧ ∃ e, t.result = some (.error e)) ∨
  ∃ tx rx p, s.activity = .framing tx (.release (.ok rx)) p ∧
    match p with
    | .initStatus => s.mode = .uninitialized ∧ t.mode = .idle ∧ t.result = some .ok
    | .pageEnable _ _ => s.mode = .idle ∧ t.mode = .writeEnabled
    | .pageData _ _ => s.mode = .writeEnabled ∧ t.mode = .busy
    | .pagePoll _ _ => s.mode = .busy ∧ t.mode = .idle ∧ statusWip (statusIn rx) = false
    | .hostStatus => False
    | .hostRead _ _ => False
    | .call _ => False

/-! ### The invariant -/

/-- Chunks of whole page starts from a cursor: each one at the cursor, at most a page of bytes, the cursor then a page
on (R105, R109). -/
def ChunksFrom : Nat → List Chunk → Prop
  | _, [] => True
  | cur, c :: rest => c.addr = cur ∧ c.bytes.length ≤ Config.pageSize ∧ ChunksFrom (cur + Config.pageSize) rest

/-- The frames the block sends for a purpose (R93 to R97). -/
def Purpose.Sends (p : Purpose) (tx : List Byte) : Prop :=
  match p with
  | .initStatus => ∃ d, tx = rdsrFrame d
  | .hostStatus => ∃ d, tx = rdsrFrame d
  | .hostRead addr n => ∃ payload, payload.length = n ∧ tx = readFrame addr.toNat payload
  | .pageEnable _ _ => tx = wrenFrame
  | .pageData c _ => tx = writeFrame c.addr c.bytes
  | .pagePoll _ _ => ∃ d, tx = rdsrFrame d
  | .call .writeEnable => tx = wrenFrame
  | .call .writeDisable => tx = wrdiFrame
  | .call .readStatus => ∃ d, tx = rdsrFrame d
  | .call (.readData addr n) => ∃ payload, payload.length = n ∧ tx = readFrame addr.toNat payload
  | .call (.writeData addr chunk) => tx = writeFrame addr.toNat chunk

/-- `S.mode` while a frame of this purpose is in progress (R99 to R102). -/
def Purpose.InMode (p : Purpose) (m : Mode) : Prop :=
  match p with
  | .initStatus => m = .uninitialized
  | .hostStatus => m = .idle
  | .hostRead _ _ => m = .idle
  | .pageEnable _ _ => m = .idle
  | .pageData _ _ => m = .writeEnabled
  | .pagePoll _ _ => m = .busy
  | .call _ => m = .uninitialized ∨ m = .idle

/-- `S.cs` before each interaction of a command (R88): Low where the block drove it Low and nothing failed, and else
never knowingly (R90). -/
def Phase.CsIs (ph : Phase) (cs : CsLevel) : Prop :=
  match ph with
  | .assert => cs ≠ .low
  | .exchange => cs = .low
  | .release _ => cs = .low

/-- The reference device's own invariant: its array in canonical form, WIP exactly while answers are due (R69, R70). -/
structure RefDevice.Ok (d : RefDevice) : Prop where
  arr_wf : Memory.wf d.fill d.arr
  wip_iff : d.wip = true ↔ 0 < d.busy

/-- The invariant every step keeps. -/
structure State.Inv (s : State) : Prop where
  /-- The host never finds the block in `WriteEnabled` or `Busy` (R99), nor the device knowingly selected (R90). -/
  waiting : s.activity = .waiting → (s.mode = .uninitialized ∨ s.mode = .idle) ∧ s.cs ≠ .low
  /-- `init` starts in mode Uninitialized (R100). -/
  driving : s.activity = .driving → s.mode = .uninitialized ∧ s.cs ≠ .low
  /-- A running operation has no result yet (R123). -/
  running : s.activity ≠ .waiting → s.result = none
  /-- A frame in progress is the one its operation sends, in its mode, chip-select as its phase has it; a received
  answer has its length (R20). -/
  framing : ∀ tx ph p, s.activity = .framing tx ph p →
    p.Sends tx ∧ p.InMode s.mode ∧ ph.CsIs s.cs ∧ ∀ rx, ph = .release (.ok rx) → rx.length = tx.length
  /-- A page write is of a page of the array (R97, R107), and those after it go from the page after it on (R31, R109).
  -/
  pages : ∀ tx ph p c todo, s.activity = .framing tx ph p → p.pages = some (c, todo) →
    c.addr ≤ Config.maxAddr ∧ pageOff c.addr + c.bytes.length ≤ Config.pageSize ∧ ChunksFrom (nextPage c.addr) todo
  /-- The reference device, where attached, keeps its own invariant. -/
  device_ok : ∀ d, s.env.device = some d → d.Ok

/-- What the operation of a list of page writes has sent so far but for its polls (R103, R108): for each page write that
is done its write-enable and its write command, then what went out of the one in progress; at its end no more than those
of the list, and all of them where it returned `Ok`. -/
def SentInOrder (chunks : List Chunk) (s : State) : Prop :=
  match s.activity with
  | .waiting =>
    unpolled s.trace <+: writeFrames chunks ∧ (s.result = some .ok → unpolled s.trace = writeFrames chunks)
  | .driving => False
  | .framing _ ph (.pageEnable c todo) =>
    ∃ done, chunks = done ++ c :: todo ∧
      unpolled s.trace = writeFrames done ++
        (match ph with | .release _ => [wrenFrame] | .assert => [] | .exchange => [])
  | .framing _ ph (.pageData c todo) =>
    ∃ done, chunks = done ++ c :: todo ∧
      unpolled s.trace = writeFrames done ++ wrenFrame ::
        (match ph with | .release _ => [writeFrame c.addr c.bytes] | .assert => [] | .exchange => [])
  | .framing _ _ (.pagePoll c todo) => ∃ done, chunks = done ++ c :: todo ∧ unpolled s.trace = writeFrames (done ++ [c])
  | .framing _ _ .initStatus => False
  | .framing _ _ .hostStatus => False
  | .framing _ _ (.hostRead _ _) => False
  | .framing _ _ (.call _) => False

/-- The exchanges of a write or an erase so far follow one another only as R103 has it, the first one a write-enable,
and so does the one in progress. -/
def ExchangesInOrder (s : State) : Prop :=
  Adjacent exchangeMove (exchangesOf s.trace) = true ∧ (∀ x, (exchangesOf s.trace).head? = some x → x.1 = wrenFrame) ∧
  match s.activity with
  | .waiting => True
  | .driving => False
  | .framing tx .assert _ =>
    (exchangesOf s.trace = [] → tx = wrenFrame) ∧
      ∀ x, (exchangesOf s.trace).getLast? = some x → exchangeMove x (tx, none) = true
  | .framing tx .exchange _ =>
    (exchangesOf s.trace = [] → tx = wrenFrame) ∧
      ∀ x, (exchangesOf s.trace).getLast? = some x → exchangeMove x (tx, none) = true
  | .framing tx (.release (.ok rx)) _ => (exchangesOf s.trace).getLast? = some (tx, some rx)
  | .framing tx (.release (.fail _)) _ => (exchangesOf s.trace).getLast? = some (tx, none)

/-! ### The reference device -/

/-- An environment that is the reference device, idle, with nothing decided beside it (R69). It says nothing of `S.cs`:
where that is Unknown the device takes the next frame as a new one by the model's choice (log 25). -/
def OnIdleDevice (s : State) (d : RefDevice) : Prop :=
  s.env.csAnswers = [] ∧ s.env.xferAnswers = [] ∧ s.env.device = some d ∧ d.busy = 0 ∧ d.wip = false

/-- Every byte of the device's array outside `[lo, hi)` reads the same in both states' devices. -/
def SameBytesOutside (lo hi : Nat) (s t : State) : Prop :=
  ∀ d, s.env.device = some d →
    ∃ d', t.env.device = some d' ∧ d'.fill = d.fill ∧
      ∀ a, (a < lo ∨ hi ≤ a) → d'.byte a = d.byte a

end Sys2Proof.Machine
end

