-- ==== Sys2Proof/Certificates/Slice0/Obligations.lean ====
section
/-! DEFINITION. The statements for the provers. -/

open Sys2Proof Sys2Proof.Machine

/-! ### Encoding -/

/-- Decoding an encoded well-formed instruction gives it back, whatever fills the dummy bytes (30_encoding.md). -/
def Obligations.DecodeEncode : Prop :=
  ∀ (d : Byte) (i : Instr), i.WellFormed → decode (encode d i) = .ok i

/-- The decoder answers only well-formed instructions. That it refuses a write frame outside one page of the array is
the model's choice (log 8): the block itself decodes no opcodes (R81). -/
def Obligations.DecodedIsWellFormed : Prop :=
  ∀ (r : Request) (i : Instr), decode r = .ok i → i.WellFormed

/-- What the decoder reads from a frame. The frames are those of 30_encoding.md section 1: one opcode byte (R74);
opcode and one dummy byte (R75); opcode, address high byte first, payload (R76, R77). The model's choices are the
rest: a write frame only within its page, an empty frame and every unsent opcode rejected by name (log 8), and every
frame that starts with `0x01` read as the one named command (log 7). -/
def Obligations.FramesDecoded : Prop :=
  ∀ (frame : List Byte) (a : HostAddr) (n : Nat) (c : List Byte),
    (decode (.codec frame) = .ok .cmdWren ↔ frame = wrenFrame) ∧
    (decode (.codec frame) = .ok .cmdWrdi ↔ frame = wrdiFrame) ∧
    (decode (.codec frame) = .ok .cmdRdsr ↔ ∃ d, frame = rdsrFrame d) ∧
    (decode (.codec frame) = .ok (.cmdRead a n) ↔ ∃ p, p.length = n ∧ frame = readFrame a.toNat p) ∧
    (decode (.codec frame) = .ok (.cmdWrite a c) ↔ frame = writeFrame a.toNat c ∧ (Instr.cmdWrite a c).WellFormed) ∧
    (decode (.codec frame) = .ok .cmdWrsr ↔ frame.head? = some 0x01) ∧
    (decode (.codec frame) = .error .emptyFrame ↔ frame = []) ∧
    (decode (.codec frame) = .error .unsentOpcode ↔
      ∃ op, frame.head? = some op ∧ op ∉ ([0x01, 0x02, 0x03, 0x04, 0x05, 0x06] : List Byte)) ∧
    ∀ i, decode (.codec frame) = .ok i → isHostOp i = false

/-- Words written out from the encodings of 30_encoding.md and 95_test_vectors.md (V-C2, P1 to P3). -/
def Obligations.SampleWords : Prop :=
  decode (.codec [0x06]) = .ok .cmdWren ∧
  decode (.codec [0x04]) = .ok .cmdWrdi ∧
  decode (.codec [0x05, 0xA7]) = .ok .cmdRdsr ∧
  decode (.codec [0x03, 0x0F, 0xF8, 1, 2, 3, 4, 5, 6, 7, 8]) = .ok (.cmdRead 0x0FF8 8) ∧
  decode (.codec [0x02, 0x00, 0x1E, 0x68, 0x65]) = .ok (.cmdWrite 30 [0x68, 0x65]) ∧
  decode (.host { op := 0b000 }) = .ok .init ∧
  decode (.host { op := 0b001 }) = .ok .readStatus ∧
  decode (.host { op := 0b010, addr := 0x0020, count := 64 }) = .ok (.read 32 64) ∧
  decode (.host { op := 0b011, addr := 0x001E, data := [0x68] }) = .ok (.writeBytes 30 [0x68]) ∧
  decode (.host { op := 0b100, addr := 0x0028, count := 2 }) = .ok (.eraseSectors 40 2) ∧
  decode (.host { op := 0b101 }) = .ok .eraseAll

/-! ### Requests, refusals and steps -/

/-- R84: a request with a reserved `op` is refused; a refusal carries no next state. -/
def Obligations.ReservedOpRefused : Prop :=
  ∀ (s : State) (r : HostRequest) (rest : List Request),
    s.Ready → s.host.requests = .host r :: rest → (r.op = 0b110 ∨ r.op = 0b111) →
      step s = .refused (.badRequest .reservedOp)

/-- A step takes the host's oldest request and is `exec` of the instruction it decodes to, at the state without that
request (R117; log 9). -/
def Obligations.StepRunsRequest : Prop :=
  ∀ (s : State) (r : Request) (rest : List Request) (i : Instr),
    s.Ready → s.host.requests = r :: rest → decode r = .ok i → i.WellFormed →
      step s = exec i { s with host := { s.host with requests := rest } }

/-- With no request placed the block waits: nothing changes (R131: "the block waits for the next request"; the stutter
is the model's, log 9). -/
def Obligations.StepWaits : Prop :=
  ∀ s : State, s.Ready → s.host.requests = [] → step s = .next s

/-- R159, D1: one interaction a step. A step of an operation in progress adds exactly one event to the trace, and one
that takes a request starts a trace of at most one. -/
def Obligations.OneInteractionPerStep : Prop :=
  ∀ s t : State, s.host.resetIn ≠ some 0 → step s = .next t →
    (s.activity ≠ .waiting → ∃ ev, t.trace = s.trace ++ [ev]) ∧
    (s.activity = .waiting → s.host.requests ≠ [] → t.trace.length ≤ 1) ∧
    (s.activity = .waiting → s.host.requests = [] → t.trace = s.trace)

/-- R117, R129: `init` only in mode Uninitialized (D8), every other host operation only out of it (D9). -/
def Obligations.AdmissionByMode : Prop :=
  ∀ (s : State) (addr : HostAddr) (n : Nat) (data : List Byte), s.activity = .waiting →
    (s.mode ≠ .uninitialized → exec .init s = .refused .alreadyInitialized) ∧
    (s.mode = .uninitialized →
      exec .readStatus s = .refused .notInitialized ∧ exec (.read addr n) s = .refused .notInitialized ∧
      exec (.writeBytes addr data) s = .refused .notInitialized ∧
      exec (.eraseSectors addr n) s = .refused .notInitialized ∧ exec .eraseAll s = .refused .notInitialized)

/-- R113: `erase_sectors` with `amount = 0` is refused, in every mode, whatever the address; a refusal carries no next
state. (In mode Uninitialized the admission refuses it first, R117.) -/
def Obligations.EraseOfZeroPagesRefused : Prop :=
  ∀ (s : State) (addr : HostAddr), s.activity = .waiting →
    exec (.eraseSectors addr 0) s =
      .refused (if s.mode = .uninitialized then .notInitialized else .eraseOfZeroPages)

/-- R98, R80: `CMD_WRSR` is refused in every state. -/
def Obligations.WriteStatusRefused : Prop :=
  ∀ s : State, exec .cmdWrsr s = .refused .writeStatusUnimplemented

/-- While an operation is in progress no other is admitted (R123, D19; the refusal is the model's form of "no move",
log 10). -/
def Obligations.OneOperationAtATime : Prop :=
  ∀ (i : Instr) (s : State), i ≠ .cmdWrsr → s.activity ≠ .waiting → exec i s = .refused .operationRunning

/-! ### Reset -/

/-- R145: the reset values of the block; a reset that lands is the whole step, abandons the operation in progress with
no result and sends nothing. When it lands, and that it keeps the trace, the requests, the buffer, the environment and
the result of an operation that had finished, are the model's choices (log 4). -/
def Obligations.ResetOfTheBlock : Prop :=
  (State.reset.mode = .uninitialized ∧ State.reset.cs = .unknown ∧ State.reset.activity = .waiting) ∧
  (∀ s : State, s.host.resetIn = some 0 →
    step s = .next { s with mode := .uninitialized, cs := .unknown, activity := .waiting,
                            result := if s.activity = .waiting then s.result else none,
                            host := { s.host with resetIn := none } }) ∧
  (∀ (s t : State) (k : Nat), s.host.resetIn = some (k + 1) → step s = .next t → t.host.resetIn = some k)

/-- R146: a reset leaves a busy device busy, and the `init` that follows fails with `UnexpectedStatus`, the mode still
Uninitialized: on the reference device with WIP or WEL set, whatever the block was doing. -/
def Obligations.InitAfterResetOfBusyDevice : Prop :=
  ∀ (s : State) (d : RefDevice), s.host.resetIn = some 0 → s.env.csAnswers = [] → s.env.xferAnswers = [] →
    s.env.device = some d → (d.wip = true ∨ d.wel = true) →
      ∃ t u v, step s = .next t ∧ t.env.device = some d ∧ exec .init t = .next u ∧ runFor 3 u = .next v ∧
        v.result = some (.error .unexpectedStatus) ∧ v.mode = .uninitialized

/-- The invariant holds at reset. -/
def Obligations.ResetInv : Prop := State.reset.Inv

/-- Every step keeps the invariant: the mode of every point of every operation (R99), chip-select low only inside a
command (R90), the frame in progress the one its operation sends (R93 to R97), a page write within a page of the array
and the cursor page-aligned and at most 4096 (R31, R107, R111), the reference device's array in canonical form. -/
def Obligations.StepKeepsInv : Prop :=
  ∀ s t : State, s.Inv → step s = .next t → t.Inv

/-! ### The status byte and the results -/

/-- R36: every received status byte is accepted, with bits 6:4 decoded as 0; the other bits are kept (R78). -/
def Obligations.StatusDecode : Prop :=
  ∀ b : Byte, decodeStatus b = b &&& 0x8F ∧ (decodeStatus b).extractLsb' 4 3 = 0 ∧
    statusWip (decodeStatus b) = b.getLsbD 0 ∧ statusWel (decodeStatus b) = b.getLsbD 1 ∧
    statusBp (decodeStatus b) = b.extractLsb' 2 2 ∧ statusSrwd (decodeStatus b) = b.getLsbD 7

/-- R124: the result codes. -/
def Obligations.ResultCodes : Prop :=
  ∀ (status : Byte) (b : List Byte) (e : EnvError),
    resultCode .ok = 0 ∧ resultCode (.okStatus status) = 0 ∧ resultCode (.okData b) = 0 ∧
    resultCode (.error (.transport e)) = 1 ∧ resultCode (.error (.gpio e)) = 2 ∧
    resultCode (.error .addressOutOfBounds) = 3 ∧ resultCode (.error .unexpectedStatus) = 4

/-- R124 by operation: `UnexpectedStatus` ends `init` alone, `AddressOutOfBounds` `write_bytes` and `erase_sectors`
alone (R115, R119, R127). An operation that has not ended is still in progress after each of its steps. -/
def Obligations.ErrorsByOperation : Prop :=
  ∀ (i : Instr) (s t : State), s.Inv → StepOf i s t →
    (t.result = some (.error .unexpectedStatus) → i = .init) ∧
    (t.result = some (.error .addressOutOfBounds) →
      (∃ addr data, i = .writeBytes addr data) ∨ ∃ addr amount, i = .eraseSectors addr amount) ∧
    (t.result = none → InProgress i t)

/-- R131: an error of a host operation leaves the block waiting, in mode Idle, but `init` leaves it Uninitialized. -/
def Obligations.AbortMode : Prop :=
  ∀ (i : Instr) (s t : State) (e : Error), s.Inv → isHostOp i = true → StepOf i s t → t.result = some (.error e) →
    t.activity = .waiting ∧ (i ≠ .init → t.mode = .idle) ∧ (i = .init → t.mode = .uninitialized)

/-! ### The codec -/

/-- R20, R47: an answered exchange has as many bytes as its frame, whatever the environment. -/
def Obligations.AnswerLength : Prop :=
  ∀ (e : Env) (tx rx : List Byte), (e.drawXfer tx).1 = .ok rx → rx.length = tx.length

/-- R88: the three interactions of `Command(tx)`, by their answers (V-C3): the event, `S.cs`, and where the block is
after it; an error ends the operation with the abort (R131). What a failed exchange or release leaves in an attached
device is the model's choice (log 24). -/
def Obligations.CommandMatrix : Prop :=
  ∀ (s : State) (tx rx : List Byte) (x : XferAnswer) (v w : EnvError) (p : Purpose) (m : Mode),
    s.host.resetIn = none → m = (if p.keepsMode then s.mode else .idle) →
    (s.activity = .framing tx .assert p →
      (s.env.drawCs.1 = .ok →
        step s = .next { s with cs := .low, trace := s.trace ++ [.csLow], env := s.env.drawCs.2,
                                activity := .framing tx .exchange p }) ∧
      (s.env.drawCs.1 = .fail v →
        step s = .next { s with mode := m, cs := .unknown, trace := s.trace ++ [.csLowFail v], env := s.env.drawCs.2,
                                activity := .waiting, result := some (.error (.gpio v)) })) ∧
    (s.activity = .framing tx .exchange p →
      ((s.env.drawXfer tx).1 = .ok rx →
        step s = .next { s with trace := s.trace ++ [.xfer tx rx], env := (s.env.drawXfer tx).2,
                                activity := .framing tx (.release (.ok rx)) p }) ∧
      ((s.env.drawXfer tx).1 = .fail v →
        step s = .next { s with trace := s.trace ++ [.xferFail tx v],
                                env := (s.env.drawXfer tx).2.lose p.atRisk.1 p.atRisk.2,
                                activity := .framing tx (.release (.fail v)) p })) ∧
    (s.activity = .framing tx (.release x) p →
      (x = .ok rx → s.env.drawCs.1 = .ok →
        step s = .next (returned p rx { s with cs := .high, trace := s.trace ++ [.csHigh], env := s.env.drawCs.2 })) ∧
      (x = .ok rx → s.env.drawCs.1 = .fail w →
        step s = .next { s with mode := m, cs := .unknown, trace := s.trace ++ [.csHighFail w],
                                env := s.env.drawCs.2.lose p.atRisk.1 p.atRisk.2,
                                activity := .waiting, result := some (.error (.gpio w)) }) ∧
      (x = .fail v → s.env.drawCs.1 = .ok →
        step s = .next { s with mode := m, cs := .high, trace := s.trace ++ [.csHigh], env := s.env.drawCs.2,
                                activity := .waiting, result := some (.error (.transport v)) }) ∧
      (x = .fail v → s.env.drawCs.1 = .fail w →
        step s = .next { s with mode := m, cs := .unknown, trace := s.trace ++ [.csHighFail w],
                                env := (s.env.drawCs.2.lose p.atRisk.1 p.atRisk.2).drawChoice.2,
                                activity := .waiting,
                                result := some (.error
                                  (if (s.env.drawCs.2.lose p.atRisk.1 p.atRisk.2).drawChoice.1 then .transport v
                                   else .gpio w)) }))

/-- R90: when `Command` returns or raises, `S.cs` is `High` or `Unknown`, never `Low`, and `Unknown` only where its last
event is a `CsSet` that failed. The step that ends a command is the one of its release, or of an assert that failed. -/
def Obligations.CommandReleases : Prop :=
  ∀ (s t : State) (tx : List Byte) (ph : Phase) (p : Purpose),
    s.activity = .framing tx ph p → s.host.resetIn ≠ some 0 → step s = .next t →
    ((∃ x, ph = .release x) ∨ (ph = .assert ∧ ∃ v, s.env.drawCs.1 = .fail v)) →
      t.cs = .high ∨
      (t.cs = .unknown ∧ ∃ v, t.trace = s.trace ++ [.csLowFail v] ∨ t.trace = s.trace ++ [.csHighFail v])

/-- R94, R95: `CMD_WREN` and `CMD_WRDI` complete in three interactions: one frame of one byte, nothing else of the block
changed but the result (log 6). -/
def Obligations.WrenAndWrdiComplete : Prop :=
  ∀ (s : State) (rx : List Byte), s.Ready →
    (FrameOk s.begin wrenFrame rx →
      exec .cmdWren s = .next (asserted s.begin wrenFrame (.call .writeEnable)) ∧
      runFor 2 (asserted s.begin wrenFrame (.call .writeEnable)) =
        .next ((afterFrame s.begin wrenFrame rx).finish .ok)) ∧
    (FrameOk s.begin wrdiFrame rx →
      exec .cmdWrdi s = .next (asserted s.begin wrdiFrame (.call .writeDisable)) ∧
      runFor 2 (asserted s.begin wrdiFrame (.call .writeDisable)) =
        .next ((afterFrame s.begin wrdiFrame rx).finish .ok))

/-- R93: `CMD_RDSR` completes with the second received byte decoded. -/
def Obligations.RdsrCompletes : Prop :=
  ∀ (s b : State) (rx : List Byte), s.Ready → b = s.begin.afterDummies 1 → FrameOk b (nextRdsr s.begin) rx →
    exec .cmdRdsr s = .next (asserted b (nextRdsr s.begin) (.call .readStatus)) ∧
    runFor 2 (asserted b (nextRdsr s.begin) (.call .readStatus)) =
      .next ((afterFrame b (nextRdsr s.begin) rx).finish (.okStatus (rx.getD 1 0 &&& 0x8F)))

/-- R96: `CMD_READ A, n` completes with the `n` bytes after the first three, whatever the address. -/
def Obligations.ReadCommandCompletes : Prop :=
  ∀ (s b : State) (addr : HostAddr) (n : Nat) (rx tx : List Byte), s.Ready → b = s.begin.afterDummies n →
    tx = nextRead s.begin addr.toNat n → FrameOk b tx rx →
      (rx.drop 3).length = n ∧
      exec (.cmdRead addr n) s = .next (asserted b tx (.call (.readData addr n))) ∧
      runFor 2 (asserted b tx (.call (.readData addr n))) = .next ((afterFrame b tx rx).finish (.okData (rx.drop 3)))

/-- R97: `CMD_WRITE A, c` completes: one frame, opcode, address high byte first, the chunk's bytes. -/
def Obligations.WriteCommandCompletes : Prop :=
  ∀ (s : State) (addr : HostAddr) (chunk rx tx : List Byte), s.Ready →
    tx = 0x02 :: addrHigh addr.toNat :: addrLow addr.toNat :: chunk → FrameOk s.begin tx rx →
      exec (.cmdWrite addr chunk) s = .next (asserted s.begin tx (.call (.writeData addr chunk))) ∧
      runFor 2 (asserted s.begin tx (.call (.writeData addr chunk))) = .next ((afterFrame s.begin tx rx).finish .ok)

/-! ### init -/

/-- R100: `init` in mode Uninitialized succeeds when chip-select drives High and the status has WIP = 0 and WEL = 0,
whatever BP, SRWD and the reserved bits are: mode Idle, trace `CS_HIGH` and the read-status command. -/
def Obligations.InitSucceeds : Prop :=
  ∀ (s h : State) (rx : List Byte), s.Ready → s.mode = .uninitialized → s.env.drawCs.1 = .ok →
    h = afterDriveHigh s.begin → FrameOk (h.afterDummies 1) (nextRdsr h) rx →
    (rx.getD 1 0).getLsbD 0 = false → (rx.getD 1 0).getLsbD 1 = false →
      ∃ t, exec .init s = .next t ∧ t.trace = [.csHigh] ∧
        runFor 3 t = .next { (afterFrame (h.afterDummies 1) (nextRdsr h) rx).finish .ok with mode := .idle }

/-- R100, R128: with WIP = 1 or WEL = 1 `init` fails with `UnexpectedStatus`, the mode still Uninitialized. -/
def Obligations.InitOnDirtyStatus : Prop :=
  ∀ (s h : State) (rx : List Byte), s.Ready → s.mode = .uninitialized → s.env.drawCs.1 = .ok →
    h = afterDriveHigh s.begin → FrameOk (h.afterDummies 1) (nextRdsr h) rx →
    ((rx.getD 1 0).getLsbD 0 = true ∨ (rx.getD 1 0).getLsbD 1 = true) →
      ∃ t, exec .init s = .next t ∧ t.trace = [.csHigh] ∧
        runFor 3 t = .next ((afterFrame (h.afterDummies 1) (nextRdsr h) rx).finish (.error .unexpectedStatus))

/-- R100, R126: when the first `CsSet(High)` fails, `init` fails with `GpioError` and sends nothing. -/
def Obligations.InitDriveFails : Prop :=
  ∀ (s : State) (v : EnvError), s.Ready → s.mode = .uninitialized → s.env.drawCs.1 = .fail v →
    exec .init s = .next
      { s with cs := .unknown, result := some (.error (.gpio v)), trace := [.csHighFail v],
               env := s.env.drawCs.2 }

/-! ### read_status and read -/

/-- R118: `read_status` completes with the decoded status, the mode unchanged. -/
def Obligations.ReadStatusCompletes : Prop :=
  ∀ (s b : State) (rx : List Byte), s.Ready → s.mode ≠ .uninitialized → b = s.begin.afterDummies 1 →
    FrameOk b (nextRdsr s.begin) rx →
      exec .readStatus s = .next (asserted b (nextRdsr s.begin) .hostStatus) ∧
      runFor 2 (asserted b (nextRdsr s.begin) .hostStatus) =
        .next ((afterFrame b (nextRdsr s.begin) rx).finish (.okStatus (rx.getD 1 0 &&& 0x8F)))

/-- R119, R116: `read` completes with one frame whatever the address and the length, the host's buffer holding the `n`
bytes after the first three. -/
def Obligations.ReadCompletes : Prop :=
  ∀ (s b : State) (addr : HostAddr) (n : Nat) (rx tx : List Byte), s.Ready → s.mode ≠ .uninitialized →
    b = (lendBuffer n s.begin).afterDummies n → tx = nextRead (lendBuffer n s.begin) addr.toNat n → FrameOk b tx rx →
      (rx.drop 3).length = n ∧
      exec (.read addr n) s = .next (asserted b tx (.hostRead addr n)) ∧
      runFor 2 (asserted b tx (.hostRead addr n)) =
        .next { (afterFrame b tx rx).finish (.okData (rx.drop 3)) with buffer := rx.drop 3 }

/-- R119, R131: a `read` that fails leaves a buffer of the host's length, whose bytes are free values (log 11), the
mode Idle, and reports a bus error: the buffer has those bytes from the step that takes the `read` on, and a step that
ends it with an error leaves them there. -/
def Obligations.ReadFails : Prop :=
  ∀ (s t : State) (addr : HostAddr) (n : Nat),
    (exec (.read addr n) s = .next t → t.buffer = (List.range n).map (Config.bufferByte s.env.drawn)) ∧
    (s.Inv → InProgress (.read addr n) s → s.host.resetIn ≠ some 0 → step s = .next t → t.result = none →
      t.buffer = s.buffer) ∧
    (s.Inv → StepOf (.read addr n) s t → ∀ e, t.result = some (.error e) →
      t.mode = .idle ∧ ((∃ v, e = .transport v) ∨ ∃ v, e = .gpio v) ∧
        (InProgress (.read addr n) s → t.buffer = s.buffer))

/-! ### The splitter -/

/-- R104: the first chunk's length. -/
def Obligations.FirstChunkLength : Prop :=
  ∀ a : Nat, firstChunkLength a = 32 - a % 32 ∧ 1 ≤ firstChunkLength a ∧ firstChunkLength a ≤ 32 ∧
    (a % 32 = 0 → firstChunkLength a = 32) ∧ (a % 32 = 31 → firstChunkLength a = 1)

/-- R110: the chunks of `SplitWrite(addr, data)` in closed form, with `k0 = min(fcl, n)` and `J = ceil((n - k0) /
32)`, and no others; so data byte `i` goes to address `addr + i`, and no address is written twice. -/
def Obligations.SplitWriteChunks : Prop :=
  ∀ (addr : Nat) (data : List Byte) (k0 J : Nat),
    k0 = min (firstChunkLength addr) data.length → J = (data.length - k0 + 31) / 32 →
      (splitWrite addr data)[0]? = some { addr := addr, bytes := data.take k0 } ∧
      (∀ j, 1 ≤ j → j ≤ J →
        (splitWrite addr data)[j]? =
          some { addr := pageBase addr + 32 * j,
                 bytes := (data.drop (k0 + 32 * (j - 1))).take (min data.length (k0 + 32 * j) - (k0 + 32 * (j - 1))) }) ∧
      (splitWrite addr data).length = 1 + J ∧
      chunkBytes (splitWrite addr data) = (data.zipIdx.map fun p => (addr + p.2, p.1)) ∧
      ((chunkBytes (splitWrite addr data)).map Prod.fst).Nodup

/-- R111: every chunk lies within one page, and every chunk after the first starts at offset 0; of a write, and of an
erase too. -/
def Obligations.ChunksWithinPage : Prop :=
  ∀ (addr amount j : Nat) (data : List Byte) (c : Chunk),
    ((splitWrite addr data)[j]? = some c ∨ (splitErase addr amount)[j]? = some c) →
      pageOff c.addr + c.bytes.length ≤ 32 ∧ (1 ≤ j → pageOff c.addr = 0)

/-- R114: an erase makes exactly the page writes of a write of zeros, and as a host operation does exactly what that
write does, under the same answers. -/
def Obligations.EraseIsWriteOfZeros : Prop :=
  (∀ addr amount : Nat, 1 ≤ amount →
    splitErase addr amount = splitWrite addr (zeros (firstChunkLength addr + 32 * (amount - 1)))) ∧
  (∀ (addr : HostAddr) (amount : Nat) (s : State), 1 ≤ amount →
    exec (.eraseSectors addr amount) s =
      exec (.writeBytes addr (zeros (firstChunkLength addr.toNat + 32 * (amount - 1)))) s)

/-- R115, R122: `erase_all` is 128 page writes of 32 zeros from address 0, and does what `erase_sectors 0, 128` does
(R87). -/
def Obligations.EraseAllPages : Prop :=
  splitErase 0 Config.pageCount = (List.range 128).map (fun p => { addr := 32 * p, bytes := List.replicate 32 0 }) ∧
  ∀ s : State, exec .eraseAll s = exec (.eraseSectors 0 128) s

/-! ### Writing and erasing -/

/-- R107, R51: a write or an erase that starts above 4095 fails with `AddressOutOfBounds` before any bus activity:
nothing but the mode, the result and the empty trace is written, `S.cs` kept (R127). -/
def Obligations.OutOfBoundsBeforeTheBus : Prop :=
  ∀ (s : State) (addr : HostAddr) (data : List Byte) (amount : Nat), s.activity = .waiting →
    s.mode ≠ .uninitialized → 4095 < addr.toNat → 1 ≤ amount →
      exec (.writeBytes addr data) s =
        .next { s with mode := .idle, result := some (.error .addressOutOfBounds), trace := [] } ∧
      exec (.eraseSectors addr amount) s =
        .next { s with mode := .idle, result := some (.error .addressOutOfBounds), trace := [] }

/-- R101: a page write, from its write-enable to its first poll, with its two commands answered, in any environment and
with any page writes to follow: the write command goes out in mode WriteEnabled, the poll in mode Busy. -/
def Obligations.PageWriteRuns : Prop :=
  ∀ (s s1 s2 : State) (c : Chunk) (todo : List Chunk) (rx1 rx2 : List Byte),
    s.activity = .framing wrenFrame .assert (.pageEnable c todo) → s.host.resetIn = none →
    FrameOk s wrenFrame rx1 → s1 = { afterFrame s wrenFrame rx1 with mode := .writeEnabled } →
    FrameOk s1 (writeFrame c.addr c.bytes) rx2 →
    s2 = { afterFrame s1 (writeFrame c.addr c.bytes) rx2 with mode := .busy } →
      runFor 3 s = .next { s1 with activity := .framing (writeFrame c.addr c.bytes) .assert (.pageData c todo) } ∧
      runFor 6 s = .next { s2.afterDummies 1 with activity := .framing (nextRdsr s2) .assert (.pagePoll c todo) }

/-- R101, R109, R120: a write that fits the page of its address, with every interaction answered and the first poll
reading WIP = 0, in any environment: write-enable, write command, one poll, nine interactions; mode Idle, the write
frame sent in mode WriteEnabled and the poll in mode Busy. -/
def Obligations.WriteOfOnePage : Prop :=
  ∀ (s s1 s2 s3 : State) (addr : HostAddr) (data rx1 rx2 rx3 : List Byte), s.Ready → s.mode ≠ .uninitialized →
    addr.toNat ≤ 4095 → data.length ≤ firstChunkLength addr.toNat →
    FrameOk s.begin wrenFrame rx1 → s1 = { afterFrame s.begin wrenFrame rx1 with mode := .writeEnabled } →
    FrameOk s1 (writeFrame addr.toNat data) rx2 →
    s2 = { afterFrame s1 (writeFrame addr.toNat data) rx2 with mode := .busy } →
    FrameOk (s2.afterDummies 1) (nextRdsr s2) rx3 → s3 = afterFrame (s2.afterDummies 1) (nextRdsr s2) rx3 →
    (rx3.getD 1 0).getLsbD 0 = false →
      exec (.writeBytes addr data) s =
        .next (asserted s.begin wrenFrame (.pageEnable { addr := addr.toNat, bytes := data } [])) ∧
      runFor 8 (asserted s.begin wrenFrame (.pageEnable { addr := addr.toNat, bytes := data } [])) =
        .next { s3 with mode := .idle, result := some .ok }

/-- R120, R64: on the reference device, idle (`S.cs` any: log 25), a write inside the array completes in mode Idle
with `Ok`: byte `i` of the data at `addr + i`, every other byte as before. -/
def Obligations.WriteBytesOnDevice : Prop :=
  ∀ (s : State) (d : RefDevice) (addr : HostAddr) (data : List Byte), s.Ready → s.mode ≠ .uninitialized →
    OnIdleDevice s d → Memory.wf d.fill d.arr → addr.toNat ≤ 4095 → addr.toNat + data.length ≤ 4096 →
      ∃ n t u d', exec (.writeBytes addr data) s = .next t ∧ runFor n t = .next u ∧
        u.result = some .ok ∧ u.mode = .idle ∧ u.cs = .high ∧ u.activity = .waiting ∧ OnIdleDevice u d' ∧
          Memory.wf d'.fill d'.arr ∧
        (∀ i, i < data.length → d'.byte (addr.toNat + i) = data.getD i 0) ∧
        (∀ a, (a < addr.toNat ∨ addr.toNat + data.length ≤ a) → d'.byte a = d.byte a)

/-- R108: on the reference device, idle (`S.cs` any: log 25), a write that runs past 4095 writes the bytes up to 4095,
undoes none of them, and fails with `AddressOutOfBounds`. -/
def Obligations.WritePastTheEnd : Prop :=
  ∀ (s : State) (d : RefDevice) (addr : HostAddr) (data : List Byte), s.Ready → s.mode ≠ .uninitialized →
    OnIdleDevice s d → Memory.wf d.fill d.arr → addr.toNat ≤ 4095 → 4096 < addr.toNat + data.length →
      ∃ n t u d', exec (.writeBytes addr data) s = .next t ∧ runFor n t = .next u ∧
        u.result = some (.error .addressOutOfBounds) ∧
        u.mode = .idle ∧ u.cs = .high ∧ u.activity = .waiting ∧ OnIdleDevice u d' ∧
        (∀ i, addr.toNat + i ≤ 4095 → d'.byte (addr.toNat + i) = data.getD i 0) ∧
        (∀ a, a < addr.toNat → d'.byte a = d.byte a)

/-- R112, R121: on the reference device, idle (`S.cs` any: log 25), an erase inside the array zeroes from `addr` to
the end of its `amount`-th page and nothing else, the bytes of the first page before `addr` kept (C2). -/
def Obligations.EraseSectorsOnDevice : Prop :=
  ∀ (s : State) (d : RefDevice) (addr : HostAddr) (amount : Nat), s.Ready → s.mode ≠ .uninitialized →
    OnIdleDevice s d → Memory.wf d.fill d.arr → 1 ≤ amount → pageBase addr.toNat + 32 * amount ≤ 4096 →
      ∃ n t u d', exec (.eraseSectors addr amount) s = .next t ∧ runFor n t = .next u ∧
        u.result = some .ok ∧ u.mode = .idle ∧ u.cs = .high ∧ u.activity = .waiting ∧ OnIdleDevice u d' ∧
        (∀ a, addr.toNat ≤ a → a < pageBase addr.toNat + 32 * amount → d'.byte a = 0) ∧
        (∀ a, (a < addr.toNat ∨ pageBase addr.toNat + 32 * amount ≤ a) → d'.byte a = d.byte a)

/-- R122: on the reference device, idle (`S.cs` any: log 25), `erase_all` completes and every byte 0 to 4095 reads 0. -/
def Obligations.EraseAllOnDevice : Prop :=
  ∀ (s : State) (d : RefDevice), s.Ready → s.mode ≠ .uninitialized → OnIdleDevice s d → Memory.wf d.fill d.arr →
    ∃ n t u d', exec .eraseAll s = .next t ∧ runFor n t = .next u ∧
      u.result = some .ok ∧ u.mode = .idle ∧ u.cs = .high ∧ u.activity = .waiting ∧ OnIdleDevice u d' ∧
        ∀ a, a ≤ 4095 → d'.byte a = 0

/-- The round trip (95_test_vectors.md E1, R64): on the reference device, idle (`S.cs` any: log 25), `read` of what
`write_bytes` wrote inside the array returns it, in the host's buffer too. -/
def Obligations.WriteReadRoundTrip : Prop :=
  ∀ (s : State) (d : RefDevice) (addr : HostAddr) (data : List Byte), s.Ready → s.mode ≠ .uninitialized →
    OnIdleDevice s d → Memory.wf d.fill d.arr → addr.toNat ≤ 4095 → addr.toNat + data.length ≤ 4096 →
      ∃ n t u v w, exec (.writeBytes addr data) s = .next t ∧ runFor n t = .next u ∧ u.result = some .ok ∧
        exec (.read addr data.length) u = .next v ∧ runFor 2 v = .next w ∧
        w.result = some (.okData data) ∧ w.buffer = data

/-! ### The completion poll -/

/-- R102: a poll that reads WIP = 1 is followed by the next poll directly, in mode Busy, with no result; nothing but the
bus is touched. -/
def Obligations.BusyPollGoesOn : Prop :=
  ∀ (s : State) (c : Chunk) (todo : List Chunk) (tx rx : List Byte),
    s.activity = .framing tx .assert (.pagePoll c todo) →
    s.host.resetIn = none → FrameOk s tx rx → (rx.getD 1 0).getLsbD 0 = true →
      runFor 3 s = .next { (afterFrame s tx rx).afterDummies 1 with
                            activity := .framing (nextRdsr (afterFrame s tx rx)) .assert (.pagePoll c todo) }

/-- R102, R109, C1: a poll that reads WIP = 0 ends the page write whatever WEL, BP and SRWD are, in mode Idle. With no
page write left the operation returns `Ok`; else the next one's write-enable follows, or `AddressOutOfBounds` where it
starts above 4095 (R107). -/
def Obligations.PollEndsPageWrite : Prop :=
  ∀ (s : State) (c : Chunk) (todo : List Chunk) (tx rx : List Byte),
    s.activity = .framing tx .assert (.pagePoll c todo) →
    s.host.resetIn = none → FrameOk s tx rx → (rx.getD 1 0).getLsbD 0 = false →
      (todo = [] → runFor 3 s = .next { afterFrame s tx rx with
                                          mode := .idle, activity := .waiting, result := some .ok }) ∧
      (∀ c' rest, todo = c' :: rest →
        (c'.addr ≤ 4095 → runFor 3 s = .next { afterFrame s tx rx with
                            mode := .idle, activity := .framing wrenFrame .assert (.pageEnable c' rest) }) ∧
        (4095 < c'.addr → runFor 3 s = .next { afterFrame s tx rx with
                            mode := .idle, activity := .waiting, result := some (.error .addressOutOfBounds) }))

/-- R136, R15: a device whose WIP never clears hangs the operation: after any number of polls it is still in its poll,
in mode Busy, without a result. The device is the reference device with WIP stuck (no answer due and WIP = 1), `S.cs`
any (log 25). -/
def Obligations.StuckWipHangs : Prop :=
  ∀ (s : State) (dummy : Byte) (c : Chunk) (todo : List Chunk) (d : RefDevice) (n : Nat),
    s.activity = .framing (rdsrFrame dummy) .assert (.pagePoll c todo) → s.mode = .busy →
    s.result = none → s.host.resetIn = none → s.env.csAnswers = [] → s.env.xferAnswers = [] →
    s.env.device = some d → d.wip = true → d.busy = 0 →
      ∃ t tx, runFor (3 * n) s = .next t ∧ t.activity = .framing tx .assert (.pagePoll c todo) ∧ t.mode = .busy ∧
        t.result = none ∧ t.trace.length = s.trace.length + 3 * n

/-- R71: on the reference device, idle (`S.cs` any: log 25), a page write of at least one byte makes `REF_BUSY_POLLS +
1` read-status commands. -/
def Obligations.PollsPerPageWrite : Prop :=
  ∀ (s : State) (d : RefDevice) (addr : HostAddr) (data : List Byte), s.Ready → s.mode ≠ .uninitialized →
    OnIdleDevice s d → addr.toNat ≤ 4095 → data ≠ [] → data.length ≤ firstChunkLength addr.toNat →
      ∃ n t u, exec (.writeBytes addr data) s = .next t ∧ runFor n t = .next u ∧ u.result = some .ok ∧
        ((framesOf u.trace).filter isRdsr).length = d.busyPolls + 1

/-! ### Traces -/

/-- R103, R108: in any environment, and with a reset at any step, the frames of a write or an erase but for its polls
are `CMD_WREN`, `CMD_WRITE` for each of its chunks in order, as far as it has come; all of them where it returned
`Ok`. It holds after the step that takes the operation, and every step after keeps it. -/
def Obligations.WriteFramesInOrder : Prop :=
  ∀ (i : Instr) (s t : State) (chunks : List Chunk),
    (pageWritesOf i = some chunks → exec i s = .next t → SentInOrder chunks t) ∧
    (s.Inv → s.activity ≠ .waiting → SentInOrder chunks s → step s = .next t → SentInOrder chunks t)

/-- R103: in any environment, and with a reset at any step, the exchanges of a write or an erase follow one another
only so: the write command just after its write-enable, then polls, each after one that read WIP = 1, the next
write-enable only after one that read WIP = 0, nothing after a failure; the first is a write-enable. It holds after
the step that takes the operation, and every step after keeps it. -/
def Obligations.WriteExchangeOrder : Prop :=
  ∀ (i : Instr) (s t : State) (chunks : List Chunk),
    (pageWritesOf i = some chunks → exec i s = .next t → ExchangesInOrder t) ∧
    (s.Inv → InProgress i s → pageWritesOf i = some chunks → ExchangesInOrder s → step s = .next t → ExchangesInOrder t)

/-- R99: with no reset landing, a step changes `S.mode` only as the table has it, and by what the table says. -/
def Obligations.ModesFollowTheTable : Prop :=
  ∀ s t : State, s.Inv → s.host.resetIn ≠ some 0 → step s = .next t → ModeMoves s t

/-- R81, R80: no step ever sends an opcode other than `0x02` to `0x06`. -/
def Obligations.StepSendsOnlyItsOpcodes : Prop :=
  ∀ s t : State, s.Inv → SendsOnly [0x02, 0x03, 0x04, 0x05, 0x06] s.trace → step s = .next t →
    SendsOnly [0x02, 0x03, 0x04, 0x05, 0x06] t.trace

/-- R95, R117, D23: no host operation sends the write-disable opcode: not in the step that takes it, and not in one
that goes on with it. -/
def Obligations.HostOpsNeverWriteDisable : Prop :=
  ∀ (i : Instr) (s t : State), s.Inv → isHostOp i = true → StepOf i s t →
    (s.activity ≠ .waiting → SendsOnly [0x02, 0x03, 0x05, 0x06] s.trace) → SendsOnly [0x02, 0x03, 0x05, 0x06] t.trace

/-! ### Frames: what a step of an instruction leaves unchanged -/

/-- A step of a wire command (called on its own: log 6) changes `S.cs`, the trace, the result and the environment, and
nothing else; only one of `CMD_WRITE` changes bytes of the reference device's array. Every form, every outcome: that a
failed frame of the others leaves the array as it was is the model's choice (log 24), and so is what the device makes
of a frame while `S.cs` was Unknown or after a failure (log 25). -/
def Obligations.CodecCommandsFrame : Prop :=
  ∀ (i : Instr) (s t : State), s.Inv → isHostOp i = false → StepOf i s t →
    t.mode = s.mode ∧ t.buffer = s.buffer ∧ t.host.requests = s.host.requests ∧
    (s.host.resetIn = none → t.host = s.host) ∧
    ((∀ addr chunk, i ≠ .cmdWrite addr chunk) → SameBytesOutside 0 0 s t)

/-- A step of `CMD_WRITE A, c` (called on its own: log 6) changes no byte outside `[A, A + len(c))`, for every chunk the
block can send. Which bytes one that fails may change is the model's choice (log 24), and so is what the device makes of
a frame while `S.cs` was Unknown or after a failure (log 25). -/
def Obligations.WriteCommandFrame : Prop :=
  ∀ (s t : State) (addr : HostAddr) (chunk : List Byte), s.Inv → (Instr.cmdWrite addr chunk).WellFormed →
    StepOf (.cmdWrite addr chunk) s t → SameBytesOutside addr.toNat (addr.toNat + chunk.length) s t

/-- R62: a step of `init`, `read_status` or `read` changes no byte of the array and no request of the host;
`read_status` and `read` leave mode Idle Idle; only `read` writes the host's buffer. That a frame of theirs that fails
leaves an attached device's array as it was is the model's choice (log 24), and so is what the device makes of a frame
while `S.cs` was Unknown or after a failure (log 25). -/
def Obligations.ReadsFrame : Prop :=
  ∀ (i : Instr) (s t : State), s.Inv → (i = .init ∨ i = .readStatus ∨ ∃ addr n, i = .read addr n) → StepOf i s t →
    t.host.requests = s.host.requests ∧ SameBytesOutside 0 0 s t ∧
    (i ≠ .init → s.mode = .idle ∧ t.mode = .idle) ∧
    ((∀ addr n, i ≠ .read addr n) → t.buffer = s.buffer)

/-- A step of a write changes no byte outside `[addr, addr + n)` and one of an erase none outside `[addr, base(addr) +
32*amount)` (R112), whatever errors cut it off; none touches the host's buffer or its requests. Which bytes of an
attached device a frame that fails may change (R61) is the model's choice (log 24), and so is what the device makes of a
frame while `S.cs` was Unknown or after a failure (log 25). -/
def Obligations.WritesFrame : Prop :=
  ∀ (s t : State) (addr : HostAddr) (data : List Byte) (amount : Nat), s.Inv →
    (StepOf (.writeBytes addr data) s t →
      t.buffer = s.buffer ∧ t.host.requests = s.host.requests ∧
      SameBytesOutside addr.toNat (addr.toNat + data.length) s t) ∧
    (StepOf (.eraseSectors addr amount) s t →
      t.buffer = s.buffer ∧ t.host.requests = s.host.requests ∧
      SameBytesOutside addr.toNat (pageBase addr.toNat + 32 * amount) s t) ∧
    (StepOf .eraseAll s t →
      t.buffer = s.buffer ∧ t.host.requests = s.host.requests ∧ SameBytesOutside 0 4096 s t)

/-- A step inside a page write changes no byte but those of its chunk, and those only at an exchange or a failed
release. R61, R45: where the exchange of its write command fails, an attached device's bytes there are free values
afterwards (log 24), and so are the polls its WIP still owes. What the device makes of a frame while `S.cs` was Unknown
or after a failure is the model's choice (log 25). -/
def Obligations.PageWriteStepFrame : Prop :=
  ∀ (s t : State) (tx : List Byte) (ph : Phase) (p : Purpose) (c : Chunk) (todo : List Chunk), s.Inv →
    s.activity = .framing tx ph p → p.pages = some (c, todo) → s.host.resetIn ≠ some 0 → step s = .next t →
      t.buffer = s.buffer ∧ t.host.requests = s.host.requests ∧
      SameBytesOutside c.addr (c.addr + c.bytes.length) s t ∧
      (ph = .assert → t.env.device = s.env.device) ∧
      (∀ d v, ph = .exchange → p = .pageData c todo → s.env.device = some d → (s.env.drawXfer tx).1 = .fail v →
        ∃ d' k, t.env.device = some d' ∧ d'.wel = Config.lostWel k ∧ d'.busy = Config.lostBusy k ∧
          ∀ i, i < c.bytes.length → d'.byte (c.addr + i) = Config.lostByte k i)
end

