-- ==== Sys2Proof/Laws/State.lean ====
section
/-! SUPPORT. What each update of the state does to each of its fields: true by unfolding the update once, here. -/

namespace Sys2Proof.Machine

variable (s : State)

/-! ### `csSet` -/

@[simp] theorem csSet_mode (level : Level) : (csSet level s).mode = s.mode := rfl
@[simp] theorem csSet_cs (level : Level) : (csSet level s).cs = csAfter level s.env.csAnswer := rfl
@[simp] theorem csSet_activity (level : Level) : (csSet level s).activity = s.activity := rfl
@[simp] theorem csSet_result (level : Level) : (csSet level s).result = s.result := rfl
@[simp] theorem csSet_trace (level : Level) : (csSet level s).trace = s.trace ++ [csEvent level s.env.csAnswer] := rfl
@[simp] theorem csSet_buffer (level : Level) : (csSet level s).buffer = s.buffer := rfl
@[simp] theorem csSet_host (level : Level) : (csSet level s).host = s.host := rfl
@[simp] theorem csSet_env (level : Level) : (csSet level s).env = s.env.drawCs.2 := rfl

/-! ### `exchange` -/

@[simp] theorem exchange_mode (tx : List Byte) : (exchange tx s).mode = s.mode := rfl
@[simp] theorem exchange_cs (tx : List Byte) : (exchange tx s).cs = s.cs := rfl
@[simp] theorem exchange_activity (tx : List Byte) : (exchange tx s).activity = s.activity := rfl
@[simp] theorem exchange_result (tx : List Byte) : (exchange tx s).result = s.result := rfl
@[simp] theorem exchange_trace (tx : List Byte) :
    (exchange tx s).trace = s.trace ++ [xferEvent tx (s.env.xferAnswer tx)] := rfl
@[simp] theorem exchange_buffer (tx : List Byte) : (exchange tx s).buffer = s.buffer := rfl
@[simp] theorem exchange_host (tx : List Byte) : (exchange tx s).host = s.host := rfl
@[simp] theorem exchange_env (tx : List Byte) : (exchange tx s).env = (s.env.drawXfer tx).2 := rfl

/-! ### `lose` -/

@[simp] theorem lose_mode (a n : Nat) : (s.lose a n).mode = s.mode := rfl
@[simp] theorem lose_cs (a n : Nat) : (s.lose a n).cs = s.cs := rfl
@[simp] theorem lose_activity (a n : Nat) : (s.lose a n).activity = s.activity := rfl
@[simp] theorem lose_result (a n : Nat) : (s.lose a n).result = s.result := rfl
@[simp] theorem lose_trace (a n : Nat) : (s.lose a n).trace = s.trace := rfl
@[simp] theorem lose_buffer (a n : Nat) : (s.lose a n).buffer = s.buffer := rfl
@[simp] theorem lose_host (a n : Nat) : (s.lose a n).host = s.host := rfl
@[simp] theorem lose_env (a n : Nat) : (s.lose a n).env = s.env.lose a n := rfl

/-! ### `sendFrame` -/

@[simp] theorem sendFrame_mode (tx : List Byte) (p : Purpose) : (sendFrame tx p s).mode = s.mode := rfl
@[simp] theorem sendFrame_cs (tx : List Byte) (p : Purpose) : (sendFrame tx p s).cs = s.cs := rfl
@[simp] theorem sendFrame_activity (tx : List Byte) (p : Purpose) :
    (sendFrame tx p s).activity = .framing tx .assert p := rfl
@[simp] theorem sendFrame_result (tx : List Byte) (p : Purpose) : (sendFrame tx p s).result = s.result := rfl
@[simp] theorem sendFrame_trace (tx : List Byte) (p : Purpose) : (sendFrame tx p s).trace = s.trace := rfl
@[simp] theorem sendFrame_buffer (tx : List Byte) (p : Purpose) : (sendFrame tx p s).buffer = s.buffer := rfl
@[simp] theorem sendFrame_host (tx : List Byte) (p : Purpose) : (sendFrame tx p s).host = s.host := rfl
@[simp] theorem sendFrame_env (tx : List Byte) (p : Purpose) : (sendFrame tx p s).env = s.env := rfl

/-! ### `sendEnable` -/

@[simp] theorem sendEnable_mode (p : Purpose) : (sendEnable p s).mode = s.mode := rfl
@[simp] theorem sendEnable_cs (p : Purpose) : (sendEnable p s).cs = s.cs := rfl
@[simp] theorem sendEnable_activity (p : Purpose) : (sendEnable p s).activity = .framing wrenFrame .assert p := rfl
@[simp] theorem sendEnable_result (p : Purpose) : (sendEnable p s).result = s.result := rfl
@[simp] theorem sendEnable_trace (p : Purpose) : (sendEnable p s).trace = s.trace := rfl
@[simp] theorem sendEnable_buffer (p : Purpose) : (sendEnable p s).buffer = s.buffer := rfl
@[simp] theorem sendEnable_host (p : Purpose) : (sendEnable p s).host = s.host := rfl
@[simp] theorem sendEnable_env (p : Purpose) : (sendEnable p s).env = s.env := rfl

/-! ### `sendStatus` -/

@[simp] theorem sendStatus_mode (p : Purpose) : (sendStatus p s).mode = s.mode := rfl
@[simp] theorem sendStatus_cs (p : Purpose) : (sendStatus p s).cs = s.cs := rfl
@[simp] theorem sendStatus_activity (p : Purpose) : (sendStatus p s).activity = .framing (nextRdsr s) .assert p := rfl
@[simp] theorem sendStatus_result (p : Purpose) : (sendStatus p s).result = s.result := rfl
@[simp] theorem sendStatus_trace (p : Purpose) : (sendStatus p s).trace = s.trace := rfl
@[simp] theorem sendStatus_buffer (p : Purpose) : (sendStatus p s).buffer = s.buffer := rfl
@[simp] theorem sendStatus_host (p : Purpose) : (sendStatus p s).host = s.host := rfl
@[simp] theorem sendStatus_env (p : Purpose) : (sendStatus p s).env = (s.env.drawDummies 1).2 := rfl

/-! ### `sendRead` -/

@[simp] theorem sendRead_mode (a n : Nat) (p : Purpose) : (sendRead a n p s).mode = s.mode := rfl
@[simp] theorem sendRead_cs (a n : Nat) (p : Purpose) : (sendRead a n p s).cs = s.cs := rfl
@[simp] theorem sendRead_activity (a n : Nat) (p : Purpose) :
    (sendRead a n p s).activity = .framing (nextRead s a n) .assert p := rfl
@[simp] theorem sendRead_result (a n : Nat) (p : Purpose) : (sendRead a n p s).result = s.result := rfl
@[simp] theorem sendRead_trace (a n : Nat) (p : Purpose) : (sendRead a n p s).trace = s.trace := rfl
@[simp] theorem sendRead_buffer (a n : Nat) (p : Purpose) : (sendRead a n p s).buffer = s.buffer := rfl
@[simp] theorem sendRead_host (a n : Nat) (p : Purpose) : (sendRead a n p s).host = s.host := rfl
@[simp] theorem sendRead_env (a n : Nat) (p : Purpose) : (sendRead a n p s).env = (s.env.drawDummies n).2 := rfl

/-! ### `sendWrite` -/

@[simp] theorem sendWrite_mode (a : Nat) (chunk : List Byte) (p : Purpose) :
    (sendWrite a chunk p s).mode = s.mode := rfl
@[simp] theorem sendWrite_cs (a : Nat) (chunk : List Byte) (p : Purpose) : (sendWrite a chunk p s).cs = s.cs := rfl
@[simp] theorem sendWrite_activity (a : Nat) (chunk : List Byte) (p : Purpose) :
    (sendWrite a chunk p s).activity = .framing (writeFrame a chunk) .assert p := rfl
@[simp] theorem sendWrite_result (a : Nat) (chunk : List Byte) (p : Purpose) :
    (sendWrite a chunk p s).result = s.result := rfl
@[simp] theorem sendWrite_trace (a : Nat) (chunk : List Byte) (p : Purpose) :
    (sendWrite a chunk p s).trace = s.trace := rfl
@[simp] theorem sendWrite_buffer (a : Nat) (chunk : List Byte) (p : Purpose) :
    (sendWrite a chunk p s).buffer = s.buffer := rfl
@[simp] theorem sendWrite_host (a : Nat) (chunk : List Byte) (p : Purpose) :
    (sendWrite a chunk p s).host = s.host := rfl
@[simp] theorem sendWrite_env (a : Nat) (chunk : List Byte) (p : Purpose) : (sendWrite a chunk p s).env = s.env := rfl

/-! ### `begin` -/

@[simp] theorem begin_mode : (s.begin).mode = s.mode := rfl
@[simp] theorem begin_cs : (s.begin).cs = s.cs := rfl
@[simp] theorem begin_activity : (s.begin).activity = s.activity := rfl
@[simp] theorem begin_result : (s.begin).result = none := rfl
@[simp] theorem begin_trace : (s.begin).trace = [] := rfl
@[simp] theorem begin_buffer : (s.begin).buffer = s.buffer := rfl
@[simp] theorem begin_host : (s.begin).host = s.host := rfl
@[simp] theorem begin_env : (s.begin).env = s.env := rfl

/-! ### `finish` -/

@[simp] theorem finish_mode (r : Result) : (s.finish r).mode = s.mode := rfl
@[simp] theorem finish_cs (r : Result) : (s.finish r).cs = s.cs := rfl
@[simp] theorem finish_activity (r : Result) : (s.finish r).activity = .waiting := rfl
@[simp] theorem finish_result (r : Result) : (s.finish r).result = some r := rfl
@[simp] theorem finish_trace (r : Result) : (s.finish r).trace = s.trace := rfl
@[simp] theorem finish_buffer (r : Result) : (s.finish r).buffer = s.buffer := rfl
@[simp] theorem finish_host (r : Result) : (s.finish r).host = s.host := rfl
@[simp] theorem finish_env (r : Result) : (s.finish r).env = s.env := rfl

/-! ### `abort` -/

@[simp] theorem abort_mode (b : Bool) (e : Error) : (s.abort b e).mode = if b then s.mode else .idle := rfl
@[simp] theorem abort_cs (b : Bool) (e : Error) : (s.abort b e).cs = s.cs := rfl
@[simp] theorem abort_activity (b : Bool) (e : Error) : (s.abort b e).activity = .waiting := rfl
@[simp] theorem abort_result (b : Bool) (e : Error) : (s.abort b e).result = some (.error e) := rfl
@[simp] theorem abort_trace (b : Bool) (e : Error) : (s.abort b e).trace = s.trace := rfl
@[simp] theorem abort_buffer (b : Bool) (e : Error) : (s.abort b e).buffer = s.buffer := rfl
@[simp] theorem abort_host (b : Bool) (e : Error) : (s.abort b e).host = s.host := rfl
@[simp] theorem abort_env (b : Bool) (e : Error) : (s.abort b e).env = s.env := rfl

/-! ### `resetBlock` -/

@[simp] theorem resetBlock_mode : (s.resetBlock).mode = .uninitialized := rfl
@[simp] theorem resetBlock_cs : (s.resetBlock).cs = .unknown := rfl
@[simp] theorem resetBlock_activity : (s.resetBlock).activity = .waiting := rfl
@[simp] theorem resetBlock_result : (s.resetBlock).result = if s.activity = .waiting then s.result else none := rfl
@[simp] theorem resetBlock_trace : (s.resetBlock).trace = s.trace := rfl
@[simp] theorem resetBlock_buffer : (s.resetBlock).buffer = s.buffer := rfl
@[simp] theorem resetBlock_host : (s.resetBlock).host = { s.host with resetIn := none } := rfl
@[simp] theorem resetBlock_env : (s.resetBlock).env = s.env := rfl

/-! ### `placeNext` -/

@[simp] theorem placeNext_mode (r : Request) : (s.placeNext r).mode = s.mode := rfl
@[simp] theorem placeNext_cs (r : Request) : (s.placeNext r).cs = s.cs := rfl
@[simp] theorem placeNext_activity (r : Request) : (s.placeNext r).activity = .waiting := rfl
@[simp] theorem placeNext_result (r : Request) : (s.placeNext r).result = s.result := rfl
@[simp] theorem placeNext_trace (r : Request) : (s.placeNext r).trace = s.trace := rfl
@[simp] theorem placeNext_buffer (r : Request) : (s.placeNext r).buffer = s.buffer := rfl
@[simp] theorem placeNext_host (r : Request) :
    (s.placeNext r).host = { requests := r :: s.host.requests, resetIn := none } := rfl
@[simp] theorem placeNext_env (r : Request) : (s.placeNext r).env = s.env := rfl

/-! ### `lendBuffer` -/

@[simp] theorem lendBuffer_mode (n : Nat) : (lendBuffer n s).mode = s.mode := rfl
@[simp] theorem lendBuffer_cs (n : Nat) : (lendBuffer n s).cs = s.cs := rfl
@[simp] theorem lendBuffer_activity (n : Nat) : (lendBuffer n s).activity = s.activity := rfl
@[simp] theorem lendBuffer_result (n : Nat) : (lendBuffer n s).result = s.result := rfl
@[simp] theorem lendBuffer_trace (n : Nat) : (lendBuffer n s).trace = s.trace := rfl
@[simp] theorem lendBuffer_buffer (n : Nat) :
    (lendBuffer n s).buffer = (List.range n).map (Config.bufferByte s.env.drawn) := rfl
@[simp] theorem lendBuffer_host (n : Nat) : (lendBuffer n s).host = s.host := rfl
@[simp] theorem lendBuffer_env (n : Nat) : (lendBuffer n s).env = { s.env with drawn := s.env.drawn + 1 } := rfl

/-! ### `readDone` -/

@[simp] theorem readDone_mode (b : List Byte) : (readDone b s).mode = s.mode := rfl
@[simp] theorem readDone_cs (b : List Byte) : (readDone b s).cs = s.cs := rfl
@[simp] theorem readDone_activity (b : List Byte) : (readDone b s).activity = .waiting := rfl
@[simp] theorem readDone_result (b : List Byte) : (readDone b s).result = some (.okData b) := rfl
@[simp] theorem readDone_trace (b : List Byte) : (readDone b s).trace = s.trace := rfl
@[simp] theorem readDone_buffer (b : List Byte) : (readDone b s).buffer = b := rfl
@[simp] theorem readDone_host (b : List Byte) : (readDone b s).host = s.host := rfl
@[simp] theorem readDone_env (b : List Byte) : (readDone b s).env = s.env := rfl

/-! ### `asserted` -/

@[simp] theorem asserted_mode (tx : List Byte) (p : Purpose) : (asserted s tx p).mode = s.mode := rfl
@[simp] theorem asserted_cs (tx : List Byte) (p : Purpose) : (asserted s tx p).cs = .low := rfl
@[simp] theorem asserted_activity (tx : List Byte) (p : Purpose) :
    (asserted s tx p).activity = .framing tx .exchange p := rfl
@[simp] theorem asserted_result (tx : List Byte) (p : Purpose) : (asserted s tx p).result = s.result := rfl
@[simp] theorem asserted_trace (tx : List Byte) (p : Purpose) : (asserted s tx p).trace = s.trace ++ [.csLow] := rfl
@[simp] theorem asserted_buffer (tx : List Byte) (p : Purpose) : (asserted s tx p).buffer = s.buffer := rfl
@[simp] theorem asserted_host (tx : List Byte) (p : Purpose) : (asserted s tx p).host = s.host := rfl
@[simp] theorem asserted_env (tx : List Byte) (p : Purpose) : (asserted s tx p).env = s.env.drawCs.2 := rfl

/-! ### `afterFrame` -/

@[simp] theorem afterFrame_mode (tx rx : List Byte) : (afterFrame s tx rx).mode = s.mode := rfl
@[simp] theorem afterFrame_cs (tx rx : List Byte) : (afterFrame s tx rx).cs = .high := rfl
@[simp] theorem afterFrame_activity (tx rx : List Byte) : (afterFrame s tx rx).activity = s.activity := rfl
@[simp] theorem afterFrame_result (tx rx : List Byte) : (afterFrame s tx rx).result = s.result := rfl
@[simp] theorem afterFrame_trace (tx rx : List Byte) :
    (afterFrame s tx rx).trace = s.trace ++ [.csLow, .xfer tx rx, .csHigh] := rfl
@[simp] theorem afterFrame_buffer (tx rx : List Byte) : (afterFrame s tx rx).buffer = s.buffer := rfl
@[simp] theorem afterFrame_host (tx rx : List Byte) : (afterFrame s tx rx).host = s.host := rfl
@[simp] theorem afterFrame_env (tx rx : List Byte) :
    (afterFrame s tx rx).env = (s.env.drawCs.2.drawXfer tx).2.drawCs.2 := rfl

/-! ### `afterDummies` -/

@[simp] theorem afterDummies_mode (n : Nat) : (s.afterDummies n).mode = s.mode := rfl
@[simp] theorem afterDummies_cs (n : Nat) : (s.afterDummies n).cs = s.cs := rfl
@[simp] theorem afterDummies_activity (n : Nat) : (s.afterDummies n).activity = s.activity := rfl
@[simp] theorem afterDummies_result (n : Nat) : (s.afterDummies n).result = s.result := rfl
@[simp] theorem afterDummies_trace (n : Nat) : (s.afterDummies n).trace = s.trace := rfl
@[simp] theorem afterDummies_buffer (n : Nat) : (s.afterDummies n).buffer = s.buffer := rfl
@[simp] theorem afterDummies_host (n : Nat) : (s.afterDummies n).host = s.host := rfl
@[simp] theorem afterDummies_env (n : Nat) : (s.afterDummies n).env = (s.env.drawDummies n).2 := rfl

/-! ### `afterDriveHigh` -/

@[simp] theorem afterDriveHigh_mode : (afterDriveHigh s).mode = s.mode := rfl
@[simp] theorem afterDriveHigh_cs : (afterDriveHigh s).cs = .high := rfl
@[simp] theorem afterDriveHigh_activity : (afterDriveHigh s).activity = s.activity := rfl
@[simp] theorem afterDriveHigh_result : (afterDriveHigh s).result = s.result := rfl
@[simp] theorem afterDriveHigh_trace : (afterDriveHigh s).trace = s.trace ++ [.csHigh] := rfl
@[simp] theorem afterDriveHigh_buffer : (afterDriveHigh s).buffer = s.buffer := rfl
@[simp] theorem afterDriveHigh_host : (afterDriveHigh s).host = s.host := rfl
@[simp] theorem afterDriveHigh_env : (afterDriveHigh s).env = s.env.drawCs.2 := rfl

@[simp] theorem tick_requests (h : HostSide) : h.tick.requests = h.requests := rfl

/-- No reset is put on its way by a step. -/
theorem tick_none {h : HostSide} (hn : h.resetIn = none) : h.tick = h := by
  obtain ⟨r, i⟩ := h
  subst hn
  rfl

end Sys2Proof.Machine
end

