-- ==== Sys2Proof/Laws/Device.lean ====
section
/-! SUPPORT. The laws of the reference device's array and of its exchanges (R69, R70). -/

namespace Sys2Proof.Machine

/-! ### One byte -/

theorem memRead_memWrite (fill : Byte) (a b : Nat) (v : Byte) {m : List Host.Cell}
    (hm : m.Pairwise (fun c d => c.1 < d.1)) :
    memRead fill (memWrite fill a v m) b = if a = b then v else memRead fill m b := by
  induction m with
  | nil => by_cases hv : v = fill <;> by_cases hab : a = b <;> simp [memWrite, memRead, hv, hab]
  | cons c rest ih =>
    obtain ⟨k, w⟩ := c
    obtain ⟨hk, hr⟩ := List.pairwise_cons.mp hm
    have unlisted : ∀ {b : Nat}, b < k → memRead fill rest b = fill := by
      intro b hb
      clear ih hm hr
      induction rest with
      | nil => rfl
      | cons c rest ih =>
        have := hk c (by simp)
        simp only [memRead]
        rw [if_neg (by omega)]
        exact ih fun c' hc' => hk c' (by simp [hc'])
    have unlisted' : memRead fill rest k = fill := by
      clear ih hm hr unlisted
      induction rest with
      | nil => rfl
      | cons c rest ih =>
        have := hk c (by simp)
        simp only [memRead]
        rw [if_neg (by omega)]
        exact ih fun c' hc' => hk c' (by simp [hc'])
    simp only [memWrite]
    split
    · rename_i hlt
      split
      · rename_i hv
        subst hv
        by_cases hab : a = b
        · subst hab
          have hne : ¬ k = a := by omega
          simp [memRead, hne, unlisted hlt]
        · simp [hab]
      · by_cases hab : a = b
        · simp [memRead, hab]
        · simp [memRead, hab]
    · split
      · rename_i hlt heq
        subst heq
        split
        · rename_i hv
          subst hv
          by_cases hab : a = b
          · subst hab
            simp [unlisted']
          · simp [memRead, hab]
        · by_cases hab : a = b
          · simp [memRead, hab]
          · simp [memRead, hab]
      · rename_i hlt hne
        simp only [memRead]
        rw [ih hr]
        by_cases hkb : k = b
        · subst hkb
          simp [show ¬ a = k from hne]
        · simp [hkb]

/-- Which addresses a write lists. -/
theorem mem_memWrite {fill : Byte} {a : Nat} {v : Byte} {m : List Host.Cell} {c : Host.Cell}
    (h : c ∈ memWrite fill a v m) : c ∈ m ∨ (c = (a, v) ∧ v ≠ fill) := by
  induction m with
  | nil =>
    simp only [memWrite] at h
    split at h <;> simp_all
  | cons k rest ih =>
    obtain ⟨k, w⟩ := k
    simp only [memWrite] at h
    split at h
    · split at h
      · exact .inl h
      · rcases List.mem_cons.mp h with h | h
        · exact .inr ⟨h, by assumption⟩
        · exact .inl h
    · split at h
      · split at h
        · exact .inl (List.mem_cons_of_mem _ h)
        · rcases List.mem_cons.mp h with h | h
          · exact .inr ⟨h, by assumption⟩
          · exact .inl (List.mem_cons_of_mem _ h)
      · rcases List.mem_cons.mp h with h | h
        · exact .inl (by simp [h])
        · rcases ih h with h | h
          · exact .inl (List.mem_cons_of_mem _ h)
          · exact .inr h

/-- A write keeps the canonical form. -/
theorem memWrite_wf {fill : Byte} {a : Nat} (v : Byte) {m : List Host.Cell} (ha : a < Config.capacity)
    (hm : Memory.wf fill m) : Memory.wf fill (memWrite fill a v m) := by
  obtain ⟨hp, hc⟩ := hm
  refine ⟨?_, fun c h => ?_⟩
  · clear hc
    induction m with
    | nil =>
      simp only [memWrite]
      split <;> simp
    | cons k rest ih =>
      obtain ⟨k, w⟩ := k
      obtain ⟨hk, hr⟩ := List.pairwise_cons.mp hp
      simp only [memWrite]
      split
      · rename_i hlt
        split
        · exact hp
        · refine List.pairwise_cons.mpr ⟨fun c hc => ?_, hp⟩
          rcases List.mem_cons.mp hc with hc | hc
          · rw [hc]
            exact hlt
          · exact Nat.lt_trans hlt (hk c hc)
      · split
        · rename_i hlt heq
          subst heq
          split
          · exact hr
          · exact List.pairwise_cons.mpr ⟨hk, hr⟩
        · rename_i hlt hne
          refine List.pairwise_cons.mpr ⟨fun c hc => ?_, ih hr⟩
          rcases mem_memWrite hc with hc | ⟨hc, -⟩
          · exact hk c hc
          · rw [hc]
            simp only
            omega
  · rcases mem_memWrite h with h | ⟨h, hv⟩
    · exact hc c h
    · rw [h]
      exact ⟨ha, hv⟩

/-! ### The payload of a write command -/

/-- The address of payload byte `i` of a write at `a`: kept in the page of `a` (R70). -/
def payloadAddr (a i : Nat) : Nat := pageBase a + (pageOff a + i) % Config.pageSize

theorem payloadAddr_lt {a : Nat} (i : Nat) (ha : a < Config.capacity) : payloadAddr a i < Config.capacity := by
  simp only [payloadAddr, pageBase, pageOff, Config.capacity, Config.addrBits, Config.pageSize] at *
  omega

/-- Within the page a payload byte goes to `A + i` (R54). -/
theorem payloadAddr_eq {a i : Nat} (h : pageOff a + i < Config.pageSize) : payloadAddr a i = a + i := by
  simp only [payloadAddr, pageBase, pageOff, Config.pageSize] at *
  omega

theorem storePayload_wf {fill : Byte} {a : Nat} (ha : a < Config.capacity) (bytes : List Byte) :
    ∀ (i : Nat) {m : List Host.Cell}, Memory.wf fill m → Memory.wf fill (storePayload fill a i bytes m) := by
  induction bytes with
  | nil => exact fun _ _ hm => hm
  | cons v rest ih => exact fun i _ hm => ih (i + 1) (memWrite_wf v (payloadAddr_lt i ha) hm)

/-- What the array reads as after a payload that stays in its page. -/
theorem memRead_storePayload {fill : Byte} {a : Nat} (ha : a < Config.capacity) (bytes : List Byte) :
    ∀ (i : Nat) {m : List Host.Cell}, Memory.wf fill m → pageOff a + i + bytes.length ≤ Config.pageSize → ∀ b,
      memRead fill (storePayload fill a i bytes m) b =
        if h : a + i ≤ b ∧ b < a + i + bytes.length then bytes[b - (a + i)]'(by omega) else memRead fill m b := by
  induction bytes with
  | nil =>
    intro i m _ _ b
    rw [dif_neg (by simp only [List.length_nil]; omega)]
    rfl
  | cons v rest ih =>
    intro i m hm hlen b
    simp only [List.length_cons] at hlen
    have hadr : payloadAddr a i = a + i := payloadAddr_eq (by omega)
    rw [storePayload, show pageBase a + (pageOff a + i) % Config.pageSize = a + i from hadr,
      ih (i + 1) (memWrite_wf v (hadr ▸ payloadAddr_lt i ha) hm) (by omega), memRead_memWrite _ _ _ _ hm.1]
    by_cases h1 : a + (i + 1) ≤ b ∧ b < a + (i + 1) + rest.length
    · rw [dif_pos h1, dif_pos (by simp only [List.length_cons]; omega)]
      obtain ⟨k, hk⟩ : ∃ k, b - (a + i) = k + 1 := ⟨b - (a + i) - 1, by omega⟩
      have hk' : b - (a + (i + 1)) = k := by omega
      simp only [hk, hk', List.getElem_cons_succ]
    · rw [dif_neg h1]
      by_cases h2 : a + i = b
      · subst h2
        simp
      · rw [if_neg h2, dif_neg (by simp only [List.length_cons]; omega)]

/-! ### The frames of the block -/

/-- The two wire address bytes give the address back, modulo nothing for an address of the array (R53). -/
theorem deviceAddr_frame {op : Byte} {a : Nat} (payload : List Byte) (ha : a < Config.capacity) :
    deviceAddr (op :: addrHigh a :: addrLow a :: payload) = a := by
  simp only [deviceAddr, addrHigh, addrLow, List.getD_cons_succ, List.getD_cons_zero, BitVec.toNat_ofNat,
    Config.capacity, Config.addrBits] at *
  omega

theorem devExchange_fill (d : RefDevice) (tx : List Byte) : (devExchange d tx).2.fill = d.fill := by
  simp only [devExchange, busyExchange, idleExchange, acceptWrite]
  repeat' split
  all_goals rfl

theorem devExchange_busyPolls (d : RefDevice) (tx : List Byte) : (devExchange d tx).2.busyPolls = d.busyPolls := by
  simp only [devExchange, busyExchange, idleExchange, acceptWrite]
  repeat' split
  all_goals rfl

/-- Every answer of the device has the length of its frame (R20, R70). -/
theorem devExchange_length (d : RefDevice) (tx : List Byte) : (devExchange d tx).1.length = tx.length := by
  simp only [devExchange, busyExchange, idleExchange, statusAnswer, loadPayload, zeros]
  repeat' split
  all_goals simp
  all_goals omega

/-- Only a write frame changes the array (R62, R70). -/
theorem devExchange_arr {d : RefDevice} {tx : List Byte} (h : tx.getD 0 0 ≠ 0x02) : (devExchange d tx).2.arr =
  d.arr := by
  simp only [devExchange, busyExchange, idleExchange]
  repeat' split
  all_goals first | rfl | simp_all

/-- The device keeps its invariant whatever frame it gets. -/
theorem devExchange_ok {d : RefDevice} (hd : d.Ok) (tx : List Byte) : (devExchange d tx).2.Ok := by
  obtain ⟨hw, hi⟩ := hd
  have hs : ∀ tx : List Byte, Memory.wf d.fill (storePayload d.fill (deviceAddr tx) 0 (tx.drop 3) d.arr) := fun tx =>
    storePayload_wf (Nat.mod_lt _ (by decide)) _ _ hw
  simp only [devExchange]
  split
  · rename_i hbusy
    simp only [busyExchange]
    split
    · split
      · exact ⟨hw, by simp⟩
      · exact ⟨hw, by simp only [hi]; omega⟩
    · exact ⟨hw, hi⟩
  · rename_i hbusy
    simp only [idleExchange]
    repeat' split
    all_goals first | exact ⟨hw, hi⟩ | skip
    simp only [acceptWrite]
    split
    · exact ⟨hs tx, by simpa using ‹0 < d.busyPolls›⟩
    · exact ⟨hs tx, hi⟩

/-! ### What a failed frame leaves (log 24) -/

/-- The device keeps its invariant whatever it lost. -/
theorem lose_ok {d : RefDevice} (hd : d.Ok) (k a n : Nat) : (d.lose k a n).Ok :=
  ⟨storePayload_wf (Nat.mod_lt _ (by decide)) _ _ hd.arr_wf, by simp [RefDevice.lose]⟩

/-- Within a page of the array the bytes at risk are free, and every other byte is as before. -/
theorem lose_byte {d : RefDevice} {a n : Nat} (hw : Memory.wf d.fill d.arr) (ha : a < Config.capacity)
    (hn : pageOff a + n ≤ Config.pageSize) (k b : Nat) :
    (d.lose k a n).byte b = if a ≤ b ∧ b < a + n then Config.lostByte k (b - a) else d.byte b := by
  show memRead d.fill (storePayload d.fill (a % Config.capacity) 0 _ d.arr) b = _
  rw [Nat.mod_eq_of_lt ha, memRead_storePayload ha _ 0 hw (by simpa using hn)]
  simp only [Nat.add_zero, List.length_map, List.length_range]
  split
  · simp
  · rfl

/-- With nothing at risk every byte is as before. -/
@[simp] theorem lose_nothing_byte (d : RefDevice) (k a b : Nat) : (d.lose k a 0).byte b = d.byte b := rfl

/-- A device as it starts keeps its invariant, for every parameter (R72). -/
theorem fresh_ok (busyPolls : Nat) (fill : Byte) : (RefDevice.fresh busyPolls fill).Ok :=
  ⟨by simp [RefDevice.fresh, Memory.wf], by simp [RefDevice.fresh]⟩

/-- Every byte of a device as it starts reads the fill (R72). -/
theorem fresh_byte (busyPolls : Nat) (fill : Byte) (a : Nat) : (RefDevice.fresh busyPolls fill).byte a = fill := rfl

/-- The memory of the reset state, where it had one, is in canonical form: no device is attached (log 15). -/
theorem reset_memory_wf (d : RefDevice) (h : State.reset.env.device = some d) : Memory.wf d.fill d.arr := by
  cases h

end Sys2Proof.Machine
end

