-- ==== Sys2Proof/Laws/Encoding.lean ====
section
/-! SUPPORT. The wire address bytes put together and taken apart (R53), and what the frame decoders accept. -/

namespace Sys2Proof

@[simp] theorem wireAddr_bytes (a : HostAddr) : wireAddr (addrHigh a.toNat) (addrLow a.toNat) = a := by
  have := a.isLt
  refine BitVec.eq_of_toNat_eq ?_
  simp only [wireAddr, addrHigh, addrLow, BitVec.toNat_ofNat]
  omega

@[simp] theorem addrHigh_wireAddr (hi lo : Byte) : addrHigh (wireAddr hi lo).toNat = hi := by
  have := hi.isLt
  have := lo.isLt
  refine BitVec.eq_of_toNat_eq ?_
  simp only [wireAddr, addrHigh, BitVec.toNat_ofNat]
  omega

@[simp] theorem addrLow_wireAddr (hi lo : Byte) : addrLow (wireAddr hi lo).toNat = lo := by
  have := hi.isLt
  have := lo.isLt
  refine BitVec.eq_of_toNat_eq ?_
  simp only [wireAddr, addrLow, BitVec.toNat_ofNat]
  omega

theorem decodeOp_ok {i j : Instr} {tail : List Byte} (h : decodeOp i tail = .ok j) : tail = [] ∧ j = i := by
  cases tail <;> simp_all [decodeOp]

theorem decodeOpd_ok {i j : Instr} {tail : List Byte} (h : decodeOpd i tail = .ok j) : (∃ d, tail = [d]) ∧ j = i := by
  match tail with
  | [] => cases h
  | [d] =>
    cases h
    exact ⟨⟨d, rfl⟩, rfl⟩
  | _ :: _ :: _ => cases h

theorem decodeAddr_ok {k : HostAddr → List Byte → Except Reject Instr} {j : Instr} {tail : List Byte}
    (h : decodeAddr k tail = .ok j) : ∃ hi lo payload, tail = hi :: lo :: payload ∧
      k (wireAddr hi lo) payload = .ok j := by
  match tail with
  | [] => cases h
  | [_] => cases h
  | hi :: lo :: payload => exact ⟨hi, lo, payload, rfl, h⟩

theorem checkedWrite_ok {addr : HostAddr} {chunk : List Byte} {j : Instr} (h : checkedWrite addr chunk = .ok j) :
    j = .cmdWrite addr chunk ∧ (Instr.cmdWrite addr chunk).WellFormed := by
  unfold checkedWrite at h
  split at h
  · cases h
    exact ⟨rfl, by assumption⟩
  · cases h

end Sys2Proof
end

