-- ==== Sys2Proof/Laws/Ops.lean ====
section
/-! SUPPORT. What the environment's draws can do (R47), and the trace read as exchanges and frames. -/

namespace Sys2Proof.Machine

/-! ### Draws -/

@[simp] theorem fitBytes_length (n k : Nat) (rx : List Byte) : (fitBytes n k rx).length = n := by simp [fitBytes]

/-- An answer of the right length is taken as it is. -/
theorem fitBytes_eq {n k : Nat} {rx : List Byte} (h : rx.length = n) : fitBytes n k rx = rx := by
  subst h
  refine List.ext_getElem (by simp) fun i h1 h2 => ?_
  simp [fitBytes, List.getElem?_eq_getElem h2]

theorem fitAnswer_length {n k : Nat} {x : XferAnswer} {rx : List Byte} (h : fitAnswer n k x = .ok rx) :
    rx.length = n := by
  cases x with
  | ok bytes =>
    simp only [fitAnswer, XferAnswer.ok.injEq] at h
    rw [← h, fitBytes_length]
  | fail e => cases h

/-- The Transport contract: an answered exchange has as many bytes as its frame (R20). -/
theorem xferAnswer_length {e : Env} {tx rx : List Byte} (h : e.xferAnswer tx = .ok rx) : rx.length = tx.length := by
  simp only [Env.xferAnswer] at h
  split at h
  · exact fitAnswer_length h
  · simp only [XferAnswer.ok.injEq] at h
    rw [← h, devExchange_length]
  · exact fitAnswer_length h

@[simp] theorem drawCs_fst (e : Env) : e.drawCs.1 = e.csAnswer := rfl
@[simp] theorem drawXfer_fst (e : Env) (tx : List Byte) : (e.drawXfer tx).1 = e.xferAnswer tx := rfl
@[simp] theorem drawCs_device (e : Env) : e.drawCs.2.device = e.device := rfl
@[simp] theorem drawXfer_device (e : Env) (tx : List Byte) :
    (e.drawXfer tx).2.device = e.deviceAfter tx (e.xferAnswer tx) := rfl
@[simp] theorem drawDummies_device (e : Env) (n : Nat) : (e.drawDummies n).2.device = e.device := rfl
@[simp] theorem drawDummies_length (e : Env) (n : Nat) : (e.drawDummies n).1.length = n := by simp [Env.drawDummies]
@[simp] theorem drawChoice_device (e : Env) : e.drawChoice.2.device = e.device := rfl
@[simp] theorem lose_device (a n : Nat) (e : Env) : (e.lose a n).device =
  e.device.map (RefDevice.lose e.drawn a n) := rfl
@[simp] theorem deviceAfter_ok (e : Env) (tx rx : List Byte) :
    e.deviceAfter tx (.ok rx) = e.device.map fun d => (devExchange d tx).2 := rfl
@[simp] theorem deviceAfter_fail (e : Env) (tx : List Byte) (v : EnvError) : e.deviceAfter tx (.fail v) = e.device :=
  rfl

/-- The read-status frame of a state, spelled out: its dummy byte is one draw. -/
theorem nextRdsr_sends (s : State) : ∃ d, nextRdsr s = rdsrFrame d := ⟨_, rfl⟩

/-- The read frame of a state, spelled out: its dummy bytes are `n` draws. -/
theorem nextRead_sends (s : State) (a n : Nat) : ∃ payload, payload.length = n ∧ nextRead s a n = readFrame a payload :=
  ⟨_, drawDummies_length _ _, rfl⟩

/-! ### An environment that is the reference device alone -/

/-- Nothing is decided beside the attached device `d`. -/
structure Env.Attached (e : Env) (d : RefDevice) : Prop where
  cs : e.csAnswers = []
  xfer : e.xferAnswers = []
  device : e.device = some d

theorem Env.Attached.csAnswer {e : Env} {d : RefDevice} (h : e.Attached d) : e.csAnswer = .ok := by
  simp [Env.csAnswer, h.cs, h.device]

theorem Env.Attached.xferAnswer {e : Env} {d : RefDevice} (h : e.Attached d) (tx : List Byte) :
    e.xferAnswer tx = .ok (devExchange d tx).1 := by
  simp [Env.xferAnswer, h.xfer, h.device]

theorem Env.Attached.drawCs {e : Env} {d : RefDevice} (h : e.Attached d) : e.drawCs.2.Attached d :=
  ⟨by simp [Env.drawCs, h.cs], h.xfer, h.device⟩

theorem Env.Attached.drawXfer {e : Env} {d : RefDevice} (h : e.Attached d) (tx : List Byte) :
    (e.drawXfer tx).2.Attached (devExchange d tx).2 :=
  ⟨h.cs, by simp [Env.drawXfer, h.xfer], by simp [h.xferAnswer, h.device]⟩

theorem Env.Attached.drawDummies {e : Env} {d : RefDevice} (h : e.Attached d) (n : Nat) :
    (e.drawDummies n).2.Attached d := ⟨h.cs, h.xfer, h.device⟩

/-- With nothing decided beside it, the reference device answers every frame without failure, and takes it (R69). -/
theorem frameOk_attached {s : State} {d : RefDevice} (tx : List Byte) (h : s.env.Attached d) :
    FrameOk s tx (devExchange d tx).1 ∧ (afterFrame s tx (devExchange d tx).1).env.Attached (devExchange d tx).2 :=
  ⟨⟨h.csAnswer, h.drawCs.xferAnswer tx, (h.drawCs.drawXfer tx).csAnswer⟩, (h.drawCs.drawXfer tx).drawCs⟩

/-! ### Traces -/

@[simp] theorem exchangesOf_nil : exchangesOf [] = [] := rfl

@[simp] theorem exchangesOf_append (a b : List BusEvent) : exchangesOf (a ++ b) = exchangesOf a ++ exchangesOf b := by
  simp [exchangesOf]

@[simp] theorem framesOf_nil : framesOf [] = [] := rfl

@[simp] theorem framesOf_append (a b : List BusEvent) : framesOf (a ++ b) = framesOf a ++ framesOf b := by
  simp [framesOf]

@[simp] theorem unpolled_nil : unpolled [] = [] := rfl

@[simp] theorem unpolled_append (a b : List BusEvent) : unpolled (a ++ b) = unpolled a ++ unpolled b := by
  simp [unpolled]

/-- A `CsSet` is no exchange. -/
@[simp] theorem exchangesOf_csEvent (l : Level) (a : CsAnswer) : exchangesOf [csEvent l a] = [] := by
  cases l <;> cases a <;> rfl

@[simp] theorem framesOf_csEvent (l : Level) (a : CsAnswer) : framesOf [csEvent l a] = [] := by
  simp [framesOf]

@[simp] theorem unpolled_csEvent (l : Level) (a : CsAnswer) : unpolled [csEvent l a] = [] := by
  simp [unpolled]

/-- An exchange is one frame, however it was answered. -/
@[simp] theorem framesOf_xferEvent (tx : List Byte) (x : XferAnswer) : framesOf [xferEvent tx x] = [tx] := by
  cases x <;> rfl

@[simp] theorem unpolled_xferEvent (tx : List Byte) (x : XferAnswer) :
    unpolled [xferEvent tx x] = if isRdsr tx then [] else [tx] := by
  cases h : isRdsr tx <;> simp [unpolled, h]

@[simp] theorem isRdsr_wren : isRdsr wrenFrame = false := rfl
@[simp] theorem isRdsr_write (a : Nat) (chunk : List Byte) : isRdsr (writeFrame a chunk) = false := rfl
@[simp] theorem isRdsr_rdsr (d : Byte) : isRdsr (rdsrFrame d) = true := rfl

end Sys2Proof.Machine
end

