-- ==== Sys2Proof/Laws/Step.lean ====
section
/-! SUPPORT. What one step does, by where the block is (R88, R159); the three steps of a frame without failure; runs. -/

namespace Sys2Proof.Machine

/-! ### Steps -/

/-- A reset that lands is the whole step (R145). -/
theorem step_reset {s : State} (h : s.host.resetIn = some 0) : step s = .next s.resetBlock := by
  simp [step, stepOnce, h]

/-- The step of an operation in progress is its next interaction, the reset on its way one step nearer (R159). -/
theorem step_running {s : State} (hr : s.host.resetIn ≠ some 0) (ha : s.activity ≠ .waiting) :
    step s = .next (advance { s with host := s.host.tick }) := by
  simp only [step, stepOnce, if_neg hr, runBlock]
  split <;> simp_all

/-- The same with no reset on its way. -/
theorem step_running_none {s : State} (hr : s.host.resetIn = none) (ha : s.activity ≠ .waiting) :
    step s = .next (advance s) := by
  rw [step_running (by simp [hr]) ha, tick_none hr]

/-- A block that waits takes the oldest request placed (R117). -/
theorem step_waiting {s : State} (hr : s.host.resetIn ≠ some 0) (ha : s.activity = .waiting) :
    step s = takeRequest { s with host := s.host.tick } := by
  simp only [step, stepOnce, if_neg hr, runBlock, ha]

/-! ### The three interactions of a command -/

theorem assertStep_ok {s : State} {tx : List Byte} {p : Purpose} (h : s.env.csAnswer = .ok) :
    assertStep tx p s = asserted s tx p := by
  simp [assertStep, h, csSet, asserted, csAfter, csEvent]

theorem assertStep_fail {s : State} {tx : List Byte} {p : Purpose} {v : EnvError} (h : s.env.csAnswer = .fail v) :
    assertStep tx p s = (csSet .low s).abort p.keepsMode (.gpio v) := by
  simp only [assertStep, h]

theorem exchangeStep_ok {s : State} {tx rx : List Byte} {p : Purpose} (h : s.env.xferAnswer tx = .ok rx) :
    exchangeStep tx p s = { exchange tx s with activity := .framing tx (.release (.ok rx)) p } := by
  simp only [exchangeStep, h]

theorem exchangeStep_fail {s : State} {tx : List Byte} {p : Purpose} {v : EnvError} (h : s.env.xferAnswer tx =
  .fail v) :
    exchangeStep tx p s =
      { (exchange tx s).lose p.atRisk.1 p.atRisk.2 with activity := .framing tx (.release (.fail v)) p } := by
  simp only [exchangeStep, h]

theorem releaseStep_ok {s : State} {rx : List Byte} {p : Purpose} (h : s.env.csAnswer = .ok) :
    releaseStep (.ok rx) p s = returned p rx (csSet .high s) := by
  simp only [releaseStep, h]

/-- A command that does not return raises a bus error (R88): what the step of its release leaves. -/
theorem releaseStep_raises {s : State} {x : XferAnswer} {p : Purpose}
    (h : ¬ ((∃ rx, x = .ok rx) ∧ s.env.csAnswer = .ok)) :
    ∃ (e : Error) (env : Env), ((∃ v, e = .transport v) ∨ ∃ v, e = .gpio v) ∧
      (env.device = s.env.device ∨ ∃ k, env.device = s.env.device.map (RefDevice.lose k p.atRisk.1 p.atRisk.2)) ∧
      releaseStep x p s = State.abort p.keepsMode e { csSet .high s with env := env } := by
  unfold releaseStep
  split
  · simp_all
  · exact ⟨_, _, .inr ⟨_, rfl⟩, .inr ⟨_, rfl⟩, rfl⟩
  · exact ⟨_, (csSet .high s).env, .inl ⟨_, rfl⟩, .inl rfl, rfl⟩
  · rename_i e1 e2 h2
    refine ⟨_, _, ?_, .inr ⟨_, rfl⟩, rfl⟩
    split
    · exact .inl ⟨_, rfl⟩
    · exact .inr ⟨_, rfl⟩

/-- A frame without failure, from its assert: three interactions, then what follows the command (R88). -/
theorem advance_frame {s : State} {tx rx : List Byte} {p : Purpose} (ha : s.activity = .framing tx .assert p)
    (h : FrameOk s tx rx) :
    advance s = asserted s tx p ∧
    advance (asserted s tx p) = { exchange tx (asserted s tx p) with activity := .framing tx (.release (.ok rx)) p } ∧
    ∃ u, advance (advance (asserted s tx p)) = returned p rx u ∧
      u = { afterFrame s tx rx with activity := .framing tx (.release (.ok rx)) p } := by
  have h1 : s.env.csAnswer = .ok := h.1
  have h2 : s.env.drawCs.2.xferAnswer tx = .ok rx := h.2.1
  have h3 : (s.env.drawCs.2.drawXfer tx).2.csAnswer = .ok := h.2.2
  have e1 : advance s = asserted s tx p := by simp only [advance, ha, assertStep_ok h1]
  have e2 : advance (asserted s tx p) =
      { exchange tx (asserted s tx p) with activity := .framing tx (.release (.ok rx)) p } := by
    simp only [advance, asserted_activity]
    exact exchangeStep_ok h2
  refine ⟨e1, e2, _, ?_, rfl⟩
  rw [e2]
  simp only [advance]
  rw [releaseStep_ok h3]
  congr 1
  simp [csSet, exchange, asserted, afterFrame, xferEvent, csEvent, csAfter, h2, h3]

/-! ### Runs -/

@[simp] theorem runFor_zero (s : State) : runFor 0 s = .next s := rfl

theorem runFor_succ {s t : State} {n : Nat} (h : step s = .next t) : runFor (n + 1) s = runFor n t := by
  simp only [runFor, h]

theorem core_run_next (M : Host.Core) (n : Nat) {s t : M.State} (h : M.step s = .next t) :
    M.run (n + 1) s = M.run n t := by
  simp only [Host.Core.run, h]

theorem core_run_refused (M : Host.Core) (n : Nat) {s : M.State} {r : M.Refusal} (h : M.step s = .refused r) :
    M.run (n + 1) s = .refused r := by
  simp only [Host.Core.run, h]

/-- A run is the host's. -/
theorem runFor_eq (n : Nat) (s : State) : core.run n s = runFor n s := by
  induction n generalizing s with
  | zero => rfl
  | succ n ih =>
    cases h : step s with
    | next t => exact (core_run_next core n h).trans ((ih t).trans (runFor_succ h).symm)
    | fault r => exact nomatch r
    | refused r => exact (core_run_refused core n h).trans (by simp only [runFor, h]; rfl)

/-- A run goes on where another one ended. -/
theorem runFor_add {s t : State} {m n : Nat} (h : runFor m s = .next t) : runFor (m + n) s = runFor n t := by
  induction m generalizing s with
  | zero =>
    cases h
    rw [Nat.zero_add]
  | succ m ih =>
    rw [Nat.succ_add]
    simp only [runFor] at h ⊢
    split at h
    · exact ih h
    · cases h
    · cases h

/-- What follows a command does not look at where the block was. -/
theorem returned_activity (p : Purpose) (rx : List Byte) (s : State) (a : Activity) :
    returned p rx { s with activity := a } = returned p rx s := by
  cases p with
  | initStatus => simp only [returned, initRead]; split <;> rfl
  | pagePoll c todo =>
    simp only [returned, polled]
    split
    · rfl
    · cases todo with
      | nil => rfl
      | cons c todo => simp only [writeRest, startPageWrite]; split <;> rfl
  | _ => rfl

/-- A frame without failure is three steps (R88). -/
theorem run_frame {s : State} {tx rx : List Byte} {p : Purpose} (hr : s.host.resetIn = none)
    (ha : s.activity = .framing tx .assert p) (h : FrameOk s tx rx) :
    runFor 3 s = .next (returned p rx (afterFrame s tx rx)) := by
  obtain ⟨e1, e2, u, e3, hu⟩ := advance_frame ha h
  rw [e2] at e3
  have s1 : step s = .next (asserted s tx p) := e1 ▸ step_running_none hr (by simp [ha])
  have s2 := step_running_none (s := asserted s tx p) hr (by simp)
  rw [e2] at s2
  have s3 := step_running_none
    (s := { exchange tx (asserted s tx p) with activity := .framing tx (.release (.ok rx)) p }) hr (by simp)
  rw [e3] at s3
  rw [runFor_succ s1, runFor_succ s2, runFor_succ s3, runFor_zero, hu, returned_activity]

/-- An operation that starts with a frame without failure: `exec` makes the assert, two more steps the rest. -/
theorem launch_frame {start : State → State} {s : State} {tx rx : List Byte} {p : Purpose}
    (hr : (start s.begin).host.resetIn = none) (ha : (start s.begin).activity = .framing tx .assert p)
    (h : FrameOk (start s.begin) tx rx) :
    launch start s = .next (asserted (start s.begin) tx p) ∧
      runFor 2 (asserted (start s.begin) tx p) = .next (returned p rx (afterFrame (start s.begin) tx rx)) := by
  have e1 := (advance_frame ha h).1
  refine ⟨by rw [launch, e1], ?_⟩
  have s1 := step_running_none hr (by simp [ha])
  rw [e1] at s1
  rw [← run_frame hr ha h, runFor_succ s1]

end Sys2Proof.Machine
end

