-- ==== Sys2Proof/Laws/Exec.lean ====
section
/-! SUPPORT. When each instruction answers a next state, and which: one inversion lemma per instruction (R117, R129). -/

namespace Sys2Proof.Machine

variable {s t : State}

theorem whenWaiting_next {k : Host.Outcome State Fault Refusal} :
    whenWaiting s k = .next t ↔ s.activity = .waiting ∧ k = .next t := by
  unfold whenWaiting
  split <;> simp_all

theorem admitted_next {k : Host.Outcome State Fault Refusal} :
    admitted s k = .next t ↔ s.activity = .waiting ∧ s.mode ≠ .uninitialized ∧ k = .next t := by
  rw [admitted, whenWaiting_next]
  split <;> simp_all

theorem launch_next {start : State → State} : launch start s = .next t ↔ t = advance (start s.begin) := by
  rw [launch, Host.Outcome.next.injEq, eq_comm]

theorem exec_cmdWren_next :
    exec .cmdWren s = .next t ↔ s.activity = .waiting ∧ t = advance (sendCall .writeEnable s.begin) := by
  rw [exec, execCmdWren, whenWaiting_next, launch_next]

theorem exec_cmdWrdi_next :
    exec .cmdWrdi s = .next t ↔ s.activity = .waiting ∧ t = advance (sendCall .writeDisable s.begin) := by
  rw [exec, execCmdWrdi, whenWaiting_next, launch_next]

theorem exec_cmdRdsr_next :
    exec .cmdRdsr s = .next t ↔ s.activity = .waiting ∧ t = advance (sendCall .readStatus s.begin) := by
  rw [exec, execCmdRdsr, whenWaiting_next, launch_next]

theorem exec_cmdRead_next {addr : HostAddr} {n : Nat} :
    exec (.cmdRead addr n) s = .next t ↔
      s.activity = .waiting ∧ t = advance (sendCall (.readData addr n) s.begin) := by
  rw [exec, execCmdRead, whenWaiting_next, launch_next]

theorem exec_cmdWrite_next {addr : HostAddr} {chunk : List Byte} :
    exec (.cmdWrite addr chunk) s = .next t ↔
      s.activity = .waiting ∧ t = advance (sendCall (.writeData addr chunk) s.begin) := by
  rw [exec, execCmdWrite, whenWaiting_next, launch_next]

theorem exec_cmdWrsr_next : ¬ exec .cmdWrsr s = .next t := nofun

theorem exec_init_next :
    exec .init s = .next t ↔
      s.activity = .waiting ∧ s.mode = .uninitialized ∧ t = advance { s.begin with activity := .driving } := by
  rw [exec, execInit, whenWaiting_next]
  split
  · rw [launch_next]
    simp_all
  · simp_all

theorem exec_readStatus_next :
    exec .readStatus s = .next t ↔
      s.activity = .waiting ∧ s.mode ≠ .uninitialized ∧ t = advance (startStatus s.begin) := by
  rw [exec, execReadStatus, admitted_next, launch_next]

theorem exec_read_next {addr : HostAddr} {n : Nat} :
    exec (.read addr n) s = .next t ↔
      s.activity = .waiting ∧ s.mode ≠ .uninitialized ∧ t = advance (startRead addr n s.begin) := by
  rw [exec, execRead, admitted_next, launch_next]

theorem exec_writeBytes_next {addr : HostAddr} {data : List Byte} :
    exec (.writeBytes addr data) s = .next t ↔
      s.activity = .waiting ∧ s.mode ≠ .uninitialized ∧
        t = advance (writeRest (splitWrite addr.toNat data) s.begin) := by
  rw [exec, execWriteBytes, admitted_next, launch_next, startWrite]

theorem exec_eraseSectors_next {addr : HostAddr} {amount : Nat} :
    exec (.eraseSectors addr amount) s = .next t ↔
      s.activity = .waiting ∧ s.mode ≠ .uninitialized ∧ 1 ≤ amount ∧
        t = advance (writeRest (splitErase addr.toNat amount) s.begin) := by
  rw [exec, execEraseSectors, admitted_next]
  split
  · simp
    omega
  · rw [launch_next, startErase]
    simp
    omega

theorem exec_eraseAll_next :
    exec .eraseAll s = .next t ↔
      s.activity = .waiting ∧ s.mode ≠ .uninitialized ∧
        t = advance (writeRest (splitErase 0 Config.pageCount) s.begin) := by
  rw [exec, execEraseAll, admitted_next, launch_next, startErase]

/-- A write or an erase, by the list of its page writes. -/
theorem exec_pageWrites_next {i : Instr} {chunks : List Chunk} (hi : pageWritesOf i = some chunks) :
    exec i s = .next t ↔
      s.activity = .waiting ∧ s.mode ≠ .uninitialized ∧ t = advance (writeRest chunks s.begin) := by
  cases i with
  | writeBytes addr data =>
    cases hi
    exact exec_writeBytes_next
  | eraseSectors addr amount =>
    simp only [pageWritesOf] at hi
    split at hi
    · cases hi
    · cases hi
      rw [exec_eraseSectors_next]
      simp
      omega
  | eraseAll =>
    cases hi
    exact exec_eraseAll_next
  | _ => cases hi

end Sys2Proof.Machine
end

