-- ==== Sys2Proof/Laws/Interactions.lean ====
section
/-! SUPPORT. Everything one step can do (R88, R159): the outcomes of an interaction of a command, of what follows a
command, of starting an instruction, and of a step; and what each of them leaves alone. -/

namespace Sys2Proof.Machine

/-! ### An interaction of a command -/

/-- The outcomes of one interaction of `Command(tx)` (R88), by its phase. -/
inductive CommandStep (tx : List Byte) : Phase → Purpose → State → State → Prop
  /-- The assert, answered. -/
  | asserted {p : Purpose} {s : State} : s.env.csAnswer = .ok → CommandStep tx .assert p s (asserted s tx p)
  /-- The assert, failed: the operation aborts. -/
  | assertFails {p : Purpose} {s : State} {v : EnvError} :
      s.env.csAnswer = .fail v → CommandStep tx .assert p s ((csSet .low s).abort p.keepsMode (.gpio v))
  /-- The exchange, answered. -/
  | exchanged {p : Purpose} {s : State} {rx : List Byte} : s.env.xferAnswer tx = .ok rx →
      CommandStep tx .exchange p s { exchange tx s with activity := .framing tx (.release (.ok rx)) p }
  /-- The exchange, failed: the release follows, and an attached device has lost what was at risk (log 24). -/
  | exchangeFails {p : Purpose} {s : State} {v : EnvError} : s.env.xferAnswer tx = .fail v →
      CommandStep tx .exchange p s
        { (exchange tx s).lose p.atRisk.1 p.atRisk.2 with activity := .framing tx (.release (.fail v)) p }
  /-- The release, answered after an answered exchange: the command returns. -/
  | released {p : Purpose} {s : State} {rx : List Byte} : s.env.csAnswer = .ok →
      CommandStep tx (.release (.ok rx)) p s (returned p rx (csSet .high s))
  /-- The release of a command that failed: the operation aborts with a bus error. -/
  | raises {p : Purpose} {s : State} {x : XferAnswer} {e : Error} {env : Env} :
      ((∃ v, e = .transport v) ∨ ∃ v, e = .gpio v) →
      (env.device = s.env.device ∨ ∃ k, env.device = s.env.device.map (RefDevice.lose k p.atRisk.1 p.atRisk.2)) →
      CommandStep tx (.release x) p s (State.abort p.keepsMode e { csSet .high s with env := env })

theorem advance_command {s : State} {tx : List Byte} {ph : Phase} {p : Purpose} (h : s.activity = .framing tx ph p) :
    CommandStep tx ph p s (advance s) := by
  cases ph with
  | assert =>
    simp only [advance, h]
    cases he : s.env.csAnswer with
    | ok =>
      rw [assertStep_ok he]
      exact .asserted he
    | fail v =>
      rw [assertStep_fail he]
      exact .assertFails he
  | exchange =>
    simp only [advance, h]
    cases he : s.env.xferAnswer tx with
    | ok =>
      rw [exchangeStep_ok he]
      exact .exchanged he
    | fail v =>
      rw [exchangeStep_fail he]
      exact .exchangeFails he
  | release x =>
    simp only [advance, h]
    by_cases hx : (∃ rx, x = .ok rx) ∧ s.env.csAnswer = .ok
    · obtain ⟨⟨rx, rfl⟩, hx⟩ := hx
      rw [releaseStep_ok hx]
      exact .released hx
    · obtain ⟨e, env, h1, h2, h3⟩ := releaseStep_raises (p := p) hx
      rw [h3]
      exact .raises h1 h2

/-! ### What follows a command -/

/-- The outcomes of what follows a command that returned `rx`, by what its frame was for. -/
inductive Returns (rx : List Byte) : Purpose → State → State → Prop
  /-- `init` found WIP or WEL set (R100). -/
  | unexpectedStatus {s : State} : Returns rx .initStatus s (s.abort true .unexpectedStatus)
  /-- `init` succeeds (R100). -/
  | initialized {s : State} : Returns rx .initStatus s ({ s with mode := .idle }.finish .ok)
  /-- `read_status` succeeds (R118). -/
  | status {s : State} : Returns rx .hostStatus s (s.finish (.okStatus (statusIn rx)))
  /-- `read` succeeds (R119). -/
  | read {s : State} {addr : HostAddr} {n : Nat} :
      Returns rx (.hostRead addr n) s ({ s with buffer := dataIn n rx }.finish (.okData (dataIn n rx)))
  /-- The write command follows its write-enable (R101). -/
  | enabled {s : State} {c : Chunk} {todo : List Chunk} : Returns rx (.pageEnable c todo) s
      { s with mode := .writeEnabled, activity := .framing (writeFrame c.addr c.bytes) .assert (.pageData c todo) }
  /-- The first poll follows the write command (R101). -/
  | sent {s : State} {c : Chunk} {todo : List Chunk} {tx : List Byte} {env : Env} :
      (∃ d, tx = rdsrFrame d) → env.device = s.env.device → Returns rx (.pageData c todo) s
        { s with mode := .busy, env := env, activity := .framing tx .assert (.pagePoll c todo) }
  /-- A poll follows one that read WIP = 1 (R102). -/
  | busy {s : State} {c : Chunk} {todo : List Chunk} {tx : List Byte} {env : Env} : statusWip (statusIn rx) = true →
      (∃ d, tx = rdsrFrame d) → env.device = s.env.device → Returns rx (.pagePoll c todo) s
        { s with env := env, activity := .framing tx .assert (.pagePoll c todo) }
  /-- The last page write is done (R109, R112). -/
  | done {s : State} {c : Chunk} :
      statusWip (statusIn rx) = false → Returns rx (.pagePoll c []) s ({ s with mode := .idle }.finish .ok)
  /-- The next page write starts (R109, R112). -/
  | next {s : State} {c c' : Chunk} {todo : List Chunk} : statusWip (statusIn rx) = false →
      c'.addr ≤ Config.maxAddr → Returns rx (.pagePoll c (c' :: todo)) s
        { s with mode := .idle, activity := .framing wrenFrame .assert (.pageEnable c' todo) }
  /-- The next page write is above the array (R107, R108). -/
  | outOfBounds {s : State} {c c' : Chunk} {todo : List Chunk} : statusWip (statusIn rx) = false →
      Config.maxAddr < c'.addr → Returns rx (.pagePoll c (c' :: todo)) s
        ({ s with mode := .idle }.abort false .addressOutOfBounds)
  /-- A codec function called on its own returns (log 6). -/
  | call {s : State} {f : CodecCall} : Returns rx (.call f) s (s.finish (callResult f rx))

theorem returned_returns (p : Purpose) (rx : List Byte) (s : State) : Returns rx p s (returned p rx s) := by
  cases p with
  | initStatus =>
    simp only [returned, initRead]
    split <;> constructor
  | hostStatus => exact .status
  | hostRead => exact .read
  | pageEnable => exact .enabled
  | pageData => exact .sent ⟨_, rfl⟩ rfl
  | call => exact .call
  | pagePoll c todo =>
    simp only [returned, polled]
    split
    · exact .busy (by assumption) ⟨_, rfl⟩ rfl
    · cases todo with
      | nil => exact .done (by simp_all)
      | cons c' todo =>
        simp only [writeRest, startPageWrite]
        split
        · exact .outOfBounds (by simp_all) (by assumption)
        · exact .next (by simp_all) (by omega)

theorem returned_trace (p : Purpose) (rx : List Byte) (s : State) : (returned p rx s).trace = s.trace := by
  have h := returned_returns p rx s
  generalize returned p rx s = t at *
  cases h <;> rfl

theorem returned_cs (p : Purpose) (rx : List Byte) (s : State) : (returned p rx s).cs = s.cs := by
  have h := returned_returns p rx s
  generalize returned p rx s = t at *
  cases h <;> rfl

theorem returned_host (p : Purpose) (rx : List Byte) (s : State) : (returned p rx s).host = s.host := by
  have h := returned_returns p rx s
  generalize returned p rx s = t at *
  cases h <;> rfl

theorem returned_device (p : Purpose) (rx : List Byte) (s : State) :
    (returned p rx s).env.device = s.env.device := by
  have h := returned_returns p rx s
  generalize returned p rx s = t at *
  cases h <;> first | rfl | assumption

/-! ### The next interaction -/

/-- With no operation in progress there is none. -/
theorem advance_waiting {s : State} (h : s.activity = .waiting) : advance s = s := by simp only [advance, h]

/-- The first step of `init` (R100). -/
theorem advance_driving {s : State} (h : s.activity = .driving) :
    (∃ v, s.env.csAnswer = .fail v ∧ advance s = (csSet .high s).abort true (.gpio v)) ∨
    (s.env.csAnswer = .ok ∧ advance s = sendStatus .initStatus (csSet .high s)) := by
  simp only [advance, h]
  cases s.env.csAnswer with
  | ok => exact .inr ⟨rfl, rfl⟩
  | fail v => exact .inl ⟨v, rfl, rfl⟩

/-- No interaction touches the host's side. -/
theorem advance_host (s : State) : (advance s).host = s.host := by
  match h : s.activity with
  | .waiting => rw [advance_waiting h]
  | .driving =>
    obtain ⟨v, -, e⟩ | ⟨-, e⟩ := advance_driving h <;> rw [e] <;> rfl
  | .framing tx ph p =>
    have h := advance_command h
    generalize advance s = t at *
    cases h <;> first | rfl | exact returned_host _ _ _

/-- One interaction is one event, an exchange where the frame in progress is exchanged (R46). -/
theorem advance_trace {s : State} (h : s.activity ≠ .waiting) :
    ∃ ev, (advance s).trace = s.trace ++ [ev] ∧
      (exchangesOf [ev] = [] ∨ ∃ tx p, s.activity = .framing tx .exchange p ∧ framesOf [ev] = [tx]) := by
  match ha : s.activity with
  | .waiting => exact absurd ha h
  | .driving =>
    obtain ⟨v, -, e⟩ | ⟨-, e⟩ := advance_driving ha <;> rw [e] <;> exact ⟨_, rfl, .inl (exchangesOf_csEvent _ _)⟩
  | .framing tx ph p =>
    have h := advance_command ha
    generalize advance s = t at *
    cases h
    · exact ⟨_, rfl, .inl rfl⟩
    · exact ⟨_, rfl, .inl (exchangesOf_csEvent _ _)⟩
    · exact ⟨_, rfl, .inr ⟨_, _, rfl, framesOf_xferEvent _ _⟩⟩
    · exact ⟨_, rfl, .inr ⟨_, _, rfl, framesOf_xferEvent _ _⟩⟩
    · rw [returned_trace]
      exact ⟨_, rfl, .inl (exchangesOf_csEvent _ _)⟩
    · exact ⟨_, rfl, .inl (exchangesOf_csEvent _ _)⟩

/-- The attached device changes at an exchange that went through, and where a frame failed (R61, R70; log 24). -/
theorem advance_device (s : State) :
    (advance s).env.device = s.env.device ∨
    ∃ tx ph p, s.activity = .framing tx ph p ∧
      ((ph = .exchange ∧ (advance s).env.device = s.env.device.map fun d => (devExchange d tx).2) ∨
       (ph ≠ .assert ∧ ∃ k, (advance s).env.device = s.env.device.map (RefDevice.lose k p.atRisk.1 p.atRisk.2))) := by
  match h : s.activity with
  | .waiting => exact .inl (by rw [advance_waiting h])
  | .driving =>
    obtain ⟨v, -, e⟩ | ⟨-, e⟩ := advance_driving h <;> rw [e] <;> exact .inl rfl
  | .framing tx ph p =>
    have h := advance_command h
    generalize advance s = t at *
    cases h with
    | asserted => exact .inl rfl
    | assertFails => exact .inl rfl
    | exchanged he => exact .inr ⟨_, _, _, rfl, .inl ⟨rfl, by simp [exchange, he]⟩⟩
    | exchangeFails he =>
      refine .inr ⟨_, _, _, rfl, .inr ⟨nofun, (s.env.drawXfer tx).2.drawn, ?_⟩⟩
      simp [exchange, he, State.lose]
    | released => exact .inl (by rw [returned_device]; rfl)
    | raises _ hd => exact hd.imp id fun hd => ⟨_, _, _, rfl, .inr ⟨nofun, hd⟩⟩

/-- Only the end of a `read` that succeeds writes the host's buffer (R119). -/
theorem advance_buffer (s : State) :
    (advance s).buffer = s.buffer ∨
    ∃ tx rx addr n, s.activity = .framing tx (.release (.ok rx)) (.hostRead addr n) ∧
      (advance s).result = some (.okData (dataIn n rx)) := by
  match h : s.activity with
  | .waiting => exact .inl (by rw [advance_waiting h])
  | .driving =>
    obtain ⟨v, -, e⟩ | ⟨-, e⟩ := advance_driving h <;> rw [e] <;> exact .inl rfl
  | .framing tx ph p =>
    have h := advance_command h
    generalize advance s = t at *
    cases h with
    | released =>
      rename_i rx _
      have h := returned_returns p rx (csSet .high s)
      generalize returned p rx (csSet .high s) = t at *
      cases h <;> first | exact .inl rfl | exact .inr ⟨_, _, _, _, rfl, rfl⟩
    | _ => exact .inl rfl

/-! ### A step -/

/-- Everything a step can do: the host's reset, the next interaction, waiting, or the next request (R117, R145, R159).
-/
theorem step_cases {s t : State} (h : step s = .next t) :
    (s.host.resetIn = some 0 ∧ t = s.resetBlock) ∨
    (s.host.resetIn ≠ some 0 ∧ s.activity ≠ .waiting ∧ t = advance { s with host := s.host.tick }) ∨
    (s.host.resetIn ≠ some 0 ∧ s.activity = .waiting ∧ s.host.requests = [] ∧ t = { s with host := s.host.tick }) ∨
    (s.host.resetIn ≠ some 0 ∧ s.activity = .waiting ∧
      ∃ r rest i, s.host.requests = r :: rest ∧ decode r = .ok i ∧
        exec i { s with host := { s.host.tick with requests := rest } } = .next t) := by
  by_cases hr : s.host.resetIn = some 0
  · rw [step_reset hr, Host.Outcome.next.injEq] at h
    exact .inl ⟨hr, h.symm⟩
  by_cases ha : s.activity = .waiting
  · rw [step_waiting hr ha] at h
    simp only [takeRequest, tick_requests] at h
    split at h
    · cases h
      exact .inr (.inr (.inl ⟨hr, ha, by assumption, rfl⟩))
    · split at h
      · cases h
      · exact .inr (.inr (.inr ⟨hr, ha, _, _, _, by assumption, by assumption, h⟩))
  · rw [step_running hr ha, Host.Outcome.next.injEq] at h
    exact .inr (.inl ⟨hr, ha, h.symm⟩)

end Sys2Proof.Machine
end

