-- ==== Sys2Proof/Laws/Splitter.lean ====
section
/-! SUPPORT. The laws of the splitter's two loops (R109, R112): how many chunks they make, which, and where. -/

namespace Sys2Proof.Machine

/-- No data left, no further chunk. -/
@[simp] theorem laterChunks_nil (fuel cur : Nat) : laterChunks fuel cur [] = [] := by cases fuel <;> rfl

/-- The loop of a write makes one chunk per page of data, the last page perhaps shorter (R109). -/
theorem laterChunks_length (fuel cur : Nat) (rest : List Byte) (h : rest.length ≤ fuel) :
    (laterChunks fuel cur rest).length = (rest.length + 31) / 32 := by
  induction fuel generalizing cur rest with
  | zero => cases rest <;> simp_all [laterChunks]
  | succ fuel ih =>
    cases rest with
    | nil => simp
    | cons b rest =>
      simp only [laterChunks, List.length_cons, Config.pageSize]
      rw [ih]
      · simp only [List.length_drop, List.length_cons]
        omega
      · simp only [List.length_drop, List.length_cons] at *
        omega

/-- Chunk `j` of the loop of a write: at the `j`-th page from the cursor, the `j`-th page of the data (R109). -/
theorem laterChunks_get (fuel cur : Nat) (rest : List Byte) (h : rest.length ≤ fuel) (j : Nat)
    (hj : j < (rest.length + 31) / 32) :
    (laterChunks fuel cur rest)[j]? = some ⟨cur + 32 * j, (rest.drop (32 * j)).take 32⟩ := by
  induction fuel generalizing cur rest j with
  | zero => cases rest <;> simp_all
  | succ fuel ih =>
    cases rest with
    | nil => simp at hj
    | cons b rest =>
      simp only [laterChunks, Config.pageSize]
      cases j with
      | zero => simp
      | succ j =>
        simp only [List.length_cons] at h hj
        rw [List.getElem?_cons_succ, ih _ _ (by simp only [List.length_drop, List.length_cons]; omega) j
          (by simp only [List.length_drop, List.length_cons]; omega), List.drop_drop,
          show cur + 32 + 32 * j = cur + 32 * (j + 1) by omega, show 32 + 32 * j = 32 * (j + 1) by omega]

/-- The chunks of the loop of a write are whole page starts from its cursor. -/
theorem laterChunks_from (fuel cur : Nat) (rest : List Byte) : ChunksFrom cur (laterChunks fuel cur rest) := by
  induction fuel generalizing cur rest with
  | zero => trivial
  | succ fuel ih =>
    cases rest with
    | nil => trivial
    | cons b rest => exact ⟨rfl, by simp only [List.length_take]; omega, ih _ _⟩

/-- The chunks of the loop of an erase are whole page starts from its cursor. -/
theorem zeroPages_from (n cur : Nat) : ChunksFrom cur (zeroPages n cur) := by
  induction n generalizing cur with
  | zero => trivial
  | succ n ih => exact ⟨rfl, by simp [zeros], ih _⟩

/-- A chunk of whole page starts from a page-aligned cursor is at offset 0 and no longer than its page. -/
theorem chunksFrom_get {cur : Nat} {l : List Chunk} (h : cur % 32 = 0) (hc : ChunksFrom cur l) (j : Nat) (c : Chunk)
    (hj : l[j]? = some c) : pageOff c.addr = 0 ∧ c.bytes.length ≤ 32 := by
  induction l generalizing cur j with
  | nil => simp at hj
  | cons x l ih =>
    obtain ⟨h1, h2, h3⟩ := hc
    cases j with
    | zero =>
      simp only [List.getElem?_cons_zero, Option.some.injEq] at hj
      subst hj
      exact ⟨by rw [h1]; exact h, h2⟩
    | succ j => exact ih (by simp only [Config.pageSize]; omega) h3 j (by simpa using hj)

end Sys2Proof.Machine
end

