-- ==== Sys2Proof/Laws/OnDevice.lean ====
section
/-! SUPPORT. What the block's frames do on the reference device (R70, R71): a frame, a completion poll and a page write,
each as the run of its interactions. -/

namespace Sys2Proof.Machine

/-! ### The device's answers to the block's frames -/

theorem devExchange_wren {d : RefDevice} (hb : d.busy = 0) : (devExchange d wrenFrame).2 = { d with wel := true } := by
  simp [devExchange, hb, idleExchange, wrenFrame]

/-- A write frame with data, write-enabled: the array changes, and the write cycle starts (R70). -/
theorem devExchange_write {d : RefDevice} {a : Nat} {chunk : List Byte} (hb : d.busy = 0) (hw : d.wel = true)
    (hc : chunk ≠ []) : (devExchange d (writeFrame a chunk)).2 = acceptWrite d (writeFrame a chunk) := by
  have : 1 ≤ chunk.length := List.length_pos_iff.mpr hc
  have h4 : 4 ≤ (writeFrame a chunk).length := by
    simp only [writeFrame, List.length_cons]
    omega
  simp only [devExchange, hb, idleExchange]
  rw [if_neg (by omega), if_neg (by simp [writeFrame]), if_neg (by simp [writeFrame]), if_neg (by simp [writeFrame]),
    if_neg (by simp [writeFrame]), if_pos ⟨rfl, h4, hw⟩]

/-- A write frame without data is ignored (R70). -/
theorem devExchange_write_nil {d : RefDevice} {a : Nat} (hb : d.busy = 0) : (devExchange d (writeFrame a [])).2 =
  d := by
  simp [devExchange, hb, idleExchange, writeFrame]

/-- The status byte the device answers is the one before the answer counts (R70, R71). -/
theorem devExchange_rdsr_fst (d : RefDevice) (dummy : Byte) : (devExchange d (rdsrFrame dummy)).1 = [0, d.status] := by
  simp only [devExchange, busyExchange, idleExchange, rdsrFrame]
  split <;> simp [statusAnswer, zeros]

theorem devExchange_rdsr_idle {d : RefDevice} (hb : d.busy = 0) (dummy : Byte) :
    (devExchange d (rdsrFrame dummy)).2 = d := by
  simp [devExchange, hb, idleExchange, rdsrFrame]

theorem devExchange_rdsr_busy {d : RefDevice} {n : Nat} (hb : d.busy = n + 1) (dummy : Byte) :
    (devExchange d (rdsrFrame dummy)).2 =
      if n = 0 then { d with busy := 0, wip := false, wel := false } else { d with busy := n } := by
  simp [devExchange, hb, busyExchange, rdsrFrame]

/-- WIP as the block reads it from the device's answer to a read-status frame. -/
theorem statusIn_device (d : RefDevice) (dummy : Byte) :
    statusWip (statusIn (devExchange d (rdsrFrame dummy)).1) = d.wip := by
  rw [devExchange_rdsr_fst]
  show statusWip (decodeStatus d.status) = d.wip
  unfold RefDevice.status
  cases d.wip <;> cases d.wel <;> rfl

/-- The device after a write frame sent to it idle and write-enabled: its write cycle runs, unless the chunk is empty.
-/
theorem devExchange_chunk_busy {d : RefDevice} (a : Nat) (chunk : List Byte) (hb : d.busy = 0) (hw : d.wip = false)
    (he : d.wel = true) :
    (devExchange d (writeFrame a chunk)).2.busy = (if chunk = [] then 0 else d.busyPolls) ∧
    ((devExchange d (writeFrame a chunk)).2.wip = true ↔ 0 < (devExchange d (writeFrame a chunk)).2.busy) := by
  by_cases hnil : chunk = []
  · subst hnil
    rw [devExchange_write_nil hb]
    simp [hb, hw]
  · rw [devExchange_write hb he hnil, if_neg hnil, acceptWrite]
    split
    · exact ⟨rfl, by simp; omega⟩
    · exact ⟨by show d.busy = _; omega, by simp [hb, hw]⟩

/-- And its array, for a chunk inside a page: the bytes are at their addresses and every other byte is as before. -/
theorem devExchange_chunk_byte {d : RefDevice} {a : Nat} {chunk : List Byte} (hm : Memory.wf d.fill d.arr)
    (hb : d.busy = 0) (he : d.wel = true) (ha : a ≤ Config.maxAddr)
    (hc : pageOff a + chunk.length ≤ Config.pageSize) :
    Memory.wf d.fill (devExchange d (writeFrame a chunk)).2.arr ∧
    ∀ b, (devExchange d (writeFrame a chunk)).2.byte b =
      if h : a ≤ b ∧ b < a + chunk.length then chunk[b - a]'(by omega) else d.byte b := by
  have hcap : a < Config.capacity := by
    simp only [Config.maxAddr, Config.capacity, Config.addrBits] at *
    omega
  by_cases hnil : chunk = []
  · subst hnil
    rw [devExchange_write_nil hb]
    refine ⟨hm, fun b => ?_⟩
    rw [dif_neg (by simp only [List.length_nil]; omega)]
  · rw [devExchange_write hb he hnil]
    have hda : deviceAddr (writeFrame a chunk) = a := deviceAddr_frame chunk hcap
    have hdr : (writeFrame a chunk).drop 3 = chunk := rfl
    have hbytes := fun b => memRead_storePayload hcap chunk 0 hm (by omega) b
    have hwf := storePayload_wf hcap chunk 0 hm
    simp only [acceptWrite, hda, hdr]
    split <;> exact ⟨hwf, hbytes⟩

/-! ### Runs -/

/-- The block on the reference device `d` with nothing decided beside it and no reset on its way. -/
structure Runs (s : State) (d : RefDevice) : Prop where
  env : s.env.Attached d
  noReset : s.host.resetIn = none

/-- What a run of a page write's frames leaves alone. -/
structure SameSide (s t : State) : Prop where
  result : t.result = s.result
  buffer : t.buffer = s.buffer
  host : t.host = s.host

theorem SameSide.trans {s t u : State} (h : SameSide s t) (h' : SameSide t u) : SameSide s u :=
  ⟨h'.result.trans h.result, h'.buffer.trans h.buffer, h'.host.trans h.host⟩

/-- A frame, from its assert: three interactions, the device's answer, and the device after it. -/
theorem Runs.frame {s : State} {d : RefDevice} {tx : List Byte} {p : Purpose} (h : Runs s d)
    (ha : s.activity = .framing tx .assert p) :
    runFor 3 s = .next (returned p (devExchange d tx).1 (afterFrame s tx (devExchange d tx).1)) ∧
    Runs (afterFrame s tx (devExchange d tx).1) (devExchange d tx).2 :=
  have hf := frameOk_attached tx h.env
  ⟨run_frame h.noReset ha hf.1, hf.2, h.noReset⟩

/-- The completion poll of a device with `n` busy answers due: `n + 1` polls, and then what follows the page write. -/
theorem Runs.polls {c : Chunk} {todo : List Chunk} : ∀ (n : Nat) {s : State} {d : RefDevice} {dummy : Byte},
    Runs s d → d.busy = n → (d.wip = true ↔ 0 < d.busy) →
    s.activity = .framing (rdsrFrame dummy) .assert (.pagePoll c todo) →
    ∃ v d', runFor (3 * (n + 1)) s = .next (writeRest todo { v with mode := .idle }) ∧ Runs v d' ∧ SameSide s v ∧
      v.cs = .high ∧ d'.busy = 0 ∧ d'.wip = false ∧ d'.arr = d.arr ∧ d'.fill = d.fill ∧ d'.busyPolls = d.busyPolls ∧
      unpolled v.trace = unpolled s.trace ∧
      ((framesOf v.trace).filter isRdsr).length = ((framesOf s.trace).filter isRdsr).length + n + 1 := by
  intro n
  induction n with
  | zero =>
    intro s d dummy h hb hi ha
    have hw : d.wip = false := by
      cases hd : d.wip
      · rfl
      · have := hi.mp hd
        omega
    obtain ⟨hrun, hnext⟩ := h.frame ha
    rw [devExchange_rdsr_idle hb] at hnext
    refine ⟨_, d, ?_, hnext, ⟨rfl, rfl, rfl⟩, rfl, hb, hw, rfl, rfl, rfl, ?_, ?_⟩
    · rw [hrun, returned, polled, statusIn_device, hw]
      rfl
    · simp [unpolled, framesOf, exchangesOf, isRdsr, rdsrFrame]
    · simp [framesOf, exchangesOf, isRdsr, rdsrFrame]
  | succ n ih =>
    intro s d dummy h hb hi ha
    have hw : d.wip = true := hi.mpr (by omega)
    obtain ⟨hrun, hnext⟩ := h.frame ha
    rw [devExchange_rdsr_busy hb] at hnext
    rw [returned, polled, statusIn_device, hw, if_pos rfl] at hrun
    obtain ⟨t, ht⟩ : ∃ t, t = sendStatus (.pagePoll c todo)
      (afterFrame s (rdsrFrame dummy) (devExchange d (rdsrFrame dummy)).1) := ⟨_, rfl⟩
    rw [← ht] at hrun
    obtain ⟨d1, hd1, h1, h1', h2, h3, h4⟩ : ∃ d1 : RefDevice, Runs t d1 ∧ d1.busy = n ∧ (d1.wip = true ↔ 0 < d1.busy) ∧
        d1.arr = d.arr ∧ d1.fill = d.fill ∧ d1.busyPolls = d.busyPolls := by
      rw [ht]
      split at hnext
      · exact ⟨_, ⟨hnext.env.drawDummies 1, hnext.noReset⟩, by simp_all, by simp, rfl, rfl, rfl⟩
      · exact ⟨_, ⟨hnext.env.drawDummies 1, hnext.noReset⟩, rfl, by simp only [hw, true_iff]; omega, rfl, rfl, rfl⟩
    obtain ⟨v, d', e1, e2, e3, e4, e5, e6, e7, e8, e9, e10, e11⟩ := ih hd1 h1 h1' (by rw [ht]; rfl)
    have hside : SameSide s t := by
      rw [ht]
      exact ⟨rfl, rfl, rfl⟩
    have htr : t.trace = (afterFrame s (rdsrFrame dummy) (devExchange d (rdsrFrame dummy)).1).trace := by
      rw [ht]
      rfl
    refine ⟨v, d', ?_, e2, hside.trans e3, e4, e5, e6, e7.trans h2, e8.trans h3, e9.trans h4, ?_, ?_⟩
    · rw [show 3 * (n + 1 + 1) = 3 + 3 * (n + 1) by omega, runFor_add hrun, e1]
    · rw [e10, htr]
      simp [unpolled, framesOf, exchangesOf, isRdsr, rdsrFrame]
    · rw [e11, htr]
      simp [framesOf, exchangesOf, isRdsr, rdsrFrame]
      omega

/-- A page write on the device, idle, from its write-enable (R101): it completes, the device idle again, its bytes at
their addresses and no other changed; what follows it comes next. -/
theorem Runs.pageWrite {s : State} {d : RefDevice} {c : Chunk} {todo : List Chunk} (h : Runs s d) (hb : d.busy = 0)
    (hw : d.wip = false) (hs : s.activity = .framing wrenFrame .assert (.pageEnable c todo)) :
    ∃ n v d', runFor n s = .next (writeRest todo { v with mode := .idle }) ∧ Runs v d' ∧ SameSide s v ∧ v.cs = .high ∧
      d'.busy = 0 ∧ d'.wip = false ∧ d'.fill = d.fill ∧ d'.busyPolls = d.busyPolls ∧
      (Memory.wf d.fill d.arr → c.addr ≤ Config.maxAddr → pageOff c.addr + c.bytes.length ≤ Config.pageSize →
        Memory.wf d'.fill d'.arr ∧ ∀ b, d'.byte b =
          if h : c.addr ≤ b ∧ b < c.addr + c.bytes.length then c.bytes[b - c.addr]'(by omega) else d.byte b) ∧
      unpolled v.trace = unpolled s.trace ++ [wrenFrame, writeFrame c.addr c.bytes] ∧
      ((framesOf v.trace).filter isRdsr).length =
        ((framesOf s.trace).filter isRdsr).length + (if c.bytes = [] then 0 else d.busyPolls) + 1 := by
  obtain ⟨r1, n1⟩ := h.frame hs
  rw [devExchange_wren hb] at n1
  obtain ⟨t1, e1⟩ : ∃ t, t = pageEnabled c todo (afterFrame s wrenFrame (devExchange d wrenFrame).1) := ⟨_, rfl⟩
  obtain ⟨de, hde⟩ : ∃ de, de = { d with wel := true } := ⟨_, rfl⟩
  have h1 : Runs t1 de := by
    rw [e1, hde]
    exact ⟨n1.env, n1.noReset⟩
  obtain ⟨r2, n2⟩ := h1.frame (tx := writeFrame c.addr c.bytes) (p := .pageData c todo) (by rw [e1]; rfl)
  have hfill : (devExchange de (writeFrame c.addr c.bytes)).2.fill = d.fill := by rw [devExchange_fill, hde]
  have hpolls : (devExchange de (writeFrame c.addr c.bytes)).2.busyPolls = d.busyPolls := by
    rw [devExchange_busyPolls, hde]
  obtain ⟨hbusy, hwip⟩ := devExchange_chunk_busy (d :=
    de) c.addr c.bytes (by rw [hde]; exact hb) (by rw [hde]; exact hw)
    (by rw [hde])
  obtain ⟨t2, e2⟩ : ∃ t, t = pageSent c todo
    (afterFrame t1 (writeFrame c.addr c.bytes) (devExchange de (writeFrame c.addr c.bytes)).1) := ⟨_, rfl⟩
  rw [returned, ← e2] at r2
  have h2 : Runs t2 (devExchange de (writeFrame c.addr c.bytes)).2 := by
    rw [e2]
    exact ⟨n2.env.drawDummies 1, n2.noReset⟩
  obtain ⟨v, d', g1, g2, g3, g4, g5, g6, g7, g8, g9, g10, g11⟩ :=
    h2.polls _ hbusy hwip (c := c) (todo := todo) (by rw [e2]; rfl)
  have hbp : de.busyPolls = d.busyPolls := by rw [hde]
  rw [hbp] at g1 g11
  have htr : t2.trace = s.trace ++ [.csLow, .xfer wrenFrame (devExchange d wrenFrame).1, .csHigh] ++
      [.csLow, .xfer (writeFrame c.addr c.bytes) (devExchange de (writeFrame c.addr c.bytes)).1, .csHigh] := by
    rw [e2, e1]
    rfl
  have hside : SameSide s t2 := by
    rw [e2, e1]
    exact ⟨rfl, rfl, rfl⟩
  refine ⟨3 + (3 + 3 * ((if c.bytes = [] then 0 else d.busyPolls) + 1)), v, d', ?_, g2, hside.trans g3, g4, g5, g6,
    g8.trans hfill, g9.trans hpolls, fun hm ha hc => ?_, ?_, ?_⟩
  · rw [runFor_add r1]
    show runFor _ (pageEnabled _ _ _) = _
    rw [← e1, runFor_add r2, g1]
  · obtain ⟨hwf, hbyte⟩ := devExchange_chunk_byte (d := de) (chunk := c.bytes) (by rw [hde]; exact hm)
      (by rw [hde]; exact hb) (by rw [hde]) ha hc
    refine ⟨?_, fun b => ?_⟩
    · rw [g7, g8, hfill]
      rw [hde] at hwf
      rw [hde]
      exact hwf
    · rw [RefDevice.byte, g7, g8]
      refine (hbyte b).trans ?_
      rw [hde]
      rfl
  · rw [g10, htr]
    simp [unpolled, framesOf, exchangesOf, isRdsr, wrenFrame, writeFrame]
  · rw [g11, htr]
    simp [framesOf, exchangesOf, isRdsr, wrenFrame, writeFrame]

end Sys2Proof.Machine
end

