-- ==== Sys2Proof/Laws/PerInstr.lean ====
section
/-! SUPPORT. Statements made once per instruction. -/

namespace Sys2Proof.Laws.LeadingCode

/-- The code a request is read by: the `op` of a host request (R83), the opcode byte of a frame (R79). -/
def leadingCode : Request → Option Nat
  | .host r => some r.op.toNat
  | .codec frame => frame.head?.map BitVec.toNat

/-- The code of the instruction's row in the opcode table. -/
def tableCode : Instr → Nat
  | .cmdWren => 0x06
  | .cmdWrdi => 0x04
  | .cmdRdsr => 0x05
  | .cmdRead _ _ => 0x03
  | .cmdWrite _ _ => 0x02
  | .cmdWrsr => 0x01
  | .init => 0b000
  | .readStatus => 0b001
  | .read _ _ => 0b010
  | .writeBytes _ _ => 0b011
  | .eraseSectors _ _ => 0b100
  | .eraseAll => 0b101

/-- An encoded instruction leads with its row's code, whatever its operands and the dummy bytes. -/
def Statement (i : Instr) : Prop := ∀ d : Byte, leadingCode (encode d i) = some (tableCode i)

theorem cmdWren : Statement .cmdWren := fun _ => rfl
theorem cmdWrdi : Statement .cmdWrdi := fun _ => rfl
theorem cmdRdsr : Statement .cmdRdsr := fun _ => rfl
theorem cmdRead (addr : HostAddr) (n : Nat) : Statement (.cmdRead addr n) := fun _ => rfl
theorem cmdWrite (addr : HostAddr) (chunk : List Byte) : Statement (.cmdWrite addr chunk) := fun _ => rfl
theorem cmdWrsr : Statement .cmdWrsr := fun _ => rfl
theorem init : Statement .init := fun _ => rfl
theorem readStatus : Statement .readStatus := fun _ => rfl
theorem read (addr : HostAddr) (n : Nat) : Statement (.read addr n) := fun _ => rfl
theorem writeBytes (addr : HostAddr) (data : List Byte) : Statement (.writeBytes addr data) := fun _ => rfl
theorem eraseSectors (addr : HostAddr) (amount : Nat) : Statement (.eraseSectors addr amount) := fun _ => rfl
theorem eraseAll : Statement .eraseAll := fun _ => rfl

end Sys2Proof.Laws.LeadingCode
end

