-- ==== Sys2Proof/Tests/Slice0.lean ====
section
/-! SUPPORT. Tests. Expected results come from spec/95_test_vectors.md (each test names its vectors) or from the
encodings of 30_encoding.md; after them, for each statement with hypotheses, a state and operands that meet them. -/

namespace Sys2Proof.Tests

open Sys2Proof.Machine

/-! ### Small states -/

/-- A waiting block with the environment's answers placed. -/
def placed (mode : Mode) (cs : List CsAnswer) (xfers : List XferAnswer) : State :=
  { State.reset with
    mode := mode
    cs := .high
    env := { csAnswers := cs.map some, xferAnswers := xfers.map some, dummies := [0xDD, 0xDD, 0xDD, 0xDD],
             choices := [], device := none, drawn := 0 } }

/-- A waiting block in mode Idle on a reference device. -/
def onDevice (d : RefDevice) : State :=
  { State.reset with mode := .idle, cs := .high, env := { State.reset.env with device := some d } }

/-- The reference device of the vectors: one busy answer, filled with zeros (R69, R72). -/
def freshDevice : RefDevice := RefDevice.fresh 1 0x00

/-- That device write-enabled. -/
def enabledDevice : RefDevice := { freshDevice with wel := true }

/-- Page writes of the array's first byte, its last byte, and its last page, and one above the array. -/
def firstByte : Chunk := { addr := 0, bytes := [1] }
def lastByte : Chunk := { addr := 4095, bytes := [7] }
def lastPage : Chunk := { addr := 4064, bytes := zeros 32 }
def above : Chunk := { addr := 4096, bytes := [1] }

/-- A block inside a frame. -/
def State.within (s : State) (tx : List Byte) (ph : Phase) (p : Purpose) : State :=
  { s with cs := match ph with | .assert => .high | .exchange => .low | .release _ => .low
           activity := .framing tx ph p }

/-- The next state, if there is one. -/
def stateOf : Host.Outcome State Fault Refusal → Option State
  | .next s => some s
  | .fault r => nomatch r
  | .refused _ => none

/-- The refusal, if it is one. -/
def refusalOf : Host.Outcome State Fault Refusal → Option Refusal
  | .next _ => none
  | .fault r => nomatch r
  | .refused why => some why

/-- The state some steps after an outcome. -/
def after (n : Nat) (o : Host.Outcome State Fault Refusal) : Option State :=
  (stateOf o).bind fun s => stateOf (runFor n s)

/-- What a host sees of a state: the result, the mode and the chip-select level (R46). -/
def seen (o : Option State) : Option (Option Result × Mode × CsLevel) := o.map fun s => (s.result, s.mode, s.cs)

/-- The bus event trace (R46). -/
def traceOf (o : Option State) : Option (List BusEvent) := o.map State.trace

/-- The interaction the block makes next. -/
def nextOf (o : Option State) : Option Activity := o.map State.activity

/-- Some bytes of the device's array. -/
def bytesOf (o : Option State) (addresses : List Nat) : Option (List Byte) :=
  o.bind fun s => s.env.device.map fun d => addresses.map d.byte

/-- "hello memory!" (95_test_vectors.md, Notation). -/
def hello : List Byte := [0x68, 0x65, 0x6C, 0x6C, 0x6F, 0x20, 0x6D, 0x65, 0x6D, 0x6F, 0x72, 0x79, 0x21]

/-! ### Well-formedness -/

/-- R97: an address above 4095. -/
theorem test_illformed_address : (Instr.cmdWrite 4096 [0x11]).wellFormed = false := by decide

/-- R97, R58: more bytes than a page. -/
theorem test_illformed_length : (Instr.cmdWrite 0 (List.replicate 33 0)).wellFormed = false := by decide

/-- R97, R58: a page boundary crossed. -/
theorem test_illformed_crossing : (Instr.cmdWrite 30 [1, 2, 3]).wellFormed = false := by decide

/-- V-C2: the last byte of the array. -/
theorem test_wellformed_last : (Instr.cmdWrite 0x0FFF [7]).wellFormed = true := by decide

/-! ### Decoding: words written out from 30_encoding.md -/

/-- R74, opcode `0000 0110`. -/
theorem test_decode_wren : decode (.codec [0b00000110]) = .ok .cmdWren := by decide
/-- R74, opcode `0000 0100`. -/
theorem test_decode_wrdi : decode (.codec [0b00000100]) = .ok .cmdWrdi := by decide
/-- R75, opcode `0000 0101` and any dummy byte. -/
theorem test_decode_rdsr : decode (.codec [0b00000101, 0xA5]) = .ok .cmdRdsr := by decide
/-- R76, V-C2: `03 FF FF dd`. -/
theorem test_decode_cmd_read : decode (.codec [0b00000011, 0xFF, 0xFF, 0x5A]) = .ok (.cmdRead 0xFFFF 1) := by decide
/-- R76, V-C2: `02 00 1E 68 65`, the address high byte first. -/
theorem test_decode_cmd_write :
    decode (.codec [0b00000010, 0x00, 0x1E, 0x68, 0x65]) = .ok (.cmdWrite 0x001E [0x68, 0x65]) := by decide
/-- R79, opcode `0000 0001`. -/
theorem test_decode_wrsr : decode (.codec [0b00000001]) = .ok .cmdWrsr := by decide
/-- R83, `op = 000`. -/
theorem test_decode_init : decode (.host { op := 0b000 }) = .ok .init := by decide
/-- R83, `op = 001`. -/
theorem test_decode_read_status : decode (.host { op := 0b001 }) = .ok .readStatus := by decide
/-- R83, P1: `op=010 addr=0x0000 n=32`. -/
theorem test_decode_read : decode (.host { op := 0b010, addr := 0x0000, count := 32 }) = .ok (.read 0 32) := by decide
/-- R83, P2: `op=011 addr=0x001E data=...`. -/
theorem test_decode_write_bytes :
    decode (.host { op := 0b011, addr := 0x001E, data := hello }) = .ok (.writeBytes 30 hello) := by decide
/-- R83, P3: `op=100 addr=0x0028 amount=2`. -/
theorem test_decode_erase_sectors :
    decode (.host { op := 0b100, addr := 0x0028, count := 2 }) = .ok (.eraseSectors 40 2) := by decide
/-- R83, `op = 101`. -/
theorem test_decode_erase_all : decode (.host { op := 0b101 }) = .ok .eraseAll := by decide
/-- R84, V-F3, V-F4: reserved `op` codes. -/
theorem test_decode_reserved :
    decode (.host { op := 0b110 }) = .error .reservedOp ∧
      decode (.host { op := 0b111 }) = .error .reservedOp := by decide
/-- R81, R82: frames the block never sends are rejected by name. -/
theorem test_decode_rejects :
    decode (.codec []) = .error .emptyFrame ∧ decode (.codec [0x07]) = .error .unsentOpcode ∧
    decode (.codec [0x06, 0x00]) = .error .badLength ∧ decode (.codec [0x05]) = .error .badLength ∧
    decode (.codec [0x02, 0x00, 0x1E, 1, 2, 3]) = .error .badWriteFrame := by decide
/-- The table's numbering: 8-bit rows are wire opcodes, 3-bit rows host codes (log 16). -/
theorem test_table_words :
    [6, 4, 5, 3, 2, 1].map (decodeTableWord 8) =
      [some .cmdWren, some .cmdWrdi, some .cmdRdsr, some (.cmdRead 0 0), some (.cmdWrite 0 []), some .cmdWrsr] ∧
    [0, 1, 2, 3, 4, 5, 6].map (decodeTableWord 3) =
      [some .init, some .readStatus, some (.read 0 0), some (.writeBytes 0 []), some (.eraseSectors 0 0),
        some .eraseAll, none] := by decide

/-! ### Shared arithmetic -/

/-- E8: `addr`, `fcl` and the next cursor. -/
theorem test_first_chunk :
    [0, 30, 31, 32, 40, 4090, 4095].map (fun a => (firstChunkLength a, nextPage a)) =
      [(32, 32), (2, 32), (1, 32), (32, 64), (24, 64), (6, 4096), (1, 4096)] := by decide

/-- V-C1: received, decoded, WIP, WEL, BP, SRWD. -/
theorem test_status_table :
    ([0x00, 0x03, 0x0C, 0x70, 0xF0, 0x7E, 0xFF] : List Byte).map
        (fun b => (decodeStatus b, statusWip (decodeStatus b), statusWel (decodeStatus b), statusBp (decodeStatus b),
          statusSrwd (decodeStatus b))) =
      [(0x00, false, false, 0, false), (0x03, true, true, 0, false), (0x0C, false, false, 3, false),
       (0x00, false, false, 0, false), (0x80, false, false, 0, true), (0x0E, false, true, 3, false),
       (0x8F, true, true, 3, true)] := by decide

/-- V-S1, V-S5, V-S6, V-S8, V-S9: the chunks of a write. -/
theorem test_split_write :
    [(0, 0), (1, 32), (30, 13), (16, 80), (4090, 10)].map
        (fun p => (splitWrite p.1 (zeros p.2)).map fun c => (c.addr, c.bytes.length)) =
      [[(0, 0)], [(1, 31), (32, 1)], [(30, 2), (32, 11)], [(16, 16), (32, 32), (64, 32)], [(4090, 6), (4096, 4)]] := by
  decide

/-- V-S13, V-S15, V-S16: the chunks of an erase. -/
theorem test_split_erase :
    [(40, 2), (4095, 1), (4064, 2)].map (fun p => (splitErase p.1 p.2).map fun c => (c.addr, c.bytes)) =
      [[(40, zeros 24), (64, zeros 32)], [(4095, [0])], [(4064, zeros 32), (4096, zeros 32)]] := by decide

/-! ### Instructions: at most two each, one frame at most -/

/-- V-C3 row 1: three interactions. -/
theorem test_wren : traceOf (after 2 (exec .cmdWren (placed .idle [.ok, .ok] [.ok [0xAA]]))) =
    some [.csLow, .xfer [0x06] [0xAA], .csHigh] := by decide
/-- V-C3 row 5: the assert fails; no exchange. -/
theorem test_wren_assert_fails :
    traceOf (stateOf (exec .cmdWren (placed .idle [.fail 1] []))) = some [.csLowFail 1] ∧
    seen (stateOf (exec .cmdWren (placed .idle [.fail 1] []))) = some (some (.error (.gpio 1)), .idle, .unknown) := by
  decide
/-- V-C2: the write-disable frame. -/
theorem test_wrdi : traceOf (after 2 (exec .cmdWrdi (placed .uninitialized [.ok, .ok] [.ok [0]]))) =
    some [.csLow, .xfer [0x04] [0], .csHigh] := by decide
/-- V-C3 row 3 with this frame: the exchange fails, the release follows. -/
theorem test_wrdi_exchange_fails :
    traceOf (after 2 (exec .cmdWrdi (placed .idle [.ok, .ok] [.fail 7]))) = some [.csLow, .xferFail [0x04] 7, .csHigh] ∧
    seen (after 2 (exec .cmdWrdi (placed .idle [.ok, .ok] [.fail 7]))) =
      some (some (.error (.transport 7)), .idle, .high) := by decide
/-- E9, V-C4: the second received byte, decoded. -/
theorem test_rdsr :
    seen (after 2 (exec .cmdRdsr (placed .idle [.ok, .ok] [.ok [0xFF, 0x83]]))) =
      some (some (.okStatus 0x83), .idle, .high) ∧
    seen (after 2 (exec .cmdRdsr (placed .idle [.ok, .ok] [.ok [0xFF, 0x00]]))) =
      some (some (.okStatus 0x00), .idle, .high) := by decide
/-- V-C2: the frame's second byte is the dummy byte. -/
theorem test_rdsr_frame : traceOf (after 2 (exec .cmdRdsr (placed .idle [.ok, .ok] [.ok [1, 2]]))) =
    some [.csLow, .xfer [0x05, 0xDD] [1, 2], .csHigh] := by decide
/-- V-C4: the bytes after the first three. -/
theorem test_cmd_read :
    seen (after 2 (exec (.cmdRead 0 2) (placed .idle [.ok, .ok] [.ok [0xAA, 0xBB, 0xCC, 0x01, 0x02]]))) =
      some (some (.okData [0x01, 0x02]), .idle, .high) := by decide
/-- V-C2: `ReadData(0xFFFF, 1)` is sent unchecked. -/
theorem test_cmd_read_frame : traceOf (after 2 (exec (.cmdRead 0xFFFF 1) (placed .idle [.ok, .ok] [.ok [0, 0, 0,
  9]]))) =
    some [.csLow, .xfer [0x03, 0xFF, 0xFF, 0xDD] [0, 0, 0, 9], .csHigh] := by decide
/-- V-C2: `WriteCmd(0x001E, [68 65])`. -/
theorem test_cmd_write :
    traceOf (after 2 (exec (.cmdWrite 0x001E [0x68, 0x65]) (placed .idle [.ok, .ok] [.ok [0, 0, 0, 0, 0]]))) =
      some [.csLow, .xfer [0x02, 0x00, 0x1E, 0x68, 0x65] [0, 0, 0, 0, 0], .csHigh] := by decide
/-- V-C3 row 4 with this frame: both fail; either error may be reported. -/
theorem test_cmd_write_both_fail :
    [true, false].map (fun c =>
        seen (after 2 (exec (.cmdWrite 0 [1])
          { placed .idle [.ok, .fail 2] [.fail 1] with
            env := { (placed .idle [.ok, .fail 2] [.fail 1]).env with choices := [c] } }))) =
      [some (some (.error (.transport 1)), .idle, .unknown), some (some (.error (.gpio 2)), .idle, .unknown)] :=
        by decide
/-- 93 row 2: refused. -/
theorem test_wrsr : refusalOf (exec .cmdWrsr State.reset) = some .writeStatusUnimplemented := by decide
/-- V-T1, V-T2, V-T3, V-T5, V-T6: `init` by the status it reads. -/
theorem test_init :
    ([0x00, 0x01, 0x02, 0x8C, 0x70] : List Byte).map
        (fun b => seen (after 3 (exec .init (placed .uninitialized [.ok, .ok, .ok] [.ok [0, b]])))) =
      [some (some .ok, .idle, .high), some (some (.error .unexpectedStatus), .uninitialized, .high),
       some (some (.error .unexpectedStatus), .uninitialized, .high), some (some .ok, .idle, .high),
       some (some .ok, .idle, .high)] := by decide
/-- V-T8, V-T9, V-T10, V-T11. -/
theorem test_init_fails :
    seen (stateOf (exec .init (placed .uninitialized [.fail 3] []))) =
      some (some (.error (.gpio 3)), .uninitialized, .unknown) ∧
    seen (after 3 (exec .init (placed .uninitialized [.ok, .ok, .ok] [.fail 4]))) =
      some (some (.error (.transport 4)), .uninitialized, .high) ∧
    seen (after 1 (exec .init (placed .uninitialized [.ok, .fail 5] []))) =
      some (some (.error (.gpio 5)), .uninitialized, .unknown) ∧
    refusalOf (exec .init (placed .idle [] [])) = some .alreadyInitialized := by decide
/-- V-F5 on the fresh device; V-F1 before `init`. -/
theorem test_read_status :
    seen (after 2 (exec .readStatus (onDevice freshDevice))) = some (some (.okStatus 0x00), .idle, .high) ∧
    refusalOf (exec .readStatus State.reset) = some .notInitialized := by decide
/-- V-E7. -/
theorem test_read_status_fails :
    seen (stateOf (exec .readStatus (placed .idle [.fail 6] []))) =
      some (some (.error (.gpio 6)), .idle, .unknown) := by decide
/-- V-F6 and V-F12's frame with the device's bytes. -/
theorem test_read :
    traceOf (after 2 (exec (.read 16 0) (placed .idle [.ok, .ok] [.ok [1, 2, 3]]))) =
      some [.csLow, .xfer [0x03, 0x00, 0x10] [1, 2, 3], .csHigh] ∧
    seen (after 2 (exec (.read 4094 4) (onDevice { freshDevice with arr := [(0, 7), (4095, 6)] }))) =
      some (some (.okData [0, 6, 7, 0]), .idle, .high) := by decide +kernel
/-- V-E5: the release fails. -/
theorem test_read_fails :
    seen (after 2 (exec (.read 0 4) (placed .idle [.ok, .fail 8] [.ok [0, 0, 0, 0, 0, 0, 0]]))) =
      some (some (.error (.gpio 8)), .idle, .unknown) := by decide
/-- P2 step 1: the straddling write starts `W(30, [68 65], 1)`, with `W(32, [6C .. 21], 1)` to follow. -/
theorem test_write_bytes :
    traceOf (stateOf (exec (.writeBytes 30 hello) (onDevice freshDevice))) = some [.csLow] ∧
    nextOf (stateOf (exec (.writeBytes 30 hello) (onDevice freshDevice))) =
      some (.framing [0x06] .exchange
        (.pageEnable { addr := 30, bytes := [0x68, 0x65] }
          [{ addr := 32, bytes := [0x6C, 0x6C, 0x6F, 0x20, 0x6D, 0x65, 0x6D, 0x6F, 0x72, 0x79, 0x21] }])) := by decide
/-- V-S18a: address 4096 is out of bounds before any bus activity, also with no data. -/
theorem test_write_bytes_out_of_bounds :
    seen (stateOf (exec (.writeBytes 4096 []) (onDevice freshDevice))) =
      some (some (.error .addressOutOfBounds), .idle, .high) ∧
    traceOf (stateOf (exec (.writeBytes 4096 []) (onDevice freshDevice))) = some [] := by decide
/-- V-S13: the first page write of `erase_sectors 40, 2` has 24 zeros, the second 32 at 64. -/
theorem test_erase_sectors :
    nextOf (stateOf (exec (.eraseSectors 40 2) (onDevice freshDevice))) =
      some (.framing [0x06] .exchange
        (.pageEnable { addr := 40, bytes := zeros 24 } [{ addr := 64, bytes := zeros 32 }])) := by decide
/-- V-F10: an erase of no pages. -/
theorem test_erase_sectors_of_none :
    refusalOf (exec (.eraseSectors 40 0) (onDevice freshDevice)) = some .eraseOfZeroPages := by decide
/-- V-E7 with this operation: the first assert fails. -/
theorem test_erase_all_fails :
    seen (stateOf (exec .eraseAll (placed .idle [.fail 9] []))) = some (some (.error (.gpio 9)), .idle, .unknown) := by
  decide
/-- 128 page writes (V-S17): the chunks of `erase_all`. -/
theorem test_erase_all_chunks : (splitErase 0 Config.pageCount).length = 128 := by decide +kernel

/-! ### Steps -/

/-- P2 step 1, the write command's exchange: 30 and 31 are written, 29 and 32 not. -/
theorem test_write_exchange :
    bytesOf (stateOf (step (State.within (onDevice enabledDevice) (writeFrame 30 [0x68, 0x65]) .exchange
        (.pageData { addr := 30, bytes := [0x68, 0x65] } [])))) [29, 30, 31, 32] = some [0, 0x68, 0x65, 0] := by decide
/-- V-E3: after a failed exchange of a write command the device is a draw, its bytes there free values (log 24). -/
theorem test_write_exchange_fails :
    (stateOf (step (State.within
        { placed .writeEnabled [] [.fail 9] with
          env := { (placed .writeEnabled [] [.fail 9]).env with device := some freshDevice } }
        (writeFrame 30 [0x68, 0x65]) .exchange (.pageData { addr := 30, bytes := [0x68, 0x65] } [])))).map
      (fun s => s.env.device) = some (some (freshDevice.lose 1 30 2)) := rfl
/-- R145 in the middle of a frame: a reset after `CS_LOW` abandons the write with no result; one that lands on a waiting
block keeps the finished result (log 4). -/
theorem test_reset :
    (stateOf (step { State.within (onDevice freshDevice) wrenFrame .exchange (.pageEnable firstByte []) with
        trace := [.csLow], host := { requests := [], resetIn := some 0 } })).map
      (fun s => ((s.mode, s.cs), s.result, s.trace)) = some ((.uninitialized, .unknown), none, [.csLow]) ∧
    seen (stateOf (step { onDevice freshDevice with
        result := some .ok, host := { requests := [], resetIn := some 0 } })) =
      some (some .ok, .uninitialized, .unknown) := by decide
/-- A block at the release of a poll that read the status byte `b`. -/
def polled (b : Byte) (todo : List Chunk) : State :=
  State.within (placed .busy [.ok] []) (rdsrFrame 0xDD) (.release (.ok [0, b])) (.pagePoll firstByte todo)
/-- V-T14: the poll tests WIP only: `0x83` repeats in mode Busy, `0x82` ends. -/
theorem test_poll_ends_on_wip :
    seen (stateOf (step (polled 0x83 []))) = some (none, .busy, .high) ∧
    nextOf (stateOf (step (polled 0x83 []))) =
      some (.framing [0x05, 0xDD] .assert (.pagePoll firstByte [])) ∧
    seen (stateOf (step (polled 0x82 []))) = some (some .ok, .idle, .high) := by decide
/-- P2 step 1, V-S12: the next page write follows; one past the end of the array fails. -/
theorem test_poll_goes_to_next_page :
    nextOf (stateOf (step (polled 0x00 [{ addr := 32, bytes := [7] }]))) =
      some (.framing [0x06] .assert (.pageEnable { addr := 32, bytes := [7] } [])) ∧
    seen (stateOf (step (polled 0x00 [{ addr := 4096, bytes := [7] }]))) =
      some (some (.error .addressOutOfBounds), .idle, .high) := by decide
/-- The request placed for a table word runs at the next step: `CMD_WREN`, and `read_status` before `init` (V-F1). -/
theorem test_fetch :
    step (State.reset.withFetchWord 8 6) = exec .cmdWren State.reset ∧
    step (State.reset.withFetchWord 3 1) = .refused .notInitialized := ⟨rfl, rfl⟩

/-! ### Witnesses: for each statement with hypotheses, a state and operands that meet all of them -/

/-- A waiting block with one request placed by the host. -/
def requested (r : Request) : State := State.reset.placeNext r

/-- The reference device with WIP stuck: no answer due and WIP = 1. -/
def stuckDevice : RefDevice := { freshDevice with wip := true }

/-- A block whose reset lands now, on a device that is busy or write-enabled. -/
def resetOn (d : RefDevice) : State := { onDevice d with host := { requests := [], resetIn := some 0 } }

/-- A block before the write command of the last byte of the array, the fresh device write-enabled. -/
def sendingLast (ph : Phase) (xfers : List XferAnswer) : State :=
  State.within
    { onDevice enabledDevice with
      mode := .writeEnabled
      env := { (onDevice enabledDevice).env with xferAnswers := xfers.map some } }
    (writeFrame 4095 [7]) ph (.pageData lastByte [])

/-- A block before a poll of a page write, the answers placed. -/
def polling (todo : List Chunk) (cs : List CsAnswer) (xfers : List XferAnswer) : State :=
  State.within (placed .busy cs xfers) (rdsrFrame 0xDD) .assert (.pagePoll lastPage todo)

/-- The fresh device meets its own invariant. -/
theorem freshDevice_ok : freshDevice.Ok := ⟨by decide, by decide⟩

/-- So does a write-enabled one. -/
theorem enabledDevice_ok : enabledDevice.Ok := ⟨by decide, by decide⟩

/-- A waiting block on the fresh device meets the invariant. -/
theorem onDevice_inv : (onDevice freshDevice).Inv :=
  ⟨fun _ => ⟨.inr rfl, by decide⟩, nofun, fun h => absurd rfl h, nofun, nofun,
    fun d h => by cases h; exact freshDevice_ok⟩

/-- The machine at reset does. -/
theorem reset_inv : State.reset.Inv :=
  ⟨fun _ => ⟨.inl rfl, by decide⟩, nofun, fun h => absurd rfl h, nofun, nofun, nofun⟩

/-- A block inside a page write of the array's last byte does, at each of its three frames, before each interaction. -/
theorem within_inv {s : State} {tx : List Byte} {ph : Phase} {p : Purpose} (hs : p.Sends tx) (hm : p.InMode s.mode)
    (hr : s.result = none) (hl : ∀ rx, ph = .release (.ok rx) → rx.length = tx.length)
    (hp : ∀ c todo, p.pages = some (c, todo) → c.addr ≤ Config.maxAddr ∧
      pageOff c.addr + c.bytes.length ≤ Config.pageSize ∧ ChunksFrom (nextPage c.addr) todo)
    (hd : ∀ d, s.env.device = some d → d.Ok) : (State.within s tx ph p).Inv := by
  refine ⟨nofun, nofun, fun _ => hr, ?_, ?_, hd⟩
  · intro tx' ph' p' h
    cases h
    exact ⟨hs, hm, by cases ph <;> first | rfl | exact nofun, hl⟩
  · intro tx' ph' p' c todo h hpg
    cases h
    exact hp c todo hpg

/-- Before the write command of the array's last byte. -/
theorem sendingLast_inv (xfers : List XferAnswer) : (sendingLast .exchange xfers).Inv :=
  within_inv rfl rfl rfl nofun (by rintro c todo h; cases h; exact ⟨by decide, by decide, trivial⟩)
    (by rintro d h; cases h; exact enabledDevice_ok)

/-- Before a poll, the next page write out of bounds. -/
theorem polling_inv (cs : List CsAnswer) (xfers : List XferAnswer) :
    (polling [above] cs xfers).Inv :=
  within_inv ⟨_, rfl⟩ rfl rfl nofun
    (by rintro c todo h; cases h; exact ⟨by decide, by decide, rfl, by decide, trivial⟩) nofun

/-- Before the exchange of a frame of a host operation or a codec function that writes nothing. -/
theorem frame_inv {tx : List Byte} (p : Purpose) (m : Mode) (hs : p.Sends tx) (hm : p.InMode m) (hp : p.pages = none)
    (xfers : List XferAnswer) : (State.within (placed m [] xfers) tx .exchange p).Inv :=
  within_inv hs hm rfl nofun (by rintro c todo h; rw [hp] at h; cases h) nofun

theorem witness_DecodeEncode : (Instr.cmdWrite 0x0FE0 (List.replicate 32 0)).WellFormed := by decide

theorem witness_DecodedIsWellFormed : decode (.codec [0x02, 0x0F, 0xFF, 0x07]) = .ok (.cmdWrite 0x0FFF [7]) := by decide

/-- A frame for each clause. -/
theorem witness_FramesDecoded :
    decode (.codec [0x06]) = .ok .cmdWren ∧ decode (.codec [0x04]) = .ok .cmdWrdi ∧
    decode (.codec [0x05, 9]) = .ok .cmdRdsr ∧ decode (.codec [0x03, 0, 0]) = .ok (.cmdRead 0 0) ∧
    decode (.codec [0x02, 0x0F, 0xFF, 0x07]) = .ok (.cmdWrite 0x0FFF [7]) ∧ decode (.codec [0x01, 5]) = .ok .cmdWrsr ∧
    decode (.codec []) = .error .emptyFrame ∧ decode (.codec [0x07, 1]) = .error .unsentOpcode := by decide

theorem witness_ReservedOpRefused :
    (requested (.host { op := 0b110 })).Ready ∧ (requested (.host { op := 0b111 })).Ready ∧
    (requested (.host { op := 0b111 })).host.requests = .host { op := 0b111 } :: [] := ⟨⟨rfl, rfl⟩, ⟨rfl, rfl⟩, rfl⟩

theorem witness_StepRunsRequest :
    (requested (.codec [0x06])).Ready ∧ (requested (.codec [0x06])).host.requests = .codec [0x06] :: [] ∧
    decode (.codec [0x06]) = .ok .cmdWren ∧ Instr.cmdWren.WellFormed := ⟨⟨rfl, rfl⟩, rfl, rfl, rfl⟩

theorem witness_StepWaits : State.reset.Ready ∧ State.reset.host.requests = [] := ⟨⟨rfl, rfl⟩, rfl⟩

/-- A step inside a frame, one that takes a request, one that waits. -/
theorem witness_OneInteractionPerStep :
    ((polling [] [] []).host.resetIn ≠ some 0 ∧ (polling [] [] []).activity ≠ .waiting ∧
      ∃ t, step (polling [] [] []) = .next t) ∧
    ((requested (.codec [0x06])).host.resetIn ≠ some 0 ∧ (requested (.codec [0x06])).activity = .waiting ∧
      (requested (.codec [0x06])).host.requests ≠ [] ∧ ∃ t, step (requested (.codec [0x06])) = .next t) ∧
    (State.reset.host.resetIn ≠ some 0 ∧ State.reset.activity = .waiting ∧ State.reset.host.requests = [] ∧
      ∃ t, step State.reset = .next t) :=
  ⟨⟨nofun, nofun, _, rfl⟩, ⟨nofun, rfl, nofun, _, rfl⟩, nofun, rfl, rfl, _, rfl⟩

theorem witness_AdmissionByMode :
    State.reset.activity = .waiting ∧ State.reset.mode = .uninitialized ∧
    (placed .idle [] []).activity = .waiting ∧ (placed .idle [] []).mode ≠ .uninitialized := by decide

theorem witness_EraseOfZeroPagesRefused :
    (placed .idle [] []).activity = .waiting ∧ (placed .idle [] []).mode ≠ .uninitialized ∧
    State.reset.activity = .waiting ∧ State.reset.mode = .uninitialized := by decide

theorem witness_OneOperationAtATime :
    Instr.readStatus ≠ .cmdWrsr ∧ (polling [] [] []).activity ≠ .waiting := ⟨nofun, nofun⟩

/-- A reset that lands on a waiting block and on a running one; one on its way. -/
theorem witness_ResetOfTheBlock :
    (resetOn freshDevice).host.resetIn = some 0 ∧ (resetOn freshDevice).activity = .waiting ∧
    { polling [] [] [] with host := { requests := [], resetIn := some 0 } }.host.resetIn = some 0 ∧
    { polling [] [] [] with host := { requests := [], resetIn := some 0 } }.activity ≠ .waiting ∧
    { State.reset with host := { requests := [], resetIn := some 1 } }.host.resetIn = some (0 + 1) ∧
    ∃ t, step { State.reset with host := { requests := [], resetIn := some 1 } } = .next t :=
  ⟨rfl, rfl, rfl, nofun, rfl, _, rfl⟩

theorem witness_InitAfterResetOfBusyDevice :
    (resetOn stuckDevice).host.resetIn = some 0 ∧ (resetOn stuckDevice).env.csAnswers = [] ∧
    (resetOn stuckDevice).env.xferAnswers = [] ∧ (resetOn stuckDevice).env.device = some stuckDevice ∧
    stuckDevice.wip = true ∧
      (resetOn enabledDevice).env.device = some enabledDevice ∧
    enabledDevice.wel = true := by decide

/-- A waiting block, one at a write command's exchange, one at a poll. -/
theorem witness_StepKeepsInv :
    ((onDevice freshDevice).Inv ∧ ∃ t, step (onDevice freshDevice) = .next t) ∧
    ((sendingLast .exchange []).Inv ∧ ∃ t, step (sendingLast .exchange []) = .next t) ∧
    ((polling [above] [] []).Inv ∧
      ∃ t, step (polling [above] [] []) = .next t) :=
  ⟨⟨onDevice_inv, _, rfl⟩, ⟨sendingLast_inv [], _, rfl⟩, polling_inv [] [], _, rfl⟩

/-- `init` at the release of its status read with WIP = 1; a write that starts above the array, and an erase; an
operation that has not ended. -/
theorem witness_ErrorsByOperation :
    ((State.within (placed .uninitialized [.ok] []) (rdsrFrame 0) (.release (.ok [0, 1])) .initStatus).Inv ∧
      ∃ t, StepOf .init (State.within (placed .uninitialized [.ok] []) (rdsrFrame 0) (.release (.ok [0,
        1])) .initStatus) t ∧
        t.result = some (.error .unexpectedStatus)) ∧
    ((onDevice freshDevice).Inv ∧
      (∃ t, StepOf (.writeBytes 4096 []) (onDevice freshDevice) t ∧ t.result = some (.error .addressOutOfBounds)) ∧
      (∃ t, StepOf (.eraseSectors 5000 1) (onDevice freshDevice) t ∧ t.result = some (.error .addressOutOfBounds)) ∧
      ∃ t, StepOf .readStatus (onDevice freshDevice) t ∧ t.result = none) :=
  ⟨⟨within_inv (p := .initStatus) ⟨_, rfl⟩ rfl rfl (by rintro rx h; cases h; rfl) nofun nofun, _, .inr ⟨rfl, nofun,
    rfl⟩, by decide⟩,
    onDevice_inv, ⟨_, .inl rfl, by decide⟩, ⟨_, .inl rfl, by decide⟩, _, .inl rfl, by decide⟩

theorem witness_AbortMode :
    isHostOp .readStatus = true ∧ isHostOp .init = true ∧ (placed .idle [.fail 6] []).Inv ∧
    (∃ t, StepOf .readStatus (placed .idle [.fail 6] []) t ∧ t.result = some (.error (.gpio 6))) ∧
    (placed .uninitialized [.fail 6] []).Inv ∧
    ∃ t, StepOf .init (placed .uninitialized [.fail 6] []) t ∧ t.result = some (.error (.gpio 6)) :=
  ⟨rfl, rfl, ⟨fun _ => ⟨.inr rfl, by decide⟩, nofun, fun h => absurd rfl h, nofun, nofun, nofun⟩,
    ⟨_, .inl rfl, by decide⟩, ⟨fun _ => ⟨.inl rfl, by decide⟩, nofun, fun h => absurd rfl h, nofun, nofun, nofun⟩,
    _, .inl rfl, by decide⟩

theorem witness_AnswerLength : ((placed .idle [] [.ok [1, 2]]).env.drawXfer [0x05, 0]).1 = .ok [1, 2] := by decide

/-- A block at an interaction of the write-enable frame of a wire command. -/
def wrenAt (ph : Phase) (cs : List CsAnswer) (xfers : List XferAnswer) : State :=
  State.within (placed .idle cs xfers) wrenFrame ph (.call .writeEnable)

/-- Each interaction of `Command`, answered and failing. -/
theorem witness_CommandMatrix :
    (wrenAt .assert [.ok] []).host.resetIn = none ∧
    (wrenAt .assert [.ok] []).activity = .framing wrenFrame .assert (.call .writeEnable) ∧
    (wrenAt .assert [.ok] []).env.drawCs.1 = .ok ∧ (wrenAt .assert [.fail 1] []).env.drawCs.1 = .fail 1 ∧
    (wrenAt .exchange [] [.ok [7]]).activity = .framing wrenFrame .exchange (.call .writeEnable) ∧
    ((wrenAt .exchange [] [.ok [7]]).env.drawXfer wrenFrame).1 = .ok [7] ∧
    ((wrenAt .exchange [] [.fail 3]).env.drawXfer wrenFrame).1 = .fail 3 ∧
    (wrenAt (.release (.ok [7])) [.ok] []).activity = .framing wrenFrame (.release (.ok [7])) (.call .writeEnable) ∧
    (wrenAt (.release (.ok [7])) [.ok] []).env.drawCs.1 = .ok ∧
    (wrenAt (.release (.ok [7])) [.fail 2] []).env.drawCs.1 = .fail 2 ∧
    (wrenAt (.release (.fail 3)) [.ok] []).activity = .framing wrenFrame (.release (.fail 3)) (.call .writeEnable) ∧
    (wrenAt (.release (.fail 3)) [.ok] []).env.drawCs.1 = .ok ∧
    (wrenAt (.release (.fail 3)) [.fail 4] []).env.drawCs.1 = .fail 4 := by decide

/-- A command that returns, one that raises at its release, one whose assert fails. -/
theorem witness_CommandReleases :
    ((wrenAt (.release (.ok [7])) [.ok] []).host.resetIn ≠ some 0 ∧
      ∃ t, step (wrenAt (.release (.ok [7])) [.ok] []) = .next t) ∧
    (∃ t, step (wrenAt (.release (.fail 3)) [.fail 4] []) = .next t) ∧
    ((wrenAt .assert [.fail 1] []).env.drawCs.1 = .fail 1 ∧ ∃ t, step (wrenAt .assert [.fail 1] []) = .next t) :=
  ⟨⟨nofun, _, rfl⟩, ⟨_, rfl⟩, rfl, _, rfl⟩

theorem witness_WrenAndWrdiComplete :
    (placed .idle [.ok, .ok] [.ok [7]]).Ready ∧ FrameOk (placed .idle [.ok, .ok] [.ok [7]]).begin wrenFrame [7] ∧
    FrameOk (placed .idle [.ok, .ok] [.ok [7]]).begin wrdiFrame [7] := by decide

theorem witness_RdsrCompletes :
    (placed .idle [.ok, .ok] [.ok [7, 0xFF]]).Ready ∧
    FrameOk ((placed .idle [.ok, .ok] [.ok [7, 0xFF]]).begin.afterDummies 1)
      (nextRdsr (placed .idle [.ok, .ok] [.ok [7, 0xFF]]).begin) [7, 0xFF] := by decide

/-- No bytes and two bytes, at the top address. -/
theorem witness_ReadCommandCompletes :
    (placed .idle [.ok, .ok] [.ok [1, 2, 3]]).Ready ∧
    FrameOk ((placed .idle [.ok, .ok] [.ok [1, 2, 3]]).begin.afterDummies 0)
      (nextRead (placed .idle [.ok, .ok] [.ok [1, 2, 3]]).begin 0xFFFF 0) [1, 2, 3] ∧
    FrameOk ((placed .idle [.ok, .ok] [.ok [1, 2, 3, 4, 5]]).begin.afterDummies 2)
      (nextRead (placed .idle [.ok, .ok] [.ok [1, 2, 3, 4, 5]]).begin 0xFFFF 2) [1, 2, 3, 4, 5] := by decide

theorem witness_WriteCommandCompletes :
    (placed .idle [.ok, .ok] [.ok [1, 2, 3, 4]]).Ready ∧
    FrameOk (placed .idle [.ok, .ok] [.ok [1, 2, 3, 4]]).begin (0x02 :: addrHigh 0x0FFF :: addrLow 0x0FFF :: [7])
      [1, 2, 3, 4] := by decide

/-- A fresh block whose environment answers `init`'s status with `b`. -/
def starting (b : Byte) : State := placed .uninitialized [.ok, .ok, .ok] [.ok [0, b]]

/-- BP, SRWD and the reserved bits set, WIP and WEL clear. -/
theorem witness_InitSucceeds :
    (starting 0xFC).Ready ∧ (starting 0xFC).mode = .uninitialized ∧ (starting 0xFC).env.drawCs.1 = .ok ∧
    FrameOk ((afterDriveHigh (starting 0xFC).begin).afterDummies 1) (nextRdsr (afterDriveHigh (starting 0xFC).begin))
      [0, 0xFC] ∧
    (0xFC : Byte).getLsbD 0 = false ∧ (0xFC : Byte).getLsbD 1 = false := by decide

/-- WIP alone, and WEL alone. -/
theorem witness_InitOnDirtyStatus :
    (starting 0x01).Ready ∧ (starting 0x01).mode = .uninitialized ∧ (starting 0x01).env.drawCs.1 = .ok ∧
    FrameOk ((afterDriveHigh (starting 0x01).begin).afterDummies 1) (nextRdsr (afterDriveHigh (starting 0x01).begin))
      [0, 0x01] ∧
    FrameOk ((afterDriveHigh (starting 0x02).begin).afterDummies 1) (nextRdsr (afterDriveHigh (starting 0x02).begin))
      [0, 0x02] ∧
    (0x01 : Byte).getLsbD 0 = true ∧ (0x02 : Byte).getLsbD 1 = true := by decide

theorem witness_InitDriveFails :
    (placed .uninitialized [.fail 3] []).Ready ∧ (placed .uninitialized [.fail 3] []).mode = .uninitialized ∧
    (placed .uninitialized [.fail 3] []).env.drawCs.1 = .fail 3 := by decide

theorem witness_ReadStatusCompletes :
    (placed .idle [.ok, .ok] [.ok [7, 0xFF]]).Ready ∧ (placed .idle [.ok, .ok] [.ok [7, 0xFF]]).mode ≠ .uninitialized ∧
    FrameOk ((placed .idle [.ok, .ok] [.ok [7, 0xFF]]).begin.afterDummies 1)
      (nextRdsr (placed .idle [.ok, .ok] [.ok [7, 0xFF]]).begin) [7, 0xFF] := by decide

/-- Two bytes, past the end of the array. -/
theorem witness_ReadCompletes :
    (placed .idle [.ok, .ok] [.ok [1, 2, 3, 4, 5]]).Ready ∧
    (placed .idle [.ok, .ok] [.ok [1, 2, 3, 4, 5]]).mode ≠ .uninitialized ∧
    FrameOk ((lendBuffer 2 (placed .idle [.ok, .ok] [.ok [1, 2, 3, 4, 5]]).begin).afterDummies 2)
      (nextRead (lendBuffer 2 (placed .idle [.ok, .ok] [.ok [1, 2, 3, 4, 5]]).begin) 4095 2) [1, 2, 3, 4, 5] :=
        by decide

/-- The step that takes a `read`, one inside it, and one that ends it with an error. -/
theorem witness_ReadFails :
    (∃ t, exec (.read 0 1) (placed .idle [] []) = .next t) ∧
    ((State.within (placed .idle [] [.fail 8]) (readFrame 0 [9]) .exchange (.hostRead 0 1)).Inv ∧
      InProgress (.read 0 1) (State.within (placed .idle [] [.fail 8]) (readFrame 0 [9]) .exchange (.hostRead 0 1)) ∧
      ∃ t, step (State.within (placed .idle [] [.fail 8]) (readFrame 0 [9]) .exchange (.hostRead 0 1)) = .next t ∧
        t.result = none) ∧
    ((State.within (placed .idle [.ok] []) (readFrame 0 [9]) (.release (.fail 8)) (.hostRead 0 1)).Inv ∧
      ∃ t, StepOf (.read 0 1)
        (State.within (placed .idle [.ok] []) (readFrame 0 [9]) (.release (.fail 8)) (.hostRead 0 1)) t ∧
        t.result = some (.error (.transport 8))) :=
  ⟨⟨_, rfl⟩, ⟨frame_inv (.hostRead 0 1) .idle ⟨[9], rfl, rfl⟩ rfl rfl _, rfl, _, rfl, by decide⟩,
    within_inv (p := .hostRead 0 1) ⟨[9], rfl, rfl⟩ rfl rfl nofun nofun nofun, _, .inr ⟨rfl, nofun, rfl⟩, by decide⟩

/-- V-S8: `J = 2`; V-S1: `J = 0`. -/
theorem witness_SplitWriteChunks :
    16 = min (firstChunkLength 16) (zeros 80).length ∧ 2 = ((zeros 80).length - 16 + 31) / 32 ∧
    0 = min (firstChunkLength 0) (zeros 0).length ∧ 0 = ((zeros 0).length - 0 + 31) / 32 := by decide

theorem witness_ChunksWithinPage :
    (splitWrite 31 [1, 2])[1]? = some { addr := 32, bytes := [2] } ∧
    (splitErase 4095 1)[0]? = some { addr := 4095, bytes := [0] } := by decide

theorem witness_EraseIsWriteOfZeros : splitErase 4095 1 = [{ addr := 4095, bytes := [0] }] ∧ 1 ≤ 1 := by decide

theorem witness_OutOfBoundsBeforeTheBus :
    (placed .idle [] []).activity = .waiting ∧ (placed .idle [] []).mode ≠ .uninitialized ∧
    4095 < (4096 : HostAddr).toNat ∧ 1 ≤ 1 := by decide

/-- A block whose environment answers one page write, the first poll with `0x8E`: WIP = 0, the other bits set. -/
def onePage : State :=
  placed .idle [.ok, .ok, .ok, .ok, .ok, .ok] [.ok [0], .ok [0, 0, 0, 0], .ok [0, 0x8E]]

/-- That block after the write-enable. -/
def onePageEnabled : State := { afterFrame onePage.begin wrenFrame [0] with mode := .writeEnabled }

/-- That block after the write command. -/
def onePageBusy : State :=
  { afterFrame onePageEnabled (writeFrame 4095 [7]) [0, 0, 0, 0] with mode := .busy }

/-- That block as a page write of it starts, another to follow. -/
def pageStarting : State :=
  State.within onePage wrenFrame .assert (.pageEnable lastByte [above])

theorem witness_PageWriteRuns :
    pageStarting.activity = .framing wrenFrame .assert (.pageEnable lastByte [above]) ∧
    pageStarting.host.resetIn = none ∧ FrameOk pageStarting wrenFrame [0] ∧
    FrameOk { afterFrame pageStarting wrenFrame [0] with mode := .writeEnabled }
      (writeFrame lastByte.addr lastByte.bytes) [0, 0, 0, 0] := by decide

theorem witness_WriteOfOnePage :
    onePage.Ready ∧ onePage.mode ≠ .uninitialized ∧ (4095 : HostAddr).toNat ≤ 4095 ∧
    ([7] : List Byte).length ≤ firstChunkLength 4095 ∧ FrameOk onePage.begin wrenFrame [0] ∧
    FrameOk onePageEnabled (writeFrame 4095 [7]) [0, 0, 0, 0] ∧
    FrameOk (onePageBusy.afterDummies 1) (nextRdsr onePageBusy) [0, 0x8E] ∧ (0x8E : Byte).getLsbD 0 = false := by decide

/-- The premises on the state shared by the statements on the reference device. -/
theorem onDevice_ready :
    (onDevice freshDevice).Ready ∧ (onDevice freshDevice).mode ≠ .uninitialized ∧
    OnIdleDevice (onDevice freshDevice) freshDevice ∧ Memory.wf freshDevice.fill freshDevice.arr :=
  ⟨⟨rfl, rfl⟩, by decide, ⟨rfl, rfl, rfl, rfl, rfl⟩, by decide⟩

/-- The last byte of the array, and no byte at it. -/
theorem witness_WriteBytesOnDevice :
    ((onDevice freshDevice).Ready ∧ (onDevice freshDevice).mode ≠ .uninitialized ∧
      OnIdleDevice (onDevice freshDevice) freshDevice ∧ Memory.wf freshDevice.fill freshDevice.arr) ∧
    (4095 : HostAddr).toNat ≤ 4095 ∧ (4095 : HostAddr).toNat + ([7] : List Byte).length ≤ 4096 ∧
    (4095 : HostAddr).toNat + ([] : List Byte).length ≤ 4096 :=
  ⟨onDevice_ready, by decide, by decide, by decide⟩

/-- V-S12: one byte too many. -/
theorem witness_WritePastTheEnd :
    ((onDevice freshDevice).Ready ∧ (onDevice freshDevice).mode ≠ .uninitialized ∧
      OnIdleDevice (onDevice freshDevice) freshDevice ∧ Memory.wf freshDevice.fill freshDevice.arr) ∧
    (4095 : HostAddr).toNat ≤ 4095 ∧ 4096 < (4095 : HostAddr).toNat + ([1, 2] : List Byte).length :=
  ⟨onDevice_ready, by decide, by decide⟩

/-- V-S15: the last byte. -/
theorem witness_EraseSectorsOnDevice :
    ((onDevice freshDevice).Ready ∧ (onDevice freshDevice).mode ≠ .uninitialized ∧
      OnIdleDevice (onDevice freshDevice) freshDevice ∧ Memory.wf freshDevice.fill freshDevice.arr) ∧ 1 ≤ 1 ∧
    pageBase (4095 : HostAddr).toNat + 32 * 1 ≤ 4096 :=
  ⟨onDevice_ready, by decide, by decide⟩

theorem witness_EraseAllOnDevice :
    (onDevice freshDevice).Ready ∧ (onDevice freshDevice).mode ≠ .uninitialized ∧
    OnIdleDevice (onDevice freshDevice) freshDevice ∧ Memory.wf freshDevice.fill freshDevice.arr := onDevice_ready

/-- E1's second instance: the last page. -/
theorem witness_WriteReadRoundTrip :
    ((onDevice freshDevice).Ready ∧ (onDevice freshDevice).mode ≠ .uninitialized ∧
      OnIdleDevice (onDevice freshDevice) freshDevice ∧ Memory.wf freshDevice.fill freshDevice.arr) ∧
    (4064 : HostAddr).toNat ≤ 4095 ∧ (4064 : HostAddr).toNat + (List.replicate 32 (0x5A : Byte)).length ≤ 4096 :=
  ⟨onDevice_ready, by decide, by decide⟩

/-- A block before a poll on a device. -/
def pollingOn (d : RefDevice) : State :=
  State.within { onDevice d with mode := .busy } (rdsrFrame 0xDD) .assert (.pagePoll lastPage [])

theorem witness_BusyPollGoesOn :
    (polling [] [.ok, .ok] [.ok [0, 0xFF]]).activity = .framing (rdsrFrame 0xDD) .assert (.pagePoll lastPage []) ∧
    (polling [] [.ok, .ok] [.ok [0, 0xFF]]).host.resetIn = none ∧
    FrameOk (polling [] [.ok, .ok] [.ok [0, 0xFF]]) (rdsrFrame 0xDD) [0, 0xFF] ∧
      (0xFF : Byte).getLsbD 0 = true := by decide

/-- WIP = 0 with every other bit of the status set; no page write left, one in the array, one above it. -/
theorem witness_PollEndsPageWrite :
    ([[], [lastByte], [above]] : List (List Chunk)).all (fun todo =>
      decide ((polling todo [.ok, .ok] [.ok [0, 0xFE]]).activity =
          .framing (rdsrFrame 0xDD) .assert (.pagePoll lastPage todo) ∧
        (polling todo [.ok, .ok] [.ok [0, 0xFE]]).host.resetIn = none ∧
        FrameOk (polling todo [.ok, .ok] [.ok [0, 0xFE]]) (rdsrFrame 0xDD) [0, 0xFE])) = true ∧
    (0xFE : Byte).getLsbD 0 = false ∧ lastByte.addr ≤ 4095 ∧ 4095 < 4096 := by decide

theorem witness_StuckWipHangs :
    (pollingOn stuckDevice).activity = .framing (rdsrFrame 0xDD) .assert (.pagePoll lastPage []) ∧
    (pollingOn stuckDevice).mode = .busy ∧ (pollingOn stuckDevice).result = none ∧
    (pollingOn stuckDevice).host.resetIn = none ∧ (pollingOn stuckDevice).env.csAnswers = [] ∧
    (pollingOn stuckDevice).env.xferAnswers = [] ∧ (pollingOn stuckDevice).env.device = some stuckDevice ∧
    stuckDevice.wip = true ∧ stuckDevice.busy = 0 := by decide

theorem witness_PollsPerPageWrite :
    (onDevice freshDevice).Ready ∧ (onDevice freshDevice).mode ≠ .uninitialized ∧
    OnIdleDevice (onDevice freshDevice) freshDevice ∧ (4095 : HostAddr).toNat ≤ 4095 ∧ ([7] : List Byte) ≠ [] ∧
    ([7] : List Byte).length ≤ firstChunkLength (4095 : HostAddr).toNat :=
  ⟨onDevice_ready.1, onDevice_ready.2.1, onDevice_ready.2.2.1, by decide, by decide, by decide⟩

/-- The last page write of a write of the last byte, its write command's exchange next, its write-enable sent. -/
def writingLast : State :=
  { sendingLast .exchange [] with trace := [.csLow, .xfer wrenFrame [0], .csHigh, .csLow] }

theorem writingLast_inv : writingLast.Inv := by
  obtain ⟨h1, h2, h3, h4, h5, h6⟩ := sendingLast_inv []
  exact ⟨h1, h2, h3, h4, h5, h6⟩

/-- The step that takes a write and one that takes an erase; one inside a write, and one at which a reset lands. -/
theorem witness_WriteFramesInOrder :
    (∃ t, exec (.writeBytes 31 [1, 2]) (onDevice freshDevice) = .next t) ∧
    (∃ t, exec (.eraseSectors 4095 1) (onDevice freshDevice) = .next t) ∧
    (∃ t, exec .eraseAll (onDevice freshDevice) = .next t) ∧
    (writingLast.Inv ∧ writingLast.activity ≠ .waiting ∧ SentInOrder [lastByte] writingLast ∧
      ∃ t, step writingLast = .next t) ∧
    ∃ t, step { writingLast with host := { requests := [], resetIn := some 0 } } = .next t :=
  ⟨⟨_, rfl⟩, ⟨_, rfl⟩, ⟨_, rfl⟩, ⟨writingLast_inv, nofun, ⟨[], rfl, by decide⟩, _, rfl⟩, _, rfl⟩

theorem writingLast_serves : InProgress (.writeBytes 4095 [7]) writingLast :=
  ⟨[lastByte], by decide, List.suffix_refl _⟩

theorem witness_WriteExchangeOrder :
    (∃ t, exec (.writeBytes 31 [1, 2]) (onDevice freshDevice) = .next t) ∧
    (∃ t, exec (.eraseSectors 4095 1) (onDevice freshDevice) = .next t) ∧
    (∃ t, exec .eraseAll (onDevice freshDevice) = .next t) ∧
    (writingLast.Inv ∧ InProgress (.writeBytes 4095 [7]) writingLast ∧
      pageWritesOf (.writeBytes 4095 [7]) = some [lastByte] ∧ ExchangesInOrder writingLast ∧
      ∃ t, step writingLast = .next t) :=
  ⟨⟨_, rfl⟩, ⟨_, rfl⟩, ⟨_, rfl⟩, writingLast_inv, writingLast_serves, by decide,
    ⟨by decide, by rintro x h; cases h; rfl, nofun, by rintro x h; cases h; decide⟩, _, rfl⟩

theorem witness_ModesFollowTheTable :
    (onDevice freshDevice).Inv ∧ (onDevice freshDevice).host.resetIn ≠ some 0 ∧
    (∃ t, step (onDevice freshDevice) = .next t) ∧
    writingLast.Inv ∧ writingLast.host.resetIn ≠ some 0 ∧ ∃ t, step writingLast = .next t :=
  ⟨onDevice_inv, nofun, ⟨_, rfl⟩, writingLast_inv, nofun, _, rfl⟩

theorem witness_StepSendsOnlyItsOpcodes :
    writingLast.Inv ∧ SendsOnly [0x02, 0x03, 0x04, 0x05, 0x06] writingLast.trace ∧ ∃ t, step writingLast = .next t :=
  ⟨writingLast_inv, by intro f h; simp [writingLast, framesOf, exchangesOf, wrenFrame] at h; subst h; exact ⟨6,
    by decide, rfl⟩,
    _, rfl⟩

/-- The step that takes a host operation, and one inside it. -/
theorem witness_HostOpsNeverWriteDisable :
    ((onDevice freshDevice).Inv ∧ isHostOp .readStatus = true ∧
      (∃ t, StepOf .readStatus (onDevice freshDevice) t) ∧ (onDevice freshDevice).activity = .waiting) ∧
    (writingLast.Inv ∧ isHostOp (.writeBytes 4095 [7]) = true ∧
      (∃ t, StepOf (.writeBytes 4095 [7]) writingLast t) ∧ SendsOnly [0x02, 0x03, 0x05, 0x06] writingLast.trace) :=
  ⟨⟨onDevice_inv, rfl, ⟨_, .inl rfl⟩, rfl⟩, writingLast_inv, rfl, ⟨_, .inr ⟨writingLast_serves, nofun, rfl⟩⟩,
    by intro f h; simp [writingLast, framesOf, exchangesOf, wrenFrame] at h; subst h; exact ⟨6, by decide, rfl⟩⟩

/-- The step that takes a wire command, and one inside it. -/
theorem witness_CodecCommandsFrame :
    isHostOp .cmdRdsr = false ∧ (onDevice freshDevice).Inv ∧ (∃ t, StepOf .cmdRdsr (onDevice freshDevice) t) ∧
    (State.within (placed .idle [] []) (rdsrFrame 0) .exchange (.call .readStatus)).Inv ∧
    ∃ t, StepOf .cmdRdsr (State.within (placed .idle [] []) (rdsrFrame 0) .exchange (.call .readStatus)) t :=
  ⟨rfl, onDevice_inv, ⟨_, .inl rfl⟩, frame_inv (.call .readStatus) .idle ⟨_, rfl⟩ (.inr rfl) rfl _, _, .inr ⟨rfl,
    nofun, rfl⟩⟩

/-- A block at the exchange of the wire command that writes the last byte. -/
def writeCommand : State :=
  State.within (onDevice enabledDevice) (writeFrame 4095 [7]) .exchange (.call (.writeData 4095 [7]))

theorem witness_WriteCommandFrame :
    (Instr.cmdWrite 4095 [7]).WellFormed ∧ (onDevice freshDevice).Inv ∧
    (∃ t, StepOf (.cmdWrite 4095 [7]) (onDevice freshDevice) t) ∧ writeCommand.Inv ∧
    ∃ t, StepOf (.cmdWrite 4095 [7]) writeCommand t :=
  ⟨by decide, onDevice_inv, ⟨_, .inl rfl⟩,
    within_inv (p := .call (.writeData 4095 [7])) rfl (.inr rfl) rfl nofun nofun
      (by rintro d h; cases h; exact enabledDevice_ok), _, .inr ⟨rfl, nofun, rfl⟩⟩

theorem witness_ReadsFrame :
    (State.reset.Inv ∧ ∃ t, StepOf .init State.reset t) ∧
    ((onDevice freshDevice).Inv ∧ (∃ t, StepOf .readStatus (onDevice freshDevice) t) ∧
      ∃ t, StepOf (.read 4095 2) (onDevice freshDevice) t) ∧
    ((State.within (placed .idle [] []) (readFrame 4095 [0, 0]) .exchange (.hostRead 4095 2)).Inv ∧
      ∃ t, StepOf (.read 4095 2) (State.within (placed .idle [] []) (readFrame 4095 [0,
        0]) .exchange (.hostRead 4095 2)) t) :=
  ⟨⟨reset_inv, _, .inl rfl⟩, ⟨onDevice_inv, ⟨_, .inl rfl⟩, _, .inl rfl⟩,
    frame_inv (.hostRead 4095 2) .idle ⟨[0, 0], rfl, rfl⟩ rfl rfl _, _, .inr ⟨rfl, nofun, rfl⟩⟩

theorem witness_WritesFrame :
    (onDevice freshDevice).Inv ∧ (∃ t, StepOf (.writeBytes 31 [1, 2]) (onDevice freshDevice) t) ∧
    (∃ t, StepOf (.eraseSectors 4095 1) (onDevice freshDevice) t) ∧ (∃ t, StepOf .eraseAll (onDevice freshDevice) t) ∧
    writingLast.Inv ∧ ∃ t, StepOf (.writeBytes 4095 [7]) writingLast t :=
  ⟨onDevice_inv, ⟨_, .inl rfl⟩, ⟨_, .inl rfl⟩, ⟨_, .inl rfl⟩, writingLast_inv, _, .inr ⟨writingLast_serves, nofun, rfl⟩⟩

/-- The exchange of the last byte's write command, going through and failing; an assert. -/
theorem witness_PageWriteStepFrame :
    ((sendingLast .exchange [.fail 9]).Inv ∧ (Purpose.pageData lastByte []).pages = some (lastByte, []) ∧
      (sendingLast .exchange [.fail 9]).activity = .framing (writeFrame 4095 [7]) .exchange (.pageData lastByte []) ∧
      (sendingLast .exchange [.fail 9]).host.resetIn ≠ some 0 ∧
      (sendingLast .exchange [.fail 9]).env.device = some enabledDevice ∧
      ((sendingLast .exchange [.fail 9]).env.drawXfer (writeFrame 4095 [7])).1 = .fail 9 ∧
      ∃ t, step (sendingLast .exchange [.fail 9]) = .next t) ∧
    ((sendingLast .exchange []).Inv ∧ ∃ t, step (sendingLast .exchange []) = .next t) ∧
    ((polling [above] [] []).Inv ∧
      ∃ t, step (polling [above] [] []) = .next t) :=
  ⟨⟨sendingLast_inv _, rfl, rfl, nofun, rfl, rfl, _, rfl⟩, ⟨sendingLast_inv _, _, rfl⟩, polling_inv [] [], _, rfl⟩

end Sys2Proof.Tests
end

section
/-! The decoded status byte, bit by bit (R36, R78), and the length of an exchange's answer (R20). -/

namespace Sys2Proof.Machine

/-! ### The decoded status byte -/

/-- A bit survives the decode exactly where the mask has a 1. -/
theorem decodeStatus_getLsbD (b : Byte) (i : Nat) :
    (decodeStatus b).getLsbD i = (b.getLsbD i && Config.statusMask.getLsbD i) :=
  BitVec.getLsbD_and

theorem decodeStatus_extractLsb' (b : Byte) (start len : Nat) :
    (decodeStatus b).extractLsb' start len = b.extractLsb' start len &&& Config.statusMask.extractLsb' start len :=
  BitVec.extractLsb'_and

/-- Bits 6:4 of the mask are 0, so the reserved bits read as 0 (R36). -/
theorem decodeStatus_reserved (b : Byte) : (decodeStatus b).extractLsb' 4 3 = 0 := by
  have hmask : Config.statusMask.extractLsb' 4 3 = 0#3 := by decide
  rw [decodeStatus_extractLsb', hmask]
  exact BitVec.and_zero

@[simp] theorem statusWip_decodeStatus (b : Byte) : statusWip (decodeStatus b) = b.getLsbD 0 := by
  have hmask : Config.statusMask.getLsbD 0 = true := by decide
  rw [statusWip, decodeStatus_getLsbD, hmask, Bool.and_true]

@[simp] theorem statusWel_decodeStatus (b : Byte) : statusWel (decodeStatus b) = b.getLsbD 1 := by
  have hmask : Config.statusMask.getLsbD 1 = true := by decide
  rw [statusWel, decodeStatus_getLsbD, hmask, Bool.and_true]

@[simp] theorem statusBp_decodeStatus (b : Byte) : statusBp (decodeStatus b) = b.extractLsb' 2 2 := by
  have hmask : Config.statusMask.extractLsb' 2 2 = BitVec.allOnes 2 := by decide
  rw [statusBp, decodeStatus_extractLsb', hmask, BitVec.and_allOnes]

@[simp] theorem statusSrwd_decodeStatus (b : Byte) : statusSrwd (decodeStatus b) = b.getLsbD 7 := by
  have hmask : Config.statusMask.getLsbD 7 = true := by decide
  rw [statusSrwd, decodeStatus_getLsbD, hmask, Bool.and_true]

/-- Settles O17, field by field: the mask is 0 on bits 6:4 and 1 on the bits of each named field. -/
theorem statusDecode : Obligations.StatusDecode := fun b =>
  ⟨rfl, decodeStatus_reserved b, statusWip_decodeStatus b, statusWel_decodeStatus b, statusBp_decodeStatus b,
    statusSrwd_decodeStatus b⟩

/-! ### The length of an answer -/

/-- Settles O21: the answer drawn is `Env.xferAnswer`, which keeps the Transport contract whether it was placed, is the
reference device's, or is free. -/
theorem answerLength : Obligations.AnswerLength := fun e tx _ h =>
  xferAnswer_length ((drawXfer_fst e tx).symm.trans h)

end Sys2Proof.Machine
end

section
/-! What a step leaves unchanged: the bytes of an attached device outside those a frame may write (R61, R62, R70), the
host's buffer and its requests. -/

namespace Sys2Proof.Machine

variable {s t u : State} {lo hi : Nat}

/-! ### The same bytes outside a range -/

theorem SameBytesOutside.mono {lo' hi' : Nat} (h : SameBytesOutside lo hi s t)
    (hsub : ∀ a, lo ≤ a → a < hi → lo' ≤ a ∧ a < hi') : SameBytesOutside lo' hi' s t := by
  intro d hd
  obtain ⟨d', hd', hfill, hbyte⟩ := h d hd
  refine ⟨d', hd', hfill, fun a ha => hbyte a ?_⟩
  by_contra hin
  have := hsub a (by omega) (by omega)
  omega

theorem sameBytesOutside_of_device_eq (h : t.env.device = s.env.device) : SameBytesOutside lo hi s t :=
  fun d hd => ⟨d, h.trans hd, rfl, fun _ _ => rfl⟩

theorem sameBytesOutside_of_device_map {f : RefDevice → RefDevice} (h : t.env.device = s.env.device.map f)
    (hfill : ∀ d, (f d).fill = d.fill)
    (hbyte : ∀ d, s.env.device = some d → ∀ a, (a < lo ∨ hi ≤ a) → (f d).byte a = d.byte a) :
    SameBytesOutside lo hi s t :=
  fun d hd => ⟨f d, by rw [h, hd, Option.map_some], hfill d, hbyte d hd⟩

/-! ### The device and a write frame -/

theorem lt_capacity_of_le_maxAddr {a : Nat} (ha : a ≤ Config.maxAddr) : a < Config.capacity := by
  simp only [Config.maxAddr, Config.capacity, Config.addrBits] at *
  omega

/-- A write frame is ignored, or its payload is stored (R70). -/
theorem devExchange_writeFrame_arr (d : RefDevice) {a : Nat} (chunk : List Byte) (ha : a < Config.capacity) :
    (devExchange d (writeFrame a chunk)).2.arr = d.arr ∨
    (devExchange d (writeFrame a chunk)).2.arr = storePayload d.fill a 0 chunk d.arr := by
  by_cases hb : d.busy = 0
  · by_cases hw : d.wel = true ∧ chunk ≠ []
    · rw [devExchange_write hb hw.1 hw.2, acceptWrite, show deviceAddr (writeFrame a chunk) = a from
        deviceAddr_frame chunk ha, show (writeFrame a chunk).drop 3 = chunk from rfl]
      split <;> exact .inr rfl
    · left
      have hlen : d.wel = true → ¬ 4 ≤ (writeFrame a chunk).length := by
        intro hwel
        have hnil : chunk = [] := by simpa [hwel] using hw
        simp [writeFrame, hnil]
      simp only [devExchange, hb, idleExchange]
      rw [if_neg (by omega), if_neg (by simp [writeFrame]), if_neg (by simp [writeFrame]),
        if_neg (by simp [writeFrame]), if_neg (by simp [writeFrame]), if_neg fun h => hlen h.2.2 h.2.1]
  · left
    rw [devExchange, if_pos (by omega), busyExchange, if_neg (by simp [writeFrame])]

/-- Whatever state the device is in, a write frame inside a page changes no byte outside its payload's addresses. -/
theorem devExchange_writeFrame_byte {d : RefDevice} {a b : Nat} {chunk : List Byte} (hm : Memory.wf d.fill d.arr)
    (ha : a ≤ Config.maxAddr) (hc : pageOff a + chunk.length ≤ Config.pageSize) (hb : b < a ∨ a + chunk.length ≤ b) :
    (devExchange d (writeFrame a chunk)).2.byte b = d.byte b := by
  have hcap := lt_capacity_of_le_maxAddr ha
  rw [RefDevice.byte, devExchange_fill]
  obtain harr | harr := devExchange_writeFrame_arr d chunk hcap
  · rw [harr, RefDevice.byte]
  · rw [harr, memRead_storePayload hcap chunk 0 hm (by omega), dif_neg (by omega), RefDevice.byte]

/-! ### The bytes a frame of the block may write -/

/-- The bytes a failing frame of this purpose puts at risk lie in one page of the array. -/
def Purpose.AtRiskInPage (p : Purpose) : Prop :=
  p.atRisk.1 ≤ Config.maxAddr ∧ pageOff p.atRisk.1 + p.atRisk.2 ≤ Config.pageSize

/-- The bytes a failing frame of this purpose puts at risk lie in `[lo, hi)`. -/
def Purpose.AtRiskWithin (p : Purpose) (lo hi : Nat) : Prop :=
  ∀ a, p.atRisk.1 ≤ a → a < p.atRisk.1 + p.atRisk.2 → lo ≤ a ∧ a < hi

theorem Purpose.atRiskInPage_of_nothing {p : Purpose} (h : p.atRisk = (0, 0)) : p.AtRiskInPage := by
  simp [AtRiskInPage, h, pageOff]

theorem Purpose.atRiskWithin_of_nothing {p : Purpose} (h : p.atRisk = (0, 0)) : p.AtRiskWithin lo hi := by
  simp [AtRiskWithin, h]

/-- In a page write the bytes at risk are those of its chunk, or none. -/
theorem Purpose.atRisk_of_pages {p : Purpose} {c : Chunk} {todo : List Chunk} (h : p.pages = some (c, todo)) :
    p.atRisk = (0, 0) ∨ p.atRisk = (c.addr, c.bytes.length) := by
  cases p with
  | pageEnable =>
    cases h
    exact .inl rfl
  | pageData =>
    cases h
    exact .inr rfl
  | pagePoll =>
    cases h
    exact .inr rfl
  | _ => cases h

theorem Purpose.atRiskWithin_of_pages {p : Purpose} {c : Chunk} {todo : List Chunk} (h : p.pages = some (c, todo))
    (hlo : lo ≤ c.addr) (hhi : c.addr + c.bytes.length ≤ hi) : p.AtRiskWithin lo hi := by
  obtain hr | hr := atRisk_of_pages h
  · exact atRiskWithin_of_nothing hr
  · intro a h1 h2
    rw [hr] at h1 h2
    exact ⟨hlo.trans h1, h2.trans_le hhi⟩

/-- Inside a page write of a state with the invariant they lie in one page. -/
theorem State.Inv.atRiskInPage (hs : s.Inv) {tx : List Byte} {ph : Phase} {p : Purpose} {c : Chunk}
    {todo : List Chunk} (ha : s.activity = .framing tx ph p) (hp : p.pages = some (c, todo)) : p.AtRiskInPage := by
  obtain ⟨haddr, hpage, -⟩ := hs.pages tx ph p c todo ha hp
  obtain hr | hr := Purpose.atRisk_of_pages hp
  · exact Purpose.atRiskInPage_of_nothing hr
  · rw [Purpose.AtRiskInPage, hr]
    exact ⟨haddr, hpage⟩

/-- A frame of the block is no write frame, or it carries just the bytes its failure puts at risk (R97). -/
theorem Purpose.Sends.no_write_or_atRisk {p : Purpose} {tx : List Byte} (h : p.Sends tx) :
    tx.getD 0 0 ≠ 0x02 ∨ ∃ chunk, tx = writeFrame p.atRisk.1 chunk ∧ chunk.length = p.atRisk.2 := by
  have rdsr : (∃ d, tx = rdsrFrame d) → tx.getD 0 0 ≠ 0x02 := by
    rintro ⟨d, rfl⟩
    simp [rdsrFrame]
  have read : ∀ {a n : Nat}, (∃ payload, payload.length = n ∧ tx = readFrame a payload) → tx.getD 0 0 ≠ 0x02 := by
    rintro a n ⟨payload, -, rfl⟩
    simp [readFrame]
  cases p with
  | initStatus => exact .inl (rdsr h)
  | hostStatus => exact .inl (rdsr h)
  | hostRead => exact .inl (read h)
  | pageEnable => exact .inl (by rw [show tx = wrenFrame from h]; decide)
  | pageData c => exact .inr ⟨c.bytes, h, rfl⟩
  | pagePoll => exact .inl (rdsr h)
  | call f =>
    cases f with
    | writeEnable => exact .inl (by rw [show tx = wrenFrame from h]; decide)
    | writeDisable => exact .inl (by rw [show tx = wrdiFrame from h]; decide)
    | readStatus => exact .inl (rdsr h)
    | readData => exact .inl (read h)
    | writeData addr chunk => exact .inr ⟨chunk, h, rfl⟩

/-! ### An interaction -/

/-- An assert leaves the attached device as it was, and so does a block outside `Command(tx)`. -/
theorem advance_device_of_assert (h : ∀ tx ph p, s.activity = .framing tx ph p → ph = .assert) :
    (advance s).env.device = s.env.device := by
  obtain hd | ⟨tx, ph, p, ha, ⟨hph, -⟩ | ⟨hph, -⟩⟩ := advance_device s
  · exact hd
  · exact absurd (hph.symm.trans (h tx ph p ha)) nofun
  · exact absurd (h tx ph p ha) hph

/-- An interaction of a command changes no byte of the device's array but those at risk, failed or not (R61, R70). -/
theorem advance_sameBytes {tx : List Byte} {ph : Phase} {p : Purpose} (ha : s.activity = .framing tx ph p)
    (hd : ∀ d, s.env.device = some d → d.Ok) (hsends : p.Sends tx) (hpage : p.AtRiskInPage) :
    SameBytesOutside p.atRisk.1 (p.atRisk.1 + p.atRisk.2) s (advance s) := by
  obtain ⟨haddr, hin⟩ := hpage
  obtain h | ⟨tx', ph', p', ha', h⟩ := advance_device s
  · exact sameBytesOutside_of_device_eq h
  cases ha.symm.trans ha'
  obtain ⟨-, h⟩ | ⟨-, k, h⟩ := h
  · refine sameBytesOutside_of_device_map h (fun d => devExchange_fill d tx) fun d hdev a hout => ?_
    obtain hop | ⟨chunk, rfl, hlen⟩ := hsends.no_write_or_atRisk
    · rw [RefDevice.byte, devExchange_fill, devExchange_arr hop, RefDevice.byte]
    · rw [← hlen] at hin hout
      exact devExchange_writeFrame_byte (hd d hdev).arr_wf haddr hin hout
  · refine sameBytesOutside_of_device_map h (fun _ => rfl) fun d hdev a hout => ?_
    rw [lose_byte (hd d hdev).arr_wf (lt_capacity_of_le_maxAddr haddr) hin, if_neg (by omega)]

theorem advance_buffer_of_no_read
    (h : ∀ tx ph addr n, s.activity ≠ .framing tx ph (.hostRead addr n)) : (advance s).buffer = s.buffer := by
  obtain hb | ⟨tx, rx, addr, n, ha, -⟩ := advance_buffer s
  · exact hb
  · exact absurd ha (h tx _ addr n)

/-- The codec never writes `S.mode`: outside the frames of a host operation no interaction does (log 6). -/
theorem advance_mode_of_calls (h : ∀ tx ph p, s.activity = .framing tx ph p → ∃ f, p = .call f) :
    (advance s).mode = s.mode := by
  match ha : s.activity with
  | .waiting => rw [advance_waiting ha]
  | .driving =>
    obtain ⟨v, -, e⟩ | ⟨-, e⟩ := advance_driving ha <;> rw [e] <;> rfl
  | .framing tx ph p =>
    obtain ⟨f, rfl⟩ := h tx ph p ha
    have h := advance_command ha
    generalize advance s = t at *
    cases h <;> rfl

/-- Where the exchange of a write command fails, the attached device has lost the chunk's bytes (R61; log 24). -/
theorem advance_exchange_fails_device {tx : List Byte} {c : Chunk} {todo : List Chunk} {d : RefDevice} {v : EnvError}
    (ha : s.activity = .framing tx .exchange (.pageData c todo)) (hd : s.env.device = some d)
    (hf : s.env.xferAnswer tx = .fail v) :
    ∃ k, (advance s).env.device = some (d.lose k c.addr c.bytes.length) := by
  refine ⟨(s.env.drawXfer tx).2.drawn, ?_⟩
  simp [advance, ha, exchangeStep_fail hf, hf, hd, Purpose.atRisk]

/-! ### Which frames serve an instruction -/

theorem isHostOp_of_pageWritesOf {i : Instr} {chunks : List Chunk} (h : pageWritesOf i = some chunks) :
    isHostOp i = true := by
  cases i <;> first | rfl | cases h

/-- An instruction that is no host operation is served by its codec function's frame alone. -/
theorem Purpose.Serves.exists_call {p : Purpose} {i : Instr} (h : p.Serves i) (hop : isHostOp i = false) :
    ∃ f, p = .call f ∧ i = f.instr := by
  cases p with
  | call f => exact ⟨f, rfl, h⟩
  | initStatus | hostStatus | hostRead =>
    cases h
    cases hop
  | pageEnable | pageData | pagePoll =>
    obtain ⟨chunks, hc, -⟩ := h
    simp [isHostOp_of_pageWritesOf hc] at hop

/-- A frame of a host operation puts nothing at risk, or it belongs to one of the operation's page writes. -/
theorem Purpose.Serves.nothing_or_chunk {p : Purpose} {i : Instr} (h : p.Serves i) (hop : isHostOp i = true) :
    p.atRisk = (0, 0) ∨
    ∃ c todo chunks, p.pages = some (c, todo) ∧ pageWritesOf i = some chunks ∧ c ∈ chunks := by
  cases p with
  | initStatus | hostStatus | hostRead => exact .inl rfl
  | pageEnable c todo | pageData c todo | pagePoll c todo =>
    obtain ⟨chunks, hc, hsuf⟩ := h
    exact .inr ⟨c, todo, chunks, rfl, hc, hsuf.subset (by simp)⟩
  | call f =>
    rw [show i = f.instr from h] at hop
    cases f <;> cases hop

/-! ### A step of an instruction -/

/-- `u` is where a step of instruction `i` from `s` makes its interaction: `s` itself, its reset one step nearer, or `s`
with the operation begun. -/
structure ActsFrom (i : Instr) (s u : State) : Prop where
  device : u.env.device = s.env.device
  requests : u.host.requests = s.host.requests
  host : s.host.resetIn = none → u.host = s.host
  buffer : (∀ addr n, i ≠ .read addr n) → u.buffer = s.buffer
  mode : isHostOp i = false → u.mode = s.mode
  serves : ∀ tx ph p, u.activity = .framing tx ph p → p.Serves i ∧ (ph = .assert ∨ s.activity = .framing tx ph p)

theorem actsFrom_call (f : CodecCall) (s : State) : ActsFrom f.instr s (sendCall f s.begin) := by
  cases f <;> exact ⟨rfl, rfl, fun _ => rfl, fun _ => rfl, fun _ => rfl,
    fun _ _ _ h => by cases h; exact ⟨rfl, .inl rfl⟩⟩

/-- A write or an erase begins with its first page write, or is over before any interaction (R107). -/
theorem actsFrom_writeRest {i : Instr} {chunks : List Chunk} (hpw : pageWritesOf i = some chunks) (s : State) :
    ActsFrom i s (writeRest chunks s.begin) := by
  have hop := isHostOp_of_pageWritesOf hpw
  have ended : ∀ {u : State}, u.env = s.env → u.host = s.host → u.buffer = s.buffer → u.activity = .waiting →
      ActsFrom i s u := fun he hh hb ha =>
    ⟨by rw [he], by rw [hh], fun _ => hh, fun _ => hb, by simp [hop], by simp [ha]⟩
  cases chunks with
  | nil => exact ended rfl rfl rfl rfl
  | cons c todo =>
    rw [writeRest, startPageWrite]
    split
    · exact ended rfl rfl rfl rfl
    · refine ⟨rfl, rfl, fun _ => rfl, fun _ => rfl, by simp [hop], fun tx ph p h => ?_⟩
      cases h
      exact ⟨⟨_, hpw, List.suffix_refl _⟩, .inl rfl⟩

/-- The step that takes an instruction is the first interaction of its operation. -/
theorem exec_acts {i : Instr} (h : exec i s = .next t) : ∃ u, t = advance u ∧ ActsFrom i s u := by
  cases i with
  | cmdWren => exact ⟨_, (exec_cmdWren_next.mp h).2, actsFrom_call .writeEnable s⟩
  | cmdWrdi => exact ⟨_, (exec_cmdWrdi_next.mp h).2, actsFrom_call .writeDisable s⟩
  | cmdRdsr => exact ⟨_, (exec_cmdRdsr_next.mp h).2, actsFrom_call .readStatus s⟩
  | cmdRead addr n => exact ⟨_, (exec_cmdRead_next.mp h).2, actsFrom_call (.readData addr n) s⟩
  | cmdWrite addr chunk => exact ⟨_, (exec_cmdWrite_next.mp h).2, actsFrom_call (.writeData addr chunk) s⟩
  | cmdWrsr => exact absurd h exec_cmdWrsr_next
  | init => exact ⟨_, (exec_init_next.mp h).2.2, rfl, rfl, fun _ => rfl, fun _ => rfl, nofun, nofun⟩
  | readStatus =>
    exact ⟨_, (exec_readStatus_next.mp h).2.2, rfl, rfl, fun _ => rfl, fun _ => rfl, nofun,
      fun _ _ _ ha => by cases ha; exact ⟨rfl, .inl rfl⟩⟩
  | read addr n =>
    exact ⟨_, (exec_read_next.mp h).2.2, rfl, rfl, fun _ => rfl, fun hne => absurd rfl (hne addr n), nofun,
      fun _ _ _ ha => by cases ha; exact ⟨rfl, .inl rfl⟩⟩
  | writeBytes addr data => exact ⟨_, (exec_writeBytes_next.mp h).2.2, actsFrom_writeRest rfl s⟩
  | eraseSectors addr amount =>
    obtain ⟨-, -, hpos, ht⟩ := exec_eraseSectors_next.mp h
    exact ⟨_, ht, actsFrom_writeRest (by rw [pageWritesOf, if_neg (by omega)]) s⟩
  | eraseAll => exact ⟨_, (exec_eraseAll_next.mp h).2.2, actsFrom_writeRest rfl s⟩

theorem InProgress.not_waiting {i : Instr} (h : InProgress i s) : s.activity ≠ .waiting := by
  intro ha
  simp [InProgress, ha] at h

theorem InProgress.serves {i : Instr} (h : InProgress i s) {tx : List Byte} {ph : Phase} {p : Purpose}
    (ha : s.activity = .framing tx ph p) : p.Serves i := by
  simpa [InProgress, ha] using h

/-- Every step of an instruction is one interaction, from a state that `ActsFrom` describes. -/
theorem StepOf.acts {i : Instr} (h : StepOf i s t) : ∃ u, t = advance u ∧ ActsFrom i s u := by
  obtain h | ⟨hp, hr, h⟩ := h
  · exact exec_acts h
  · rw [step_running hr hp.not_waiting, Host.Outcome.next.injEq] at h
    exact ⟨_, h.symm, rfl, rfl, tick_none, fun _ => rfl, fun _ => rfl,
      fun _ _ _ ha => ⟨hp.serves ha, .inr ha⟩⟩

theorem StepOf.requests {i : Instr} (h : StepOf i s t) : t.host.requests = s.host.requests := by
  obtain ⟨u, rfl, hu⟩ := h.acts
  rw [advance_host, hu.requests]

/-- Only a step of `read` writes the host's buffer (R43). -/
theorem StepOf.buffer {i : Instr} (h : StepOf i s t) (hread : ∀ addr n, i ≠ .read addr n) : t.buffer = s.buffer := by
  obtain ⟨u, rfl, hu⟩ := h.acts
  rw [advance_buffer_of_no_read fun tx ph addr n ha => hread addr n (hu.serves _ _ _ ha).1, hu.buffer hread]

/-- A step of an instruction changes no byte of the device's array outside a range that holds the bytes each of its
frames may write. -/
theorem StepOf.sameBytes {i : Instr} (hs : s.Inv) (h : StepOf i s t)
    (hp : ∀ tx ph p, s.activity = .framing tx ph p → p.Serves i → p.AtRiskInPage ∧ p.AtRiskWithin lo hi) :
    SameBytesOutside lo hi s t := by
  obtain ⟨u, rfl, hu⟩ := h.acts
  by_cases hassert : ∀ tx ph p, u.activity = .framing tx ph p → ph = .assert
  · exact sameBytesOutside_of_device_eq ((advance_device_of_assert hassert).trans hu.device)
  · push Not at hassert
    obtain ⟨tx, ph, p, hua, hph⟩ := hassert
    obtain ⟨hserves, hsa⟩ := hu.serves tx ph p hua
    have hsa := hsa.resolve_left hph
    obtain ⟨hpage, hwithin⟩ := hp tx ph p hsa hserves
    obtain ⟨hsends, -⟩ := hs.framing tx ph p hsa
    have hbytes := advance_sameBytes hua (by rw [hu.device]; exact hs.device_ok) hsends hpage
    rw [SameBytesOutside, hu.device] at hbytes
    exact SameBytesOutside.mono hbytes hwithin

theorem StepOf.mode {i : Instr} (h : StepOf i s t) (hop : isHostOp i = false) : t.mode = s.mode := by
  obtain ⟨u, rfl, hu⟩ := h.acts
  rw [advance_mode_of_calls fun tx ph p ha => ?_, hu.mode hop]
  obtain ⟨f, hf, -⟩ := (hu.serves tx ph p ha).1.exists_call hop
  exact ⟨f, hf⟩

/-- With no reset on its way a step of an instruction leaves the host's side as it was. -/
theorem StepOf.host {i : Instr} (h : StepOf i s t) (hr : s.host.resetIn = none) : t.host = s.host := by
  obtain ⟨u, rfl, hu⟩ := h.acts
  rw [advance_host, hu.host hr]

/-- A step of a host operation changes no byte of the device's array outside a range that holds its page writes. -/
theorem StepOf.sameBytes_of_chunks {i : Instr} (hs : s.Inv) (h : StepOf i s t) (hop : isHostOp i = true)
    (hc : ∀ chunks, pageWritesOf i = some chunks → ∀ c ∈ chunks, lo ≤ c.addr ∧ c.addr + c.bytes.length ≤ hi) :
    SameBytesOutside lo hi s t := by
  refine h.sameBytes hs fun tx ph p ha hp => ?_
  obtain hr | ⟨c, todo, chunks, hpages, hchunks, hmem⟩ := hp.nothing_or_chunk hop
  · exact ⟨Purpose.atRiskInPage_of_nothing hr, Purpose.atRiskWithin_of_nothing hr⟩
  · obtain ⟨hlo, hhi⟩ := hc chunks hchunks c hmem
    exact ⟨hs.atRiskInPage ha hpages, Purpose.atRiskWithin_of_pages hpages hlo hhi⟩

/-! ### The wire commands -/

/-- Settles O56: a wire command's frames are its codec function's, and only a write frame puts bytes at risk. -/
theorem codecCommandsFrame : Obligations.CodecCommandsFrame := by
  intro i s t hs hop h
  have hread : ∀ addr n, i ≠ .read addr n := by
    rintro addr n rfl
    cases hop
  refine ⟨h.mode hop, h.buffer hread, h.requests, h.host, fun hwrite => h.sameBytes hs fun tx ph p _ hp => ?_⟩
  obtain ⟨f, rfl, rfl⟩ := hp.exists_call hop
  have hr : (Purpose.call f).atRisk = (0, 0) := by
    cases f with
    | writeData addr chunk => exact absurd rfl (hwrite addr chunk)
    | _ => rfl
  exact ⟨Purpose.atRiskInPage_of_nothing hr, Purpose.atRiskWithin_of_nothing hr⟩

/-- Settles O57: the bytes its frame carries and those its failure puts at risk are the same, within a page (R82). -/
theorem writeCommandFrame : Obligations.WriteCommandFrame := by
  intro s t addr chunk hs hw h
  simp only [Instr.WellFormed, Instr.wellFormed, Bool.and_eq_true, decide_eq_true_eq] at hw
  obtain ⟨⟨haddr, -⟩, hpage⟩ := hw
  refine h.sameBytes hs fun tx ph p _ hp => ?_
  obtain ⟨f, rfl, hf⟩ := hp.exists_call rfl
  cases f <;> cases hf
  exact ⟨⟨haddr, hpage⟩, fun a hlo hhi => ⟨hlo, hhi⟩⟩

/-! ### Where the splitter's chunks lie -/

theorem laterChunks_within {fuel cur : Nat} {rest : List Byte} {c : Chunk} (h : c ∈ laterChunks fuel cur rest) :
    cur ≤ c.addr ∧ c.addr + c.bytes.length ≤ cur + rest.length := by
  induction fuel generalizing cur rest with
  | zero => cases h
  | succ fuel ih =>
    cases rest with
    | nil => simp at h
    | cons b rest =>
      rw [laterChunks] at h
      obtain rfl | h := List.mem_cons.mp h
      · simp only [List.length_take]
        omega
      · have hlong : Config.pageSize < (b :: rest).length := by
          by_contra hle
          rw [List.drop_eq_nil_of_le (by omega), laterChunks_nil] at h
          cases h
        have := ih h
        rw [List.length_drop] at this
        omega

theorem zeroPages_within {n cur : Nat} {c : Chunk} (h : c ∈ zeroPages n cur) :
    cur ≤ c.addr ∧ c.addr + c.bytes.length ≤ cur + 32 * n := by
  induction n generalizing cur with
  | zero => cases h
  | succ n ih =>
    obtain rfl | h := List.mem_cons.mp h
    · simp only [zeros, List.length_replicate, Config.pageSize]
      omega
    · have := ih h
      simp only [Config.pageSize] at this
      omega

theorem nextPage_eq (a : Nat) : nextPage a = a + firstChunkLength a := by
  have := Nat.mod_lt a (show 0 < Config.pageSize by decide)
  have := Nat.mod_le a Config.pageSize
  simp only [nextPage, firstChunkLength]
  omega

theorem nextPage_eq_pageBase (a : Nat) : nextPage a = pageBase a + 32 := rfl

/-- The chunks of a write lie in the bytes it names (R109). -/
theorem splitWrite_within {addr : Nat} {data : List Byte} {c : Chunk} (h : c ∈ splitWrite addr data) :
    addr ≤ c.addr ∧ c.addr + c.bytes.length ≤ addr + data.length := by
  obtain rfl | h := List.mem_cons.mp h
  · simp only [List.length_take]
    omega
  · have hlong : firstChunkLength addr < data.length := by
      by_contra hle
      rw [List.drop_eq_nil_of_le (by omega), laterChunks_nil] at h
      cases h
    have := laterChunks_within h
    rw [nextPage_eq, List.length_drop] at this
    omega

/-- The chunks of an erase lie between its address and the end of its last page (R112). -/
theorem splitErase_within {addr amount : Nat} {c : Chunk} (hpos : 1 ≤ amount) (h : c ∈ splitErase addr amount) :
    addr ≤ c.addr ∧ c.addr + c.bytes.length ≤ pageBase addr + 32 * amount := by
  have heq := nextPage_eq addr
  have hbase := nextPage_eq_pageBase addr
  obtain rfl | h := List.mem_cons.mp h
  · simp only [zeros, List.length_replicate]
    omega
  · have := zeroPages_within h
    omega

/-- Settles O59: every page write lies where the splitter puts it. -/
theorem writesFrame : Obligations.WritesFrame := by
  intro s t addr data amount hs
  refine ⟨fun h => ⟨h.buffer nofun, h.requests, h.sameBytes_of_chunks hs rfl fun chunks hc c hmem => ?_⟩,
    fun h => ⟨h.buffer nofun, h.requests, h.sameBytes_of_chunks hs rfl fun chunks hc c hmem => ?_⟩,
    fun h => ⟨h.buffer nofun, h.requests, h.sameBytes_of_chunks hs rfl fun chunks hc c hmem => ?_⟩⟩
  · cases hc
    exact splitWrite_within hmem
  · rw [pageWritesOf] at hc
    split at hc
    · cases hc
    · cases hc
      exact splitErase_within (by omega) hmem
  · cases hc
    exact splitErase_within (by decide) hmem

/-! ### Inside a page write -/

/-- Settles O60: the step is one interaction of a frame whose bytes at risk are the chunk's, and a failed exchange
leaves what `RefDevice.lose` says (log 24). -/
theorem pageWriteStepFrame : Obligations.PageWriteStepFrame := by
  intro s t tx ph p c todo hs ha hp hr ht
  rw [step_running hr (by simp [ha]), Host.Outcome.next.injEq] at ht
  subst ht
  obtain ⟨hsends, -⟩ := hs.framing tx ph p ha
  have hpage := hs.atRiskInPage ha hp
  refine ⟨advance_buffer_of_no_read fun tx' ph' addr n ha' => ?_, by rw [advance_host, tick_requests], ?_,
    fun hph => advance_device_of_assert fun tx' ph' p' ha' => ?_, ?_⟩
  · cases ha.symm.trans ha'
    cases hp
  · exact SameBytesOutside.mono (advance_sameBytes (s := { s with host := s.host.tick }) ha hs.device_ok hsends hpage)
      (Purpose.atRiskWithin_of_pages hp le_rfl le_rfl)
  · cases ha.symm.trans ha'
    exact hph
  · rintro d v rfl rfl hd hf
    obtain ⟨k, hk⟩ := advance_exchange_fails_device (s := { s with host := s.host.tick }) ha hd hf
    obtain ⟨haddr, hin⟩ : c.addr ≤ Config.maxAddr ∧ pageOff c.addr + c.bytes.length ≤ Config.pageSize := hpage
    refine ⟨_, k, hk, rfl, rfl, fun i hlt => ?_⟩
    rw [lose_byte (hs.device_ok d hd).arr_wf (lt_capacity_of_le_maxAddr haddr) hin, if_pos (by omega),
      Nat.add_sub_cancel_left]

/-! ### The polls of one page write -/

/-- A run that ends with no operation in progress goes by the first interaction of the one it began in. -/
theorem exists_runFor_advance {n : Nat} (hr : s.host.resetIn = none) (ha : s.activity ≠ .waiting)
    (hrun : runFor n s = .next u) (hu : u.activity = .waiting) : ∃ m, runFor m (advance s) = .next u := by
  cases n with
  | zero =>
    cases hrun
    exact absurd hu ha
  | succ n => exact ⟨n, by rw [← runFor_succ (step_running_none hr ha), hrun]⟩

/-- Data that fits the first page is one chunk (R109). -/
theorem splitWrite_onePage {addr : Nat} {data : List Byte} (h : data.length ≤ firstChunkLength addr) :
    splitWrite addr data = [⟨addr, data⟩] := by
  rw [splitWrite, List.take_of_length_le h, List.drop_eq_nil_of_le h, laterChunks_nil]

/-- Settles O50: one page write is run, and with data its write cycle answers busy `REF_BUSY_POLLS` times. -/
theorem pollsPerPageWrite : Obligations.PollsPerPageWrite := by
  intro s d addr data ⟨hwait, hreset⟩ hmode ⟨hcs, hxfer, hdev, hbusy, hwip⟩ haddr hdata hlen
  have hstart : writeRest (splitWrite addr.toNat data) s.begin =
      sendEnable (.pageEnable ⟨addr.toNat, data⟩ []) s.begin := by
    rw [splitWrite_onePage hlen, writeRest, startPageWrite]
    exact if_neg (Nat.not_lt.mpr haddr)
  obtain ⟨n, v, d', hrun, -, -, -, -, -, -, -, -, -, hpolls⟩ :=
    Runs.pageWrite (s := sendEnable (.pageEnable ⟨addr.toNat, data⟩ []) s.begin) ⟨⟨hcs, hxfer, hdev⟩, hreset⟩
      hbusy hwip rfl
  obtain ⟨m, hm⟩ := exists_runFor_advance (s := sendEnable _ s.begin) hreset (by simp) hrun rfl
  refine ⟨m, _, _, exec_writeBytes_next.mpr ⟨hwait, hmode, rfl⟩, by rw [hstart]; exact hm, rfl, ?_⟩
  rw [if_neg hdata] at hpolls
  simpa [writeRest] using hpolls

end Sys2Proof.Machine
end

section
/-! The two encoded interfaces (30_encoding.md): what the decoder reads from an encoded instruction, which requests
`step` refuses, and the opcodes of the frames a step sends. -/

namespace Sys2Proof.Machine

variable {s t : State} {opcodes : List Byte}

/-! ### Decoding what was encoded -/

theorem checkedWrite_of_wellFormed {addr : HostAddr} {chunk : List Byte} (h : (Instr.cmdWrite addr chunk).WellFormed) :
    checkedWrite addr chunk = .ok (.cmdWrite addr chunk) :=
  if_pos h

/-- A read frame is read back whatever its dummy bytes: only their number counts (R76). -/
theorem decode_readFrame (addr : HostAddr) (payload : List Byte) :
    decode (.codec (readFrame addr.toNat payload)) = .ok (.cmdRead addr payload.length) := by
  simp [decode, readFrame, decodeFrame, decodeAddr]

/-- A write frame the block can send is read back (R76, R82). -/
theorem decode_writeFrame {addr : HostAddr} {chunk : List Byte} (h : (Instr.cmdWrite addr chunk).WellFormed) :
    decode (.codec (writeFrame addr.toNat chunk)) = .ok (.cmdWrite addr chunk) := by
  simp [decode, writeFrame, decodeFrame, decodeAddr, checkedWrite_of_wellFormed h]

/-- Settles O1: the two rows with a wire address are their frames' lemmas; every other row is read back by its code. -/
theorem decodeEncode : Obligations.DecodeEncode := by
  intro d i hi
  cases i with
  | cmdRead addr n =>
    have h := decode_readFrame addr (List.replicate n d)
    rwa [List.length_replicate] at h
  | cmdWrite addr chunk => exact decode_writeFrame hi
  | cmdWren | cmdWrdi | cmdRdsr | cmdWrsr => rfl
  | init | readStatus | read | writeBytes | eraseSectors | eraseAll => rfl

/-! ### Refused requests -/

theorem decodeHost_reserved {r : HostRequest} (h : r.op = 0b110 ∨ r.op = 0b111) :
    decodeHost r = .error .reservedOp := by
  obtain h | h := h <;> rw [decodeHost, h] <;> rfl

/-- A block that is ready refuses a request that is no instruction (R129). -/
theorem step_badRequest {r : Request} {rest : List Request} {why : Reject} (hs : s.Ready)
    (hreq : s.host.requests = r :: rest) (hr : decode r = .error why) : step s = .refused (.badRequest why) := by
  obtain ⟨hwait, hreset⟩ := hs
  rw [step_waiting (by simp [hreset]) hwait]
  simp only [takeRequest, tick_requests, hreq, hr]

/-- Settles O5: the decoder knows no instruction for a reserved `op`. -/
theorem reservedOpRefused : Obligations.ReservedOpRefused := fun _ _ _ hs hreq hop =>
  step_badRequest hs hreq (decodeHost_reserved hop)

/-- Settles O11: the instruction's arm is the refusal itself. -/
theorem writeStatusRefused : Obligations.WriteStatusRefused := fun _ => rfl

/-! ### The opcodes of the frames sent -/

/-- The opcode of the frames the block sends for a purpose (R93 to R97). -/
def Purpose.opcode : Purpose → Byte
  | .initStatus => 0x05
  | .hostStatus => 0x05
  | .hostRead _ _ => 0x03
  | .pageEnable _ _ => 0x06
  | .pageData _ _ => 0x02
  | .pagePoll _ _ => 0x05
  | .call .writeEnable => 0x06
  | .call .writeDisable => 0x04
  | .call .readStatus => 0x05
  | .call (.readData _ _) => 0x03
  | .call (.writeData _ _) => 0x02

/-- The opcodes the block sends are 02 to 06 (R81). -/
theorem Purpose.opcode_mem (p : Purpose) : p.opcode ∈ ([0x02, 0x03, 0x04, 0x05, 0x06] : List Byte) := by
  cases p with
  | call f => cases f <;> simp [opcode]
  | _ => simp [opcode]

/-- Every frame begins with the opcode of its purpose (R73). -/
theorem Purpose.Sends.head? {p : Purpose} {tx : List Byte} (h : p.Sends tx) : tx.head? = some p.opcode := by
  have rdsr : (∃ d, tx = rdsrFrame d) → tx.head? = some 0x05 := by
    rintro ⟨d, rfl⟩
    rfl
  have read : ∀ {a n : Nat}, (∃ payload, payload.length = n ∧ tx = readFrame a payload) → tx.head? = some 0x03 := by
    rintro a n ⟨payload, -, rfl⟩
    rfl
  cases p with
  | initStatus | hostStatus | pagePoll => exact rdsr h
  | hostRead => exact read h
  | pageEnable | pageData => exact congrArg List.head? h
  | call f =>
    cases f with
    | readStatus => exact rdsr h
    | readData => exact read h
    | writeEnable | writeDisable | writeData => exact congrArg List.head? h

/-- An interaction sends no frame, or it is the exchange of the frame in progress (R46). -/
theorem advance_framesOf (s : State) :
    framesOf (advance s).trace = framesOf s.trace ∨
    ∃ tx p, s.activity = .framing tx .exchange p ∧ framesOf (advance s).trace = framesOf s.trace ++ [tx] := by
  by_cases ha : s.activity = .waiting
  · exact .inl (by rw [advance_waiting ha])
  · obtain ⟨ev, htrace, hev⟩ := advance_trace ha
    rw [htrace, framesOf_append]
    obtain hev | ⟨tx, p, hact, hev⟩ := hev
    · exact .inl (by simp [framesOf, hev])
    · exact .inr ⟨tx, p, hact, by rw [hev]⟩

/-- The frames sent keep to the opcodes given if the one an interaction exchanges does. -/
theorem SendsOnly.advance (h : SendsOnly opcodes s.trace)
    (hframe : ∀ tx p, s.activity = .framing tx .exchange p → ∃ op ∈ opcodes, tx.head? = some op) :
    SendsOnly opcodes (advance s).trace := by
  obtain hf | ⟨tx, p, ha, hf⟩ := advance_framesOf s <;> rw [SendsOnly, hf]
  · exact h
  · intro frame hmem
    obtain hmem | hmem := List.mem_append.mp hmem
    · exact h frame hmem
    · rw [List.mem_singleton.mp hmem]
      exact hframe tx p ha

/-- `u` is where an instruction just taken makes its first interaction: its trace is empty (R46), and a frame in
progress is at its assert. -/
structure AtFirstInteraction (u : State) : Prop where
  trace : u.trace = []
  atAssert : ∀ tx ph p, u.activity = .framing tx ph p → ph = .assert

theorem atFirstInteraction_of_call (f : CodecCall) (s : State) : AtFirstInteraction (sendCall f s.begin) := by
  cases f <;> exact ⟨rfl, fun _ _ _ h => by cases h; rfl⟩

/-- A write or an erase begins with a write-enable, or is over before any interaction (R107). -/
theorem atFirstInteraction_of_writeRest (chunks : List Chunk) (s : State) :
    AtFirstInteraction (writeRest chunks s.begin) := by
  cases chunks with
  | nil => exact ⟨rfl, nofun⟩
  | cons c todo =>
    rw [writeRest, startPageWrite]
    split
    · exact ⟨rfl, nofun⟩
    · exact ⟨rfl, fun _ _ _ h => by cases h; rfl⟩

theorem exec_atFirstInteraction {i : Instr} (h : exec i s = .next t) : ∃ u, t = advance u ∧ AtFirstInteraction u := by
  cases i with
  | cmdWren => exact ⟨_, (exec_cmdWren_next.mp h).2, atFirstInteraction_of_call _ s⟩
  | cmdWrdi => exact ⟨_, (exec_cmdWrdi_next.mp h).2, atFirstInteraction_of_call _ s⟩
  | cmdRdsr => exact ⟨_, (exec_cmdRdsr_next.mp h).2, atFirstInteraction_of_call _ s⟩
  | cmdRead => exact ⟨_, (exec_cmdRead_next.mp h).2, atFirstInteraction_of_call _ s⟩
  | cmdWrite => exact ⟨_, (exec_cmdWrite_next.mp h).2, atFirstInteraction_of_call _ s⟩
  | cmdWrsr => exact absurd h exec_cmdWrsr_next
  | init => exact ⟨_, (exec_init_next.mp h).2.2, rfl, nofun⟩
  | readStatus => exact ⟨_, (exec_readStatus_next.mp h).2.2, rfl, fun _ _ _ ha => by cases ha; rfl⟩
  | read => exact ⟨_, (exec_read_next.mp h).2.2, rfl, fun _ _ _ ha => by cases ha; rfl⟩
  | writeBytes => exact ⟨_, (exec_writeBytes_next.mp h).2.2, atFirstInteraction_of_writeRest _ s⟩
  | eraseSectors => exact ⟨_, (exec_eraseSectors_next.mp h).2.2.2, atFirstInteraction_of_writeRest _ s⟩
  | eraseAll => exact ⟨_, (exec_eraseAll_next.mp h).2.2, atFirstInteraction_of_writeRest _ s⟩

/-- The step that takes an instruction sends no frame yet. -/
theorem exec_sendsOnly {i : Instr} (h : exec i s = .next t) : SendsOnly opcodes t.trace := by
  obtain ⟨u, rfl, htrace, hassert⟩ := exec_atFirstInteraction h
  refine SendsOnly.advance (by simp [SendsOnly, htrace]) fun tx p ha => ?_
  exact absurd (hassert tx _ p ha) nofun

/-- Settles O54: by what a step can do; only the exchange of the frame in progress sends one, and by the invariant it
is its purpose's. -/
theorem stepSendsOnlyItsOpcodes : Obligations.StepSendsOnlyItsOpcodes := by
  intro s t hs hsent h
  obtain ⟨-, rfl⟩ | ⟨-, -, rfl⟩ | ⟨-, -, -, rfl⟩ | ⟨-, -, r, rest, i, -, -, hexec⟩ := step_cases h
  · exact hsent
  · refine SendsOnly.advance (s := { s with host := s.host.tick }) hsent fun tx p ha => ?_
    obtain ⟨hsends, -⟩ := hs.framing tx _ p ha
    exact ⟨p.opcode, p.opcode_mem, hsends.head?⟩
  · exact hsent
  · exact exec_sendsOnly hexec

end Sys2Proof.Machine
end

section
/-! The Command Codec (40_codec.md): how a command leaves chip-select (R90), and each codec function called on its own
(R93 to R97; log 6). -/

namespace Sys2Proof.Machine

variable {s t b : State} {tx rx : List Byte}

/-! ### Chip-select at the end of a command -/

/-- What a `CsSet` of the level leaves: its event at the end of the trace, and `S.cs` by its answer (R19, R28). -/
def CsDriven (level : Level) (s t : State) : Prop :=
  t.cs = csAfter level s.env.csAnswer ∧ t.trace = s.trace ++ [csEvent level s.env.csAnswer]

/-- A command's release drives chip-select High, whether the command then returns or raises (R88, R89). -/
theorem CommandStep.release_csDriven {x : XferAnswer} {p : Purpose} (h : CommandStep tx (.release x) p s t) :
    CsDriven .high s t := by
  cases h with
  | released => exact ⟨returned_cs _ _ _, returned_trace _ _ _⟩
  | raises => exact ⟨rfl, rfl⟩

/-- A failed assert leaves chip-select `Unknown`, and its failure is the event of the step (R89). -/
theorem CommandStep.assert_fails {p : Purpose} {v : EnvError} (h : CommandStep tx .assert p s t)
    (hv : s.env.csAnswer = .fail v) : t.cs = .unknown ∧ t.trace = s.trace ++ [.csLowFail v] := by
  cases h with
  | asserted hok => cases hok.symm.trans hv
  | assertFails => simp [hv, csAfter, csEvent]

/-- Driving chip-select High leaves it High, or `Unknown` where the `CsSet` failed; never Low (R89). -/
theorem CsDriven.high_or_unknown (h : CsDriven .high s t) :
    t.cs = .high ∨ (t.cs = .unknown ∧ ∃ v, t.trace = s.trace ++ [.csHighFail v]) := by
  obtain ⟨hcs, htrace⟩ := h
  cases ha : s.env.csAnswer with
  | ok => exact .inl (by rw [hcs, ha]; rfl)
  | fail v => exact .inr ⟨by rw [hcs, ha]; rfl, v, by rw [htrace, ha]; rfl⟩

/-- Settles O23: a command ends at its release, which drives chip-select High, or at an assert that failed. -/
theorem commandReleases : Obligations.CommandReleases := by
  intro s t tx ph p ha hr ht hend
  rw [step_running hr (by simp [ha]), Host.Outcome.next.injEq] at ht
  subst ht
  have hstep := advance_command (s := { s with host := s.host.tick }) ha
  obtain ⟨x, rfl⟩ | ⟨rfl, v, hv⟩ := hend
  · obtain hcs | ⟨hcs, v, htrace⟩ := hstep.release_csDriven.high_or_unknown
    · exact .inl hcs
    · exact .inr ⟨hcs, v, .inr htrace⟩
  · obtain ⟨hcs, htrace⟩ := hstep.assert_fails hv
    exact .inr ⟨hcs, v, .inl htrace⟩

/-! ### A codec function called on its own -/

/-- The five wire rows with a codec function run it, admitted in any mode (log 6). -/
theorem exec_call (f : CodecCall) (s : State) : exec f.instr s = whenWaiting s (launch (sendCall f) s) := by
  cases f <;> rfl

/-- A codec function whose frame is answered without failure completes: `exec` makes its assert, two more steps the
exchange and the release, and it returns what it reads from the answer (R88, R93 to R97). -/
theorem exec_call_completes {f : CodecCall} (hs : s.Ready) (hsend : sendCall f s.begin = sendFrame tx (.call f) b)
    (hframe : FrameOk b tx rx) :
    exec f.instr s = .next (asserted b tx (.call f)) ∧
      runFor 2 (asserted b tx (.call f)) = .next ((afterFrame b tx rx).finish (callResult f rx)) := by
  obtain ⟨hwait, hreset⟩ := hs
  have hhost : (sendCall f s.begin).host.resetIn = none := by rw [(actsFrom_call f s).host hreset, hreset]
  obtain ⟨hassert, hrest⟩ :=
    launch_frame (p := .call f) (rx := rx) hhost (by rw [hsend]; rfl) (by rw [hsend]; exact hframe)
  rw [hsend] at hassert hrest
  exact ⟨by rw [exec_call, whenWaiting_next]; exact ⟨hwait, hassert⟩, hrest⟩

/-- Settles O24: both functions send one opcode byte and return `Ok`. -/
theorem wrenAndWrdiComplete : Obligations.WrenAndWrdiComplete := fun _ _ hs =>
  ⟨exec_call_completes (f := .writeEnable) hs rfl, exec_call_completes (f := .writeDisable) hs rfl⟩

/-- Settles O25: the status returned is the second byte under the mask, which is `0x8F` (R13). -/
theorem rdsrCompletes : Obligations.RdsrCompletes := by
  rintro s _ rx hs rfl hframe
  exact exec_call_completes (f := .readStatus) hs rfl hframe

/-- The answer to a read frame is three bytes and the `n` bytes read (R20, R76). -/
theorem length_drop_of_readFrame {a n : Nat} (h : FrameOk b (nextRead s a n) rx) : (rx.drop 3).length = n := by
  obtain ⟨-, hxfer, -⟩ := h
  obtain ⟨payload, hlen, heq⟩ := nextRead_sends s a n
  rw [List.length_drop, answerLength _ _ _ hxfer, heq, readFrame]
  simp [hlen]

/-- Where there are just `n` bytes after the first three, `ReadData` returns all of them (R96). -/
theorem dataIn_eq_drop {n : Nat} (h : (rx.drop 3).length = n) : dataIn n rx = rx.drop 3 :=
  List.take_of_length_le h.le

/-- Settles O26: the answer has its frame's length, so the data is all that follows the first three bytes. -/
theorem readCommandCompletes : Obligations.ReadCommandCompletes := by
  rintro s _ addr n rx _ hs rfl rfl hframe
  have hlen := length_drop_of_readFrame hframe
  have hrun := exec_call_completes (f := .readData addr n) hs rfl hframe
  rw [callResult, dataIn_eq_drop hlen] at hrun
  exact ⟨hlen, hrun⟩

/-- Settles O27: the frame is the opcode, the address high byte first, and the chunk. -/
theorem writeCommandCompletes : Obligations.WriteCommandCompletes := by
  rintro s addr chunk rx _ hs rfl hframe
  exact exec_call_completes (f := .writeData addr chunk) hs rfl hframe

end Sys2Proof.Machine
end

section
/-! The invariant (R31, R90, R99): every interaction keeps it, and so does every step. And the mode an error leaves
(R131). -/

namespace Sys2Proof.Machine

variable {s t : State} {tx rx : List Byte} {ph : Phase} {p : Purpose} {c : Chunk} {todo chunks : List Chunk} {i : Instr}

/-! ### The next page write and the next poll -/

/-- A page write of the array starts with its write-enable (R101). -/
theorem writeRest_cons_of_le (todo : List Chunk) (s : State) (h : c.addr ≤ Config.maxAddr) :
    writeRest (c :: todo) s = sendEnable (.pageEnable c todo) s :=
  if_neg (Nat.not_lt.mpr h)

/-- A page write above the array fails before any bus activity (R107). -/
theorem writeRest_cons_of_lt (todo : List Chunk) (s : State) (h : Config.maxAddr < c.addr) :
    writeRest (c :: todo) s = s.abort false .addressOutOfBounds :=
  if_pos h

theorem returned_poll_of_busy (h : statusWip (statusIn rx) = true) (s : State) :
    returned (.pagePoll c todo) rx s = sendStatus (.pagePoll c todo) s :=
  if_pos h

theorem returned_poll_of_ready (h : statusWip (statusIn rx) = false) (s : State) :
    returned (.pagePoll c todo) rx s = writeRest todo { s with mode := .idle } :=
  if_neg (by simp [h])

/-! ### The page writes to do -/

/-- Page writes the splitter makes: the first one inside its page, the others from the page after it on (R104, R105). -/
def PageChunks : List Chunk → Prop
  | [] => True
  | c :: todo => pageOff c.addr + c.bytes.length ≤ Config.pageSize ∧ ChunksFrom (nextPage c.addr) todo

theorem pageOff_nextPage (a : Nat) : pageOff (nextPage a) = 0 := by
  simp only [pageOff, nextPage, Config.pageSize]
  omega

theorem nextPage_of_pageOff_eq_zero {a : Nat} (h : pageOff a = 0) : nextPage a = a + Config.pageSize := by
  simp only [pageOff] at h
  simp [nextPage, h]

theorem pageOff_add_firstChunkLength (a : Nat) : pageOff a + firstChunkLength a = Config.pageSize := by
  simp only [pageOff, firstChunkLength, Config.pageSize]
  omega

/-- What is left from a page boundary on is again such a list. -/
theorem ChunksFrom.pageChunks {cur : Nat} (hcur : pageOff cur = 0) (h : ChunksFrom cur chunks) : PageChunks chunks := by
  cases chunks with
  | nil => trivial
  | cons c todo =>
    obtain ⟨haddr, hlen, hrest⟩ := h
    subst haddr
    rw [← nextPage_of_pageOff_eq_zero hcur] at hrest
    exact ⟨by omega, hrest⟩

theorem pageChunks_splitWrite (addr : Nat) (data : List Byte) : PageChunks (splitWrite addr data) := by
  refine ⟨?_, laterChunks_from _ _ _⟩
  have := pageOff_add_firstChunkLength addr
  simp only [List.length_take]
  omega

theorem pageChunks_splitErase (addr amount : Nat) : PageChunks (splitErase addr amount) :=
  ⟨by simp [zeros, pageOff_add_firstChunkLength], zeroPages_from _ _⟩

theorem pageChunks_of_pageWritesOf (h : pageWritesOf i = some chunks) : PageChunks chunks := by
  cases i with
  | writeBytes =>
    cases h
    exact pageChunks_splitWrite _ _
  | eraseSectors =>
    rw [pageWritesOf] at h
    split at h
    · cases h
    · cases h
      exact pageChunks_splitErase _ _
  | eraseAll =>
    cases h
    exact pageChunks_splitErase _ _
  | _ => cases h

/-! ### The invariant, by where the block is -/

/-- An attached reference device keeps its own invariant. -/
def State.DeviceOk (s : State) : Prop := ∀ d, s.env.device = some d → d.Ok

/-- What holds all through the command of a purpose, and still when it returns (R99, R107, R123). -/
structure InCommand (p : Purpose) (s : State) : Prop where
  result : s.result = none
  mode : p.InMode s.mode
  pages : ∀ c todo, p.pages = some (c, todo) → c.addr ≤ Config.maxAddr ∧ PageChunks (c :: todo)

theorem State.Inv.inCommand (hs : s.Inv) (ha : s.activity = .framing tx ph p) : InCommand p s :=
  ⟨hs.running (by simp [ha]), (hs.framing _ _ _ ha).2.1, fun c todo => hs.pages _ _ _ c todo ha⟩

/-- A block that waits after `init` succeeded is in mode Idle (R99). -/
theorem State.Inv.idle (hs : s.Inv) (ha : s.activity = .waiting) (hmode : s.mode ≠ .uninitialized) :
    s.mode = .idle ∧ s.cs ≠ .low := by
  obtain ⟨hm, hcs⟩ := hs.waiting ha
  exact ⟨hm.resolve_left hmode, hcs⟩

theorem inv_of_waiting (ha : s.activity = .waiting) (hmode : s.mode = .uninitialized ∨ s.mode = .idle)
    (hcs : s.cs ≠ .low) (hd : s.DeviceOk) : s.Inv where
  waiting _ := ⟨hmode, hcs⟩
  driving := by simp [ha]
  running := by simp [ha]
  framing := by simp [ha]
  pages := by simp [ha]
  device_ok := hd

theorem inv_of_framing (ha : s.activity = .framing tx ph p) (hc : InCommand p s) (hsends : p.Sends tx)
    (hcs : ph.CsIs s.cs) (hlen : ∀ rx, ph = .release (.ok rx) → rx.length = tx.length) (hd : s.DeviceOk) : s.Inv where
  waiting := by simp [ha]
  driving := by simp [ha]
  running _ := hc.result
  framing _ _ _ ha' := by
    cases ha.symm.trans ha'
    exact ⟨hsends, hc.mode, hcs, hlen⟩
  pages _ _ _ c todo ha' hp := by
    cases ha.symm.trans ha'
    exact hc.pages c todo hp
  device_ok := hd

/-- A command about to start. -/
theorem inv_of_assert (ha : s.activity = .framing tx .assert p) (hc : InCommand p s) (hsends : p.Sends tx)
    (hcs : s.cs ≠ .low) (hd : s.DeviceOk) : s.Inv :=
  inv_of_framing ha hc hsends hcs nofun hd

/-- The host's side is no part of it. -/
theorem State.Inv.withHost (hs : s.Inv) (h : HostSide) : State.Inv { s with host := h } :=
  ⟨hs.waiting, hs.driving, hs.running, hs.framing, hs.pages, hs.device_ok⟩

/-! ### What follows a command -/

/-- The page writes to do, from mode Idle: the next one's write-enable, the end, or the abort (R101, R107, R109). -/
theorem writeRest_inv (hc : PageChunks chunks) (hmode : s.mode = .idle) (hres : s.result = none) (hcs : s.cs ≠ .low)
    (hd : s.DeviceOk) : (writeRest chunks s).Inv := by
  cases chunks with
  | nil => exact inv_of_waiting rfl (.inr hmode) hcs hd
  | cons c todo =>
    by_cases haddr : c.addr ≤ Config.maxAddr
    · rw [writeRest_cons_of_le todo s haddr]
      refine inv_of_assert rfl ⟨hres, hmode, fun c' todo' h => ?_⟩ rfl hcs hd
      cases h
      exact ⟨haddr, hc⟩
    · rw [writeRest_cons_of_lt todo s (by omega)]
      exact inv_of_waiting rfl (.inr rfl) hcs hd

theorem returned_inv (hc : InCommand p s) (hcs : s.cs ≠ .low) (hd : s.DeviceOk) : (returned p rx s).Inv := by
  obtain ⟨hres, hmode, hpages⟩ := hc
  cases p with
  | initStatus =>
    rw [returned, initRead]
    split
    · exact inv_of_waiting rfl (.inl hmode) hcs hd
    · exact inv_of_waiting rfl (.inr rfl) hcs hd
  | hostStatus | hostRead => exact inv_of_waiting rfl (.inr hmode) hcs hd
  | call => exact inv_of_waiting rfl hmode hcs hd
  | pageEnable => exact inv_of_assert rfl ⟨hres, rfl, hpages⟩ rfl hcs hd
  | pageData => exact inv_of_assert rfl ⟨hres, rfl, hpages⟩ (nextRdsr_sends _) hcs hd
  | pagePoll c todo =>
    cases hwip : statusWip (statusIn rx) with
    | true =>
      rw [returned_poll_of_busy hwip]
      exact inv_of_assert rfl ⟨hres, hmode, hpages⟩ (nextRdsr_sends _) hcs hd
    | false =>
      obtain ⟨-, -, hrest⟩ := hpages c todo rfl
      rw [returned_poll_of_ready hwip]
      exact writeRest_inv (hrest.pageChunks (pageOff_nextPage _)) rfl hres hcs hd

/-! ### The next interaction -/

/-- Neither a frame that went through nor one that failed breaks the attached device's invariant (R70; log 24). -/
theorem advance_deviceOk (hd : s.DeviceOk) : (advance s).DeviceOk := by
  have map_ok : ∀ {f : RefDevice → RefDevice}, (∀ d, d.Ok → (f d).Ok) →
      (advance s).env.device = s.env.device.map f → (advance s).DeviceOk := by
    intro f hf h d hdev
    rw [h] at hdev
    obtain ⟨d', hd', rfl⟩ := Option.map_eq_some_iff.mp hdev
    exact hf d' (hd d' hd')
  obtain h | ⟨tx, ph, p, -, ⟨-, h⟩ | ⟨-, k, h⟩⟩ := advance_device s
  · rwa [State.DeviceOk, h]
  · exact map_ok (fun d hd => devExchange_ok hd tx) h
  · exact map_ok (fun d hd => lose_ok hd k _ _) h

/-- A `CsSet` that failed, or one to High, leaves chip-select not knowingly Low (R28, R89). -/
theorem csAfter_high_ne_low (a : CsAnswer) : csAfter .high a ≠ .low := by cases a <;> nofun

/-- The abort leaves mode Idle, or the mode of a purpose that keeps it: Uninitialized or Idle (R131; log 6). -/
theorem Purpose.InMode.abort_mode {m : Mode} (h : p.InMode m) :
    (if p.keepsMode then m else .idle) = .uninitialized ∨ (if p.keepsMode then m else .idle) = .idle := by
  cases p with
  | initStatus => exact .inl h
  | call => exact h
  | _ => exact .inr rfl

/-- Each outcome of an interaction of `Command(tx)` keeps the invariant (R88). -/
theorem CommandStep.inv (h : CommandStep tx ph p s t) (ha : s.activity = .framing tx ph p) (hs : s.Inv)
    (hd : t.DeviceOk) : t.Inv := by
  have hc := hs.inCommand ha
  obtain ⟨hsends, hmode, hcs, -⟩ := hs.framing _ _ _ ha
  obtain ⟨hres, -, hpages⟩ := hc
  cases h with
  | asserted => exact inv_of_framing rfl ⟨hres, hmode, hpages⟩ hsends rfl nofun hd
  | assertFails hf => exact inv_of_waiting rfl hmode.abort_mode (by simp [hf, csAfter]) hd
  | exchanged hok =>
    refine inv_of_framing rfl ⟨hres, hmode, hpages⟩ hsends hcs (fun rx' hrx => ?_) hd
    cases hrx
    exact xferAnswer_length hok
  | exchangeFails => exact inv_of_framing rfl ⟨hres, hmode, hpages⟩ hsends hcs nofun hd
  | released => exact returned_inv ⟨hres, hmode, hpages⟩ (csAfter_high_ne_low _) hs.device_ok
  | raises => exact inv_of_waiting rfl hmode.abort_mode (csAfter_high_ne_low _) hd

/-- The next interaction keeps the invariant. -/
theorem advance_inv (hs : s.Inv) : (advance s).Inv := by
  have hd : (advance s).DeviceOk := advance_deviceOk hs.device_ok
  match ha : s.activity with
  | .waiting => rwa [advance_waiting ha]
  | .driving =>
    obtain ⟨hmode, -⟩ := hs.driving ha
    obtain ⟨v, -, e⟩ | ⟨-, e⟩ := advance_driving ha
    · rw [e] at hd ⊢
      exact inv_of_waiting rfl (.inl hmode) (csAfter_high_ne_low _) hd
    · rw [e] at hd ⊢
      exact inv_of_assert rfl ⟨hs.running (by simp [ha]), hmode, nofun⟩ (nextRdsr_sends _) (csAfter_high_ne_low _) hd
  | .framing tx ph p => exact (advance_command ha).inv ha hs hd

/-! ### Taking an instruction -/

/-- `u` is where an instruction just taken makes its first interaction: it is in progress, or it was a write or an erase
above the array and is over (R107). -/
structure Begun (i : Instr) (u : State) : Prop where
  inv : u.Inv
  inProgress_or_over :
    InProgress i u ∨ (u.activity = .waiting ∧ u.mode = .idle ∧ ∃ chunks, pageWritesOf i = some chunks)

theorem begun_of_assert (ha : s.activity = .framing tx .assert p) (hc : InCommand p s) (hsends : p.Sends tx)
    (hserves : p.Serves i) (hcs : s.cs ≠ .low) (hd : s.DeviceOk) : Begun i s :=
  ⟨inv_of_assert ha hc hsends hcs hd, .inl (by simpa [InProgress, ha] using hserves)⟩

theorem begun_call (f : CodecCall) (hmode : s.mode = .uninitialized ∨ s.mode = .idle) (hcs : s.cs ≠ .low)
    (hd : s.DeviceOk) : Begun f.instr (sendCall f s.begin) := by
  cases f with
  | writeEnable | writeDisable | writeData => exact begun_of_assert rfl ⟨rfl, hmode, nofun⟩ rfl rfl hcs hd
  | readStatus => exact begun_of_assert rfl ⟨rfl, hmode, nofun⟩ (nextRdsr_sends s) rfl hcs hd
  | readData addr n => exact begun_of_assert rfl ⟨rfl, hmode, nofun⟩ (nextRead_sends s addr.toNat n) rfl hcs hd

theorem begun_writeRest (h : pageWritesOf i = some chunks) (hmode : s.mode = .idle) (hcs : s.cs ≠ .low)
    (hd : s.DeviceOk) : Begun i (writeRest chunks s.begin) := by
  refine ⟨writeRest_inv (pageChunks_of_pageWritesOf h) hmode rfl hcs hd, ?_⟩
  cases chunks with
  | nil => exact .inr ⟨rfl, hmode, _, h⟩
  | cons c todo =>
    by_cases haddr : c.addr ≤ Config.maxAddr
    · rw [writeRest_cons_of_le todo _ haddr]
      exact .inl ⟨_, h, List.suffix_refl _⟩
    · rw [writeRest_cons_of_lt todo _ (by omega)]
      exact .inr ⟨rfl, rfl, _, h⟩

/-- The step that takes an instruction is the first interaction of an operation so begun. -/
theorem exec_begun (hs : s.Inv) (h : exec i s = .next t) : ∃ u, t = advance u ∧ Begun i u := by
  have call : ∀ f : CodecCall, s.activity = .waiting ∧ t = advance (sendCall f s.begin) →
      ∃ u, t = advance u ∧ Begun f.instr u := by
    rintro f ⟨ha, ht⟩
    obtain ⟨hmode, hcs⟩ := hs.waiting ha
    exact ⟨_, ht, begun_call f hmode hcs hs.device_ok⟩
  have write : ∀ {chunks}, pageWritesOf i = some chunks → ∃ u, t = advance u ∧ Begun i u := by
    intro chunks hi
    obtain ⟨ha, hne, ht⟩ := (exec_pageWrites_next hi).mp h
    obtain ⟨hmode, hcs⟩ := hs.idle ha hne
    exact ⟨_, ht, begun_writeRest hi hmode hcs hs.device_ok⟩
  cases i with
  | cmdWren => exact call .writeEnable (exec_cmdWren_next.mp h)
  | cmdWrdi => exact call .writeDisable (exec_cmdWrdi_next.mp h)
  | cmdRdsr => exact call .readStatus (exec_cmdRdsr_next.mp h)
  | cmdRead addr n => exact call (.readData addr n) (exec_cmdRead_next.mp h)
  | cmdWrite addr chunk => exact call (.writeData addr chunk) (exec_cmdWrite_next.mp h)
  | cmdWrsr => exact absurd h exec_cmdWrsr_next
  | init =>
    obtain ⟨ha, hmode, ht⟩ := exec_init_next.mp h
    exact ⟨_, ht, ⟨nofun, fun _ => ⟨hmode, (hs.waiting ha).2⟩, fun _ => rfl, nofun, nofun, hs.device_ok⟩, .inl rfl⟩
  | readStatus =>
    obtain ⟨ha, hne, ht⟩ := exec_readStatus_next.mp h
    obtain ⟨hmode, hcs⟩ := hs.idle ha hne
    exact ⟨_, ht, begun_of_assert rfl ⟨rfl, hmode, nofun⟩ (nextRdsr_sends s) rfl hcs hs.device_ok⟩
  | read addr n =>
    obtain ⟨ha, hne, ht⟩ := exec_read_next.mp h
    obtain ⟨hmode, hcs⟩ := hs.idle ha hne
    exact ⟨_, ht, begun_of_assert rfl ⟨rfl, hmode, nofun⟩ (nextRead_sends (lendBuffer n s.begin) addr.toNat n) rfl hcs
      hs.device_ok⟩
  | writeBytes | eraseAll => exact write rfl
  | eraseSectors addr amount =>
    obtain ⟨-, -, hpos, -⟩ := exec_eraseSectors_next.mp h
    exact write (if_neg (by omega))

/-! ### The step -/

theorem resetBlock_inv (hs : s.Inv) : s.resetBlock.Inv := inv_of_waiting rfl (.inl rfl) nofun hs.device_ok

/-- Settles O16: by what a step can do; an interaction keeps the invariant, and an instruction taken begins with it. -/
theorem stepKeepsInv : Obligations.StepKeepsInv := by
  intro s t hs h
  obtain ⟨-, rfl⟩ | ⟨-, -, rfl⟩ | ⟨-, -, -, rfl⟩ | ⟨-, -, r, rest, i, -, -, hexec⟩ := step_cases h
  · exact resetBlock_inv hs
  · exact advance_inv (hs.withHost _)
  · exact hs.withHost _
  · obtain ⟨u, rfl, hu⟩ := exec_begun (hs.withHost _) hexec
    exact advance_inv hu.inv

/-! ### After an error -/

/-- A command, and what follows it, ends in an error only by the abort (R131). -/
theorem CommandStep.error (h : CommandStep tx ph p s t) (hres : s.result = none) {e : Error}
    (he : t.result = some (.error e)) : t.activity = .waiting ∧ t.mode = if p.keepsMode then s.mode else .idle := by
  cases h with
  | asserted | exchanged | exchangeFails => cases hres.symm.trans he
  | assertFails | raises => exact ⟨rfl, rfl⟩
  | @released _ _ rx _ =>
    have h := returned_returns p rx (csSet .high s)
    generalize returned p rx (csSet .high s) = t at *
    cases h with
    | unexpectedStatus | outOfBounds => exact ⟨rfl, rfl⟩
    | enabled | sent | busy | next => cases hres.symm.trans he
    | initialized | status | read | done => cases he
    | @call _ f => cases f <;> cases he

/-- Of the frames of a host operation that of `init` alone keeps the mode when it fails (R131). -/
theorem Purpose.Serves.initStatus_or_not_keepsMode (h : p.Serves i) (hop : isHostOp i = true) :
    (i = .init ∧ p = .initStatus) ∨ (i ≠ .init ∧ p.keepsMode = false) := by
  cases p with
  | initStatus => exact .inl ⟨h, rfl⟩
  | hostStatus | hostRead =>
    cases h
    exact .inr ⟨nofun, rfl⟩
  | pageEnable | pageData | pagePoll =>
    obtain ⟨chunks, hc, -⟩ := h
    refine .inr ⟨?_, rfl⟩
    rintro rfl
    cases hc
  | call f =>
    rw [show i = f.instr from h] at hop
    cases f <;> cases hop

/-- Every step of an instruction is the first interaction of an operation so begun, or the next one of it. -/
theorem StepOf.begun (hs : s.Inv) (h : StepOf i s t) : ∃ u, t = advance u ∧ Begun i u := by
  obtain h | ⟨hp, hr, h⟩ := h
  · exact exec_begun hs h
  · rw [step_running hr hp.not_waiting, Host.Outcome.next.injEq] at h
    exact ⟨_, h.symm, hs.withHost _, .inl hp⟩

/-- Settles O20: an error comes from the abort, which keeps the mode of `init`, Uninitialized by the invariant. -/
theorem abortMode : Obligations.AbortMode := by
  intro i s t e hs hop hstep he
  obtain ⟨u, rfl, hu, hp | ⟨ha, hmode, chunks, hi⟩⟩ := hstep.begun hs
  · match ha : u.activity with
    | .waiting => exact absurd ha hp.not_waiting
    | .driving =>
      obtain rfl : i = .init := by simpa [InProgress, ha] using hp
      obtain ⟨hmode, -⟩ := hu.driving ha
      obtain ⟨v, -, h⟩ | ⟨-, h⟩ := advance_driving ha
      · rw [h]
        exact ⟨rfl, nofun, fun _ => hmode⟩
      · rw [h] at he
        cases (hu.running (by simp [ha])).symm.trans he
    | .framing tx ph p =>
      obtain ⟨hres, hin, -⟩ := hu.inCommand ha
      obtain ⟨hend, hmode⟩ := (advance_command ha).error hres he
      obtain ⟨rfl, rfl⟩ | ⟨hne, hkeeps⟩ := (hp.serves ha).initStatus_or_not_keepsMode hop
      · exact ⟨hend, nofun, fun _ => hmode.trans hin⟩
      · exact ⟨hend, fun _ => by rw [hmode, hkeeps]; rfl, fun heq => absurd heq hne⟩
  · rw [advance_waiting ha]
    exact ⟨ha, fun _ => hmode, by rintro rfl; cases hi⟩

end Sys2Proof.Machine
end

section
/-! The page write and its completion poll (R101, R102), run frame by frame, and the order of the exchanges of a write
or an erase (R103). -/

namespace Sys2Proof.Machine

variable {s t : State} {tx rx : List Byte} {ph : Phase} {p : Purpose} {c : Chunk} {todo chunks : List Chunk} {i : Instr}

/-! ### A page write, frame by frame -/

/-- Settles O40: two frames without failure, each followed by what `PageWrite` does next. -/
theorem pageWriteRuns : Obligations.PageWriteRuns := by
  rintro s _ _ c todo rx1 rx2 ha hreset hf1 rfl hf2 rfl
  have hrun := run_frame hreset ha hf1
  refine ⟨hrun, ?_⟩
  rw [show 6 = 3 + 3 from rfl, runFor_add hrun]
  exact run_frame (s := { afterFrame s wrenFrame rx1 with mode := .writeEnabled, activity := _ }) hreset rfl hf2

/-- WIP of the status a poll reads is bit 0 of the second byte received (R33, R93). -/
theorem statusWip_statusIn (rx : List Byte) : statusWip (statusIn rx) = (rx.getD 1 0).getLsbD 0 :=
  statusWip_decodeStatus _

/-- Settles O47: one frame without failure, and then the next poll. -/
theorem busyPollGoesOn : Obligations.BusyPollGoesOn := by
  intro s c todo tx rx ha hreset hframe hwip
  rw [run_frame hreset ha hframe, returned_poll_of_busy ((statusWip_statusIn rx).trans hwip)]
  rfl

/-- Settles O48: one frame without failure, and then the page writes that remain. -/
theorem pollEndsPageWrite : Obligations.PollEndsPageWrite := by
  intro s c todo tx rx ha hreset hframe hwip
  rw [run_frame hreset ha hframe, returned_poll_of_ready ((statusWip_statusIn rx).trans hwip)]
  refine ⟨?_, ?_⟩
  · rintro rfl
    rfl
  · rintro c' rest rfl
    refine ⟨fun haddr => ?_, fun haddr => ?_⟩
    · rw [writeRest_cons_of_le rest _ haddr]
      rfl
    · rw [writeRest_cons_of_lt rest _ haddr]
      rfl

/-! ### Exchanges in order -/

/-- One more element keeps a list's neighbours related if it may follow the last one. -/
theorem adjacent_concat {α : Type} {r : α → α → Bool} {y : α} :
    ∀ {xs : List α}, Adjacent r xs = true → (∀ x, xs.getLast? = some x → r x y = true) → Adjacent r (xs ++ [y]) = true
  | [], _, _ => rfl
  | [x], _, h => by simp [Adjacent, h x rfl]
  | x :: x' :: xs, hadj, h => by
    simp only [Adjacent, Bool.and_eq_true] at hadj
    simp only [List.cons_append, Adjacent, Bool.and_eq_true]
    exact ⟨hadj.1, adjacent_concat hadj.2 h⟩

/-- Exchanges that follow one another as R103 has it, the first one a write-enable. -/
def OrderedExchanges (xs : List (List Byte × Option (List Byte))) : Prop :=
  Adjacent exchangeMove xs = true ∧ ∀ x, xs.head? = some x → x.1 = wrenFrame

/-- A frame that may be exchanged next. -/
def MayFollow (xs : List (List Byte × Option (List Byte))) (tx : List Byte) : Prop :=
  (xs = [] → tx = wrenFrame) ∧ ∀ x, xs.getLast? = some x → exchangeMove x (tx, none) = true

theorem mayFollow_nil : MayFollow [] wrenFrame := ⟨fun _ => rfl, nofun⟩

theorem mayFollow_of_getLast? {xs : List (List Byte × Option (List Byte))} {x : List Byte × Option (List Byte)}
    (hlast : xs.getLast? = some x) (hmove : exchangeMove x (tx, none) = true) : MayFollow xs tx := by
  refine ⟨?_, fun y hy => ?_⟩
  · rintro rfl
    cases hlast
  · cases hlast.symm.trans hy
    exact hmove

/-- Whether an exchange may follow does not depend on its answer. -/
theorem OrderedExchanges.concat {xs : List (List Byte × Option (List Byte))} (h : OrderedExchanges xs)
    (hf : MayFollow xs tx) (answer : Option (List Byte)) : OrderedExchanges (xs ++ [(tx, answer)]) := by
  obtain ⟨hadj, hhead⟩ := h
  obtain ⟨hfirst, hmove⟩ := hf
  refine ⟨adjacent_concat hadj hmove, fun x hx => ?_⟩
  cases xs with
  | nil =>
    cases hx
    exact hfirst rfl
  | cons y ys => exact hhead x hx

/-- What an exchange so answered received, unless it failed. -/
def receivedIn : XferAnswer → Option (List Byte)
  | .ok rx => some rx
  | .fail _ => none

@[simp] theorem exchangesOf_xferEvent (tx : List Byte) (x : XferAnswer) :
    exchangesOf [xferEvent tx x] = [(tx, receivedIn x)] := by
  cases x <;> rfl

/-- A `CsSet` makes no exchange. -/
theorem exchangesOf_csSet (level : Level) (s : State) : exchangesOf (csSet level s).trace = exchangesOf s.trace := by
  simp

theorem exchangesOf_asserted (s : State) (tx : List Byte) (p : Purpose) :
    exchangesOf (asserted s tx p).trace = exchangesOf s.trace := by
  simp [exchangesOf]

theorem exchangesOf_exchange (tx : List Byte) (s : State) :
    exchangesOf (exchange tx s).trace = exchangesOf s.trace ++ [(tx, receivedIn (s.env.xferAnswer tx))] := by
  simp

theorem exchangesInOrder_of_waiting (ha : s.activity = .waiting) (h : OrderedExchanges (exchangesOf s.trace)) :
    ExchangesInOrder s := by
  obtain ⟨hadj, hhead⟩ := h
  refine ⟨hadj, hhead, ?_⟩
  rw [ha]
  trivial

theorem exchangesInOrder_of_not_released (ha : s.activity = .framing tx ph p) (hph : ∀ x, ph ≠ .release x)
    (h : OrderedExchanges (exchangesOf s.trace)) (hf : MayFollow (exchangesOf s.trace) tx) : ExchangesInOrder s := by
  obtain ⟨hadj, hhead⟩ := h
  refine ⟨hadj, hhead, ?_⟩
  rw [ha]
  cases ph with
  | assert | exchange => exact hf
  | release x => exact absurd rfl (hph x)

/-- A command about to start with a frame that may follow. -/
theorem exchangesInOrder_of_assert (ha : s.activity = .framing tx .assert p)
    (h : OrderedExchanges (exchangesOf s.trace)) (hf : MayFollow (exchangesOf s.trace) tx) : ExchangesInOrder s :=
  exchangesInOrder_of_not_released ha nofun h hf

theorem exchangesInOrder_of_release {x : XferAnswer} (ha : s.activity = .framing tx (.release x) p)
    (h : OrderedExchanges (exchangesOf s.trace)) (hlast : (exchangesOf s.trace).getLast? = some (tx, receivedIn x)) :
    ExchangesInOrder s := by
  obtain ⟨hadj, hhead⟩ := h
  refine ⟨hadj, hhead, ?_⟩
  rw [ha]
  cases x <;> exact hlast

/-! ### The moves of a page write -/

theorem exchangeMove_wren (rx : List Byte) (a : Nat) (chunk : List Byte) :
    exchangeMove (wrenFrame, some rx) (writeFrame a chunk, none) = true := by
  simp [exchangeMove, wrenFrame, writeFrame]

theorem exchangeMove_write (a : Nat) (chunk rx : List Byte) (d : Byte) :
    exchangeMove (writeFrame a chunk, some rx) (rdsrFrame d, none) = true := by
  simp [exchangeMove, writeFrame, rdsrFrame]

theorem exchangeMove_poll_of_busy (h : statusWip (statusIn rx) = true) (d d' : Byte) :
    exchangeMove (rdsrFrame d, some rx) (rdsrFrame d', none) = true := by
  simp [exchangeMove, rdsrFrame, h]

theorem exchangeMove_poll_of_ready (h : statusWip (statusIn rx) = false) (d : Byte) :
    exchangeMove (rdsrFrame d, some rx) (wrenFrame, none) = true := by
  simp [exchangeMove, rdsrFrame, wrenFrame, h]

/-- The page writes to do begin with a write-enable, if with any frame (R101, R107). -/
theorem writeRest_exchangesInOrder (chunks : List Chunk) (h : OrderedExchanges (exchangesOf s.trace))
    (hf : MayFollow (exchangesOf s.trace) wrenFrame) : ExchangesInOrder (writeRest chunks s) := by
  cases chunks with
  | nil => exact exchangesInOrder_of_waiting rfl h
  | cons c todo =>
    by_cases haddr : c.addr ≤ Config.maxAddr
    · rw [writeRest_cons_of_le todo s haddr]
      exact exchangesInOrder_of_assert rfl h hf
    · rw [writeRest_cons_of_lt todo s (by omega)]
      exact exchangesInOrder_of_waiting rfl h

/-- After a frame of a page write was answered, the frame that comes next may follow it (R101 to R103). -/
theorem returned_exchangesInOrder (hp : p.pages = some (c, todo)) (hsends : p.Sends tx)
    (h : OrderedExchanges (exchangesOf s.trace)) (hlast : (exchangesOf s.trace).getLast? = some (tx, some rx)) :
    ExchangesInOrder (returned p rx s) := by
  cases p with
  | initStatus | hostStatus | hostRead | call => cases hp
  | pageEnable =>
    cases hsends
    exact exchangesInOrder_of_assert rfl h (mayFollow_of_getLast? hlast (exchangeMove_wren _ _ _))
  | pageData =>
    cases hsends
    exact exchangesInOrder_of_assert rfl h (mayFollow_of_getLast? hlast (exchangeMove_write _ _ _ _))
  | pagePoll =>
    obtain ⟨d, rfl⟩ := hsends
    cases hwip : statusWip (statusIn rx) with
    | true =>
      rw [returned_poll_of_busy hwip]
      exact exchangesInOrder_of_assert rfl h (mayFollow_of_getLast? hlast (exchangeMove_poll_of_busy hwip _ _))
    | false =>
      rw [returned_poll_of_ready hwip]
      exact writeRest_exchangesInOrder _ h (mayFollow_of_getLast? hlast (exchangeMove_poll_of_ready hwip _))

/-- An interaction of a page write's frame keeps the order: only the exchange adds to it. -/
theorem CommandStep.exchangesInOrder (h : CommandStep tx ph p s t) (ha : s.activity = .framing tx ph p)
    (hp : p.pages = some (c, todo)) (hsends : p.Sends tx) (ho : ExchangesInOrder s) : ExchangesInOrder t := by
  obtain ⟨hadj, hhead, hact⟩ := ho
  have hord : OrderedExchanges (exchangesOf s.trace) := ⟨hadj, hhead⟩
  rw [ha] at hact
  cases h with
  | asserted =>
    have hf : MayFollow (exchangesOf s.trace) tx := hact
    rw [← exchangesOf_asserted s tx p] at hord hf
    exact exchangesInOrder_of_not_released rfl nofun hord hf
  | assertFails | raises =>
    rw [← exchangesOf_csSet] at hord
    exact exchangesInOrder_of_waiting rfl hord
  | exchanged he | exchangeFails he =>
    have hlast : (exchangesOf (exchange tx s).trace).getLast? = some (tx, receivedIn (s.env.xferAnswer tx)) := by
      rw [exchangesOf_exchange, List.getLast?_concat]
    have hord := hord.concat hact (receivedIn (s.env.xferAnswer tx))
    rw [← exchangesOf_exchange] at hord
    rw [he] at hlast
    exact exchangesInOrder_of_release rfl hord hlast
  | released =>
    have hlast : (exchangesOf s.trace).getLast? = some (tx, some _) := hact
    rw [← exchangesOf_csSet] at hord hlast
    exact returned_exchangesInOrder hp hsends hord hlast

/-- So does the next interaction of an operation whose frame in progress, if any, is a page write's. -/
theorem ExchangesInOrder.advance (ho : ExchangesInOrder s)
    (hframe : ∀ tx ph p, s.activity = .framing tx ph p → p.Sends tx ∧ ∃ c todo, p.pages = some (c, todo)) :
    ExchangesInOrder (advance s) := by
  match ha : s.activity with
  | .waiting => rwa [advance_waiting ha]
  | .driving =>
    obtain ⟨-, -, hact⟩ := ho
    rw [ha] at hact
    exact hact.elim
  | .framing tx ph p =>
    obtain ⟨hsends, c, todo, hp⟩ := hframe tx ph p ha
    exact (advance_command ha).exchangesInOrder ha hp hsends ho

/-- The only frame in progress where page writes start is a write-enable. -/
theorem writeRest_framing (ha : (writeRest chunks s).activity = .framing tx ph p) :
    tx = wrenFrame ∧ ∃ c todo, p = .pageEnable c todo := by
  cases chunks with
  | nil => cases ha
  | cons c todo =>
    by_cases haddr : c.addr ≤ Config.maxAddr
    · rw [writeRest_cons_of_le todo s haddr] at ha
      cases ha
      exact ⟨rfl, c, todo, rfl⟩
    · rw [writeRest_cons_of_lt todo s (by omega)] at ha
      cases ha

/-- A frame of a write or an erase is one of its page writes. -/
theorem Purpose.Serves.exists_pages (h : p.Serves i) (hi : pageWritesOf i = some chunks) :
    ∃ c todo, p.pages = some (c, todo) := by
  cases p with
  | pageEnable c todo | pageData c todo | pagePoll c todo => exact ⟨c, todo, rfl⟩
  | initStatus | hostStatus | hostRead =>
    cases h
    cases hi
  | call f =>
    cases h
    cases f <;> cases hi

/-- Settles O52: the exchanges made and the frame in progress keep to the order at every interaction; a reset makes
none. -/
theorem writeExchangeOrder : Obligations.WriteExchangeOrder := by
  intro i s t chunks
  refine ⟨fun hi h => ?_, fun hs hp hi ho h => ?_⟩
  · obtain ⟨-, -, rfl⟩ := (exec_pageWrites_next hi).mp h
    refine (writeRest_exchangesInOrder (s := s.begin) chunks ⟨rfl, nofun⟩ mayFollow_nil).advance fun tx ph p ha => ?_
    obtain ⟨rfl, c, todo, rfl⟩ := writeRest_framing ha
    exact ⟨rfl, c, todo, rfl⟩
  · obtain ⟨-, rfl⟩ | ⟨-, -, rfl⟩ | ⟨-, ha, -⟩ | ⟨-, ha, -⟩ := step_cases h
    · obtain ⟨hadj, hhead, -⟩ := ho
      exact exchangesInOrder_of_waiting rfl ⟨hadj, hhead⟩
    · refine ExchangesInOrder.advance (s := { s with host := s.host.tick }) ho fun tx ph p ha => ?_
      obtain ⟨hsends, -⟩ := hs.framing tx ph p ha
      exact ⟨hsends, (hp.serves ha).exists_pages hi⟩
    · exact absurd ha hp.not_waiting
    · exact absurd ha hp.not_waiting

end Sys2Proof.Machine
end

section
/-! The page splitter (R104 to R115): where its chunks lie, the bytes they name, and an erase as a write of zeros. -/

namespace Sys2Proof.Machine

variable {chunks : List Chunk} {data : List Byte}

/-! ### The first chunk -/

/-- Settles O34: an offset in a page is below 32, so what is left of the page is 1 to 32 bytes. -/
theorem firstChunkLength_spec : Obligations.FirstChunkLength := by
  intro a
  have hfcl : firstChunkLength a = 32 - a % 32 := rfl
  have hoff : a % 32 < 32 := Nat.mod_lt a (by decide)
  refine ⟨hfcl, ?_, ?_, ?_, ?_⟩ <;> omega

/-! ### Chunks and pages -/

/-- Of page writes the splitter makes each lies within a page, and each but the first begins one. -/
theorem PageChunks.getElem? (h : PageChunks chunks) {j : Nat} {c : Chunk} (hj : chunks[j]? = some c) :
    pageOff c.addr + c.bytes.length ≤ 32 ∧ (1 ≤ j → pageOff c.addr = 0) := by
  cases chunks with
  | nil => cases hj
  | cons c₀ todo =>
    obtain ⟨hpage, hfrom⟩ := h
    cases j with
    | zero =>
      cases hj
      exact ⟨hpage, nofun⟩
    | succ j =>
      obtain ⟨hoff, hlen⟩ := chunksFrom_get (pageOff_nextPage c₀.addr) hfrom j c hj
      exact ⟨by omega, fun _ => hoff⟩

/-- Settles O36: the page writes of a write and those of an erase are such lists. -/
theorem chunksWithinPage : Obligations.ChunksWithinPage := by
  rintro addr amount j data c (hj | hj)
  · exact (pageChunks_splitWrite addr data).getElem? hj
  · exact (pageChunks_splitErase addr amount).getElem? hj

/-! ### The bytes of a write, with their addresses -/

/-- `data` with the addresses it goes to, from `addr` on (R54). -/
def addressed (addr : Nat) (data : List Byte) : List (Nat × Byte) := data.zipIdx.map fun p => (addr + p.2, p.1)

theorem chunkBytes_cons (c : Chunk) (todo : List Chunk) :
    chunkBytes (c :: todo) = addressed c.addr c.bytes ++ chunkBytes todo := rfl

theorem addressed_append (addr : Nat) (xs ys : List Byte) :
    addressed addr (xs ++ ys) = addressed addr xs ++ addressed (addr + xs.length) ys := by
  rw [addressed, List.zipIdx_append, List.zipIdx_eq_map_add (l := ys)]
  simp [addressed, Nat.add_assoc]

/-- The first `k` bytes, and the others from `k` addresses on. -/
theorem addressed_take_append_drop (addr k : Nat) (data : List Byte) :
    addressed addr (data.take k) ++ addressed (addr + k) (data.drop k) = addressed addr data := by
  by_cases hk : k ≤ data.length
  · conv_rhs => rw [← List.take_append_drop k data, addressed_append, List.length_take_of_le hk]
  · rw [List.take_of_length_le (by omega), List.drop_eq_nil_of_le (by omega)]
    exact List.append_nil _

theorem map_fst_addressed (addr : Nat) (data : List Byte) :
    (addressed addr data).map Prod.fst = List.range' addr data.length := by
  calc (addressed addr data).map Prod.fst
      = (data.zipIdx.map Prod.snd).map (addr + ·) := by
        rw [addressed, List.map_map, List.map_map]
        rfl
    _ = List.range' addr data.length := by rw [List.zipIdx_map_snd, List.map_add_range', Nat.add_zero]

/-- The loop of a write names every byte it is given, once and in order, from its cursor on (R109). -/
theorem chunkBytes_laterChunks (fuel cur : Nat) (rest : List Byte) (h : rest.length ≤ fuel) :
    chunkBytes (laterChunks fuel cur rest) = addressed cur rest := by
  induction fuel generalizing cur rest with
  | zero =>
    rw [List.eq_nil_of_length_eq_zero (Nat.le_zero.mp h)]
    rfl
  | succ fuel ih =>
    cases rest with
    | nil => rfl
    | cons b rest =>
      have hrest : ((b :: rest).drop Config.pageSize).length ≤ fuel := by
        simp only [List.length_drop, Config.pageSize]
        omega
      rw [laterChunks, chunkBytes_cons, ih _ _ hrest, addressed_take_append_drop]

/-- So does the write (R110). -/
theorem chunkBytes_splitWrite (addr : Nat) (data : List Byte) :
    chunkBytes (splitWrite addr data) = addressed addr data := by
  rw [splitWrite, chunkBytes_cons, chunkBytes_laterChunks _ _ _ (by simp), nextPage_eq, addressed_take_append_drop]

/-! ### The chunks of a write in closed form -/

/-- Chunk `i + 1` of a write: the page `i + 1` after the first, and what its 32 bytes take of the data (R110). -/
theorem splitWrite_getElem?_succ {addr i : Nat} (hi : i < (data.length - firstChunkLength addr + 31) / 32) :
    (splitWrite addr data)[i + 1]? =
      some ⟨pageBase addr + 32 * (i + 1), (data.drop (firstChunkLength addr + 32 * i)).take 32⟩ := by
  rw [splitWrite, List.getElem?_cons_succ, laterChunks_get _ _ _ (by simp) i (by simpa using hi), List.drop_drop,
    nextPage_eq_pageBase, Nat.add_assoc, Nat.mul_succ, Nat.add_comm 32]

theorem splitWrite_length (addr : Nat) (data : List Byte) :
    (splitWrite addr data).length = 1 + (data.length - firstChunkLength addr + 31) / 32 := by
  rw [splitWrite, List.length_cons, laterChunks_length _ _ _ (by simp), List.length_drop, Nat.add_comm]

/-- A chunk cut at the end of the data is the chunk uncut. -/
theorem take_drop_min_length (a k : Nat) (data : List Byte) :
    (data.drop a).take (min data.length (a + k) - a) = (data.drop a).take k := by
  rw [List.take_eq_take_iff, List.length_drop]
  omega

/-- Settles O35: the loop's chunks page by page, and the bytes they name all together. -/
theorem splitWriteChunks : Obligations.SplitWriteChunks := by
  rintro addr data k0 J hk0 rfl
  have hJ : data.length - k0 = data.length - firstChunkLength addr := by omega
  rw [hJ]
  refine ⟨?_, fun j hpos hj => ?_, splitWrite_length addr data, chunkBytes_splitWrite addr data, ?_⟩
  · rw [hk0, ← List.take_eq_take_min]
    rfl
  · obtain ⟨i, rfl⟩ := Nat.exists_eq_add_of_le' hpos
    have hfirst : k0 = firstChunkLength addr := by omega
    rw [splitWrite_getElem?_succ hj, ← hfirst, Nat.add_sub_cancel, Nat.mul_succ,
      ← Nat.add_assoc k0, take_drop_min_length]
  · rw [chunkBytes_splitWrite, map_fst_addressed]
    exact List.nodup_range'

/-! ### An erase as a write of zeros -/

theorem take_zeros (k n : Nat) : (zeros n).take k = zeros (min k n) := List.take_replicate

theorem drop_zeros (k n : Nat) : (zeros n).drop k = zeros (n - k) := List.drop_replicate

/-- A round of the loop of a write that has data left (R109). -/
theorem laterChunks_succ {rest : List Byte} (h : rest ≠ []) (fuel cur : Nat) :
    laterChunks (fuel + 1) cur rest =
      ⟨cur, rest.take Config.pageSize⟩ :: laterChunks fuel (cur + Config.pageSize) (rest.drop Config.pageSize) := by
  cases rest with
  | nil => exact absurd rfl h
  | cons b rest => rfl

/-- The loop of an erase is the loop of a write of so many pages of zeros (R112). -/
theorem laterChunks_zeros (fuel n cur : Nat) (h : 32 * n ≤ fuel) :
    laterChunks fuel cur (zeros (32 * n)) = zeroPages n cur := by
  induction n generalizing fuel cur with
  | zero => exact laterChunks_nil fuel cur
  | succ n ih =>
    obtain ⟨fuel, rfl⟩ := Nat.exists_eq_add_of_le' (show 1 ≤ fuel by omega)
    have hne : zeros (32 * (n + 1)) ≠ [] := by simp [zeros]
    have htake : (zeros (32 * (n + 1))).take Config.pageSize = zeros Config.pageSize :=
      (take_zeros _ _).trans (congrArg zeros (Nat.min_eq_left (Nat.le_mul_of_pos_right 32 n.succ_pos)))
    have hdrop : (zeros (32 * (n + 1))).drop Config.pageSize = zeros (32 * n) := drop_zeros _ _
    rw [laterChunks_succ hne, htake, hdrop, ih _ _ (by omega)]
    rfl

theorem splitErase_eq_splitWrite_zeros (addr amount : Nat) :
    splitErase addr amount = splitWrite addr (zeros (firstChunkLength addr + 32 * (amount - 1))) := by
  rw [splitErase, splitWrite, take_zeros, drop_zeros, Nat.min_eq_left (Nat.le_add_right _ _), Nat.add_sub_cancel_left,
    laterChunks_zeros _ _ _ (by simp [zeros])]

/-! ### Admission of an erase -/

theorem admitted_of_waiting {s : State} (h : s.activity = .waiting) (k : Host.Outcome State Fault Refusal) :
    admitted s k = if s.mode = .uninitialized then .refused .notInitialized else k := by
  rw [admitted, whenWaiting, h]

theorem exec_eraseSectors_zero (addr : HostAddr) (s : State) :
    exec (.eraseSectors addr 0) s = admitted s (.refused .eraseOfZeroPages) := rfl

theorem exec_eraseSectors_of_pos {amount : Nat} (h : 1 ≤ amount) (addr : HostAddr) (s : State) :
    exec (.eraseSectors addr amount) s = admitted s (launch (writeRest (splitErase addr.toNat amount)) s) := by
  have hne : amount ≠ 0 := by omega
  rw [exec, execEraseSectors, if_neg hne]
  rfl

theorem exec_writeBytes (addr : HostAddr) (data : List Byte) (s : State) :
    exec (.writeBytes addr data) s = admitted s (launch (writeRest (splitWrite addr.toNat data)) s) := rfl

/-- Settles O37: both operations are admitted alike and launch the same page writes. -/
theorem eraseIsWriteOfZeros : Obligations.EraseIsWriteOfZeros :=
  ⟨fun addr amount _ => splitErase_eq_splitWrite_zeros addr amount, fun addr amount s hpos => by
    rw [exec_eraseSectors_of_pos hpos, exec_writeBytes, splitErase_eq_splitWrite_zeros]⟩

/-- Settles O10: the admission refuses before `init`, and the operation itself after it. -/
theorem eraseOfZeroPagesRefused : Obligations.EraseOfZeroPagesRefused := by
  intro s addr hwait
  rw [exec_eraseSectors_zero, admitted_of_waiting hwait, apply_ite Host.Outcome.refused]

end Sys2Proof.Machine
end

section
/-! The Driver Façade (43_facade.md): `read_status` and `read`, how they complete and how a `read` fails (R118, R119,
R131). -/

namespace Sys2Proof.Machine

variable {s t b : State} {tx rx : List Byte} {ph : Phase} {p : Purpose} {addr : HostAddr} {n : Nat} {e : Error}

/-! ### A host operation of one frame -/

/-- A host operation that is admitted and sends a frame answered without failure: its first step makes the assert, two
more the exchange and the release, and then comes what follows the command (R88, R117). -/
theorem admitted_launch_completes {start : State → State} (hs : s.Ready) (hmode : s.mode ≠ .uninitialized)
    (hsend : start s.begin = sendFrame tx p b) (hreset : b.host.resetIn = none) (hframe : FrameOk b tx rx) :
    admitted s (launch start s) = .next (asserted b tx p) ∧
      runFor 2 (asserted b tx p) = .next (returned p rx (afterFrame b tx rx)) := by
  obtain ⟨hwait, -⟩ := hs
  have hframe' : FrameOk (start s.begin) tx rx := by rwa [hsend]
  obtain ⟨hassert, hrest⟩ := launch_frame (p := p) (by rw [hsend]; exact hreset) (by rw [hsend]; rfl) hframe'
  rw [hsend] at hassert hrest
  exact ⟨admitted_next.mpr ⟨hwait, hmode, hassert⟩,
    hrest.trans (congrArg _ (returned_activity p rx (afterFrame b tx rx) _))⟩

/-- Settles O31: one frame, and its status under the mask, which is `0x8F` (R13). -/
theorem readStatusCompletes : Obligations.ReadStatusCompletes := by
  rintro s _ rx hs hmode rfl hframe
  exact admitted_launch_completes (start := startStatus) (p := .hostStatus) hs hmode rfl hs.2 hframe

/-- Settles O32: the answer has its frame's length, so the data is all that follows the first three bytes. -/
theorem readCompletes : Obligations.ReadCompletes := by
  rintro s _ addr n rx _ hs hmode rfl rfl hframe
  have hlen := length_drop_of_readFrame hframe
  have hrun := admitted_launch_completes (start := startRead addr n) (p := .hostRead addr n) hs hmode rfl hs.2 hframe
  rw [returned, dataIn_eq_drop hlen] at hrun
  exact ⟨hlen, hrun⟩

/-! ### A read that fails -/

/-- A command that ends its operation in an error raised a bus error, or it returned and what follows it did not
succeed. -/
theorem CommandStep.bus_error_or_returned (h : CommandStep tx ph p s t) (hres : s.result = none)
    (he : t.result = some (.error e)) :
    ((∃ v, e = .transport v) ∨ ∃ v, e = .gpio v) ∨ ∃ rx, t = returned p rx (csSet .high s) := by
  cases h with
  | asserted | exchanged | exchangeFails => cases hres.symm.trans he
  | assertFails =>
    cases he
    exact .inl (.inr ⟨_, rfl⟩)
  | released => exact .inr ⟨_, rfl⟩
  | raises hbus =>
    cases he
    exact .inl hbus

/-- The only frame of a `read` is its read frame (R119). -/
theorem InProgress.framing_of_read (h : InProgress (.read addr n) s) :
    ∃ tx ph, s.activity = .framing tx ph (.hostRead addr n) := by
  match ha : s.activity with
  | .waiting => exact absurd ha h.not_waiting
  | .driving => simp [InProgress, ha] at h
  | .framing tx ph p =>
    have hserves := h.serves ha
    cases p with
    | hostRead =>
      cases hserves
      exact ⟨tx, ph, rfl⟩
    | initStatus | hostStatus => cases hserves
    | pageEnable | pageData | pagePoll =>
      obtain ⟨chunks, hc, -⟩ := hserves
      cases hc
    | call f => cases f <;> cases hserves

/-- Unless it ends a `read` that succeeds, an interaction leaves the host's buffer as it was (R119). -/
theorem advance_buffer_of_not_okData (h : ∀ data, (advance s).result ≠ some (.okData data)) :
    (advance s).buffer = s.buffer := by
  obtain hb | ⟨tx, rx, addr, n, -, hres⟩ := advance_buffer s
  · exact hb
  · exact absurd hres (h _)

/-- The step that takes a `read` lends it the host's buffer (log 11). -/
theorem exec_read_buffer (h : exec (.read addr n) s = .next t) :
    t.buffer = (List.range n).map (Config.bufferByte s.env.drawn) := by
  obtain ⟨-, -, rfl⟩ := exec_read_next.mp h
  obtain hb | ⟨tx, rx, addr', n', ha, -⟩ := advance_buffer (startRead addr n s.begin)
  · exact hb
  · cases ha

/-- A `read` ends in an error only by a bus error (R119, R131). -/
theorem StepOf.bus_error_of_read (hs : s.Inv) (h : StepOf (.read addr n) s t) (he : t.result = some (.error e)) :
    (∃ v, e = .transport v) ∨ ∃ v, e = .gpio v := by
  obtain ⟨u, rfl, hu, hp | ⟨-, -, chunks, hc⟩⟩ := h.begun hs
  · obtain ⟨tx, ph, ha⟩ := hp.framing_of_read
    obtain hbus | ⟨rx, hret⟩ := (advance_command ha).bus_error_or_returned (hu.running hp.not_waiting) he
    · exact hbus
    · rw [hret] at he
      cases he
  · cases hc

/-- Settles O33: only a `read` that succeeds writes the buffer it was lent. -/
theorem readFails : Obligations.ReadFails := by
  intro s t addr n
  have keeps : InProgress (.read addr n) s → s.host.resetIn ≠ some 0 → step s = .next t →
      (∀ data, t.result ≠ some (.okData data)) → t.buffer = s.buffer := by
    intro hp hr ht hres
    rw [step_running hr hp.not_waiting, Host.Outcome.next.injEq] at ht
    subst ht
    exact advance_buffer_of_not_okData hres
  refine ⟨exec_read_buffer, fun _ hp hr ht hres => keeps hp hr ht (by simp [hres]), fun hs hstep e he => ?_⟩
  obtain ⟨-, hmode, -⟩ := abortMode _ s t e hs rfl hstep he
  refine ⟨hmode nofun, hstep.bus_error_of_read hs he, fun hp => ?_⟩
  obtain hexec | ⟨-, hr, ht⟩ := hstep
  · exact absurd (exec_read_next.mp hexec).1 hp.not_waiting
  · exact keeps hp hr ht (by simp [he])

end Sys2Proof.Machine
end

section
/-! A write on the bus (R101, R120): one page in any environment; and on the reference device every write and erase, the
bytes it leaves there and how it ends (R64, R108, R112, R122). -/

namespace Sys2Proof.Machine

variable {s u : State} {d d₁ d' : RefDevice} {c : Chunk} {todo chunks : List Chunk} {addr : HostAddr}
  {data : List Byte}

/-! ### One page, in any environment -/

/-- The last page write of an operation, from its write-enable, its two commands answered and the first poll reading
WIP = 0: three frames, and the operation returns `Ok` (R101, R102). -/
theorem run_lastPageWrite {s1 s2 : State} {rx1 rx2 rx3 : List Byte}
    (ha : s.activity = .framing wrenFrame .assert (.pageEnable c [])) (hreset : s.host.resetIn = none)
    (hf1 : FrameOk s wrenFrame rx1) (hs1 : s1 = { afterFrame s wrenFrame rx1 with mode := .writeEnabled })
    (hf2 : FrameOk s1 (writeFrame c.addr c.bytes) rx2)
    (hs2 : s2 = { afterFrame s1 (writeFrame c.addr c.bytes) rx2 with mode := .busy })
    (hf3 : FrameOk (s2.afterDummies 1) (nextRdsr s2) rx3) (hwip : (rx3.getD 1 0).getLsbD 0 = false) :
    runFor 9 s = .next { afterFrame (s2.afterDummies 1) (nextRdsr s2) rx3 with
                          mode := .idle, activity := .waiting, result := some .ok } := by
  obtain ⟨-, hwrite⟩ := pageWriteRuns s s1 s2 c [] rx1 rx2 ha hreset hf1 hs1 hf2 hs2
  have hreset2 : s2.host.resetIn = none := by rw [hs2, hs1]; exact hreset
  obtain ⟨hpoll, -⟩ := pollEndsPageWrite
    { s2.afterDummies 1 with activity := .framing (nextRdsr s2) .assert (.pagePoll c []) } c [] _ rx3 rfl hreset2 hf3
    hwip
  rw [show 9 = 6 + 3 from rfl, runFor_add hwrite, hpoll rfl]
  rfl

/-- Settles O41: data that fits its page is one chunk, the last one. -/
theorem writeOfOnePage : Obligations.WriteOfOnePage := by
  rintro s _ _ _ addr data rx1 rx2 rx3 ⟨hwait, hreset⟩ hmode haddr hlen hf1 rfl hf2 rfl hf3 rfl hwip
  have hrest := writeRest_cons_of_le (c := ⟨addr.toNat, data⟩) [] s.begin haddr
  have hassert := (advance_frame (s := sendEnable (.pageEnable ⟨addr.toNat, data⟩ []) s.begin) rfl hf1).1
  have hstep := step_running_none (s := sendEnable (.pageEnable ⟨addr.toNat, data⟩ []) s.begin) hreset nofun
  have hrun := run_lastPageWrite (c := ⟨addr.toNat, data⟩) (s := sendEnable (.pageEnable _ []) s.begin) rfl hreset hf1
    rfl hf2 rfl hf3 hwip
  rw [runFor_succ hstep, hassert] at hrun
  refine ⟨exec_writeBytes_next.mpr ⟨hwait, hmode, ?_⟩, hrun.trans ?_⟩
  · rw [splitWrite_onePage hlen, hrest, hassert]
    rfl
  · rw [← hwait]
    rfl

/-! ### The bytes of a list of page writes -/

theorem mem_addressed {a : Nat} {x : Nat × Byte} :
    x ∈ addressed a data ↔ ∃ (i : Nat) (h : i < data.length), x = (a + i, data[i]) := by
  simp only [addressed, List.mem_map, List.mem_zipIdx_iff_getElem?, Prod.exists, List.getElem?_eq_some_iff]
  constructor
  · rintro ⟨b, i, ⟨hi, hb⟩, rfl⟩
    exact ⟨i, hi, by rw [hb]⟩
  · rintro ⟨i, hi, rfl⟩
    exact ⟨_, i, ⟨hi, rfl⟩, rfl⟩

theorem chunkBytes_singleton (c : Chunk) : chunkBytes [c] = addressed c.addr c.bytes := List.append_nil _

/-- Page writes from a cursor on name no address below it (R105). -/
theorem ChunksFrom.le_of_mem_chunkBytes {cur : Nat} (h : ChunksFrom cur chunks) {x : Nat × Byte}
    (hx : x ∈ chunkBytes chunks) : cur ≤ x.1 := by
  induction chunks generalizing cur with
  | nil => cases hx
  | cons c todo ih =>
    obtain ⟨haddr, -, hrest⟩ := h
    rw [chunkBytes_cons] at hx
    obtain hx | hx := List.mem_append.mp hx
    · obtain ⟨i, -, rfl⟩ := mem_addressed.mp hx
      exact haddr ▸ Nat.le_add_right _ _
    · exact (Nat.le_add_right _ _).trans (ih hrest hx)

/-- A page write above the array and those that follow it name only addresses above the array. -/
theorem PageChunks.maxAddr_lt_of_mem_chunkBytes (h : PageChunks (c :: todo)) (hc : Config.maxAddr < c.addr)
    {x : Nat × Byte} (hx : x ∈ chunkBytes (c :: todo)) : Config.maxAddr < x.1 := by
  obtain ⟨-, hrest⟩ := h
  rw [chunkBytes_cons] at hx
  obtain hx | hx := List.mem_append.mp hx
  · obtain ⟨i, -, rfl⟩ := mem_addressed.mp hx
    exact hc.trans_le (Nat.le_add_right _ _)
  · have hle := hrest.le_of_mem_chunkBytes hx
    rw [nextPage_eq] at hle
    omega

/-- The bytes a list of page writes names are in the array, those of an address above it apart, and every byte it does
not name is as before (R54, R108). -/
structure Stores (chunks : List Chunk) (d d' : RefDevice) : Prop where
  stored : ∀ x ∈ chunkBytes chunks, x.1 ≤ Config.maxAddr → d'.byte x.1 = x.2
  kept : ∀ a, (∀ x ∈ chunkBytes chunks, x.1 ≠ a) → d'.byte a = d.byte a

/-- A list of page writes none of whose addresses is in the array stores nothing. -/
theorem stores_of_nothing (d : RefDevice) (h : ∀ x ∈ chunkBytes chunks, Config.maxAddr < x.1) : Stores chunks d d :=
  ⟨fun x hx hle => absurd (h x hx) (Nat.not_lt.mpr hle), fun _ _ => rfl⟩

/-- What a page write leaves in the array, byte by byte. -/
theorem stores_of_byte (h : ∀ a, d₁.byte a =
    if h : c.addr ≤ a ∧ a < c.addr + c.bytes.length then c.bytes[a - c.addr]'(by omega) else d.byte a) :
    Stores [c] d d₁ := by
  constructor <;> rw [chunkBytes_singleton]
  · intro x hx _
    obtain ⟨i, hi, rfl⟩ := mem_addressed.mp hx
    rw [h, dif_pos (by simpa using hi)]
    simp
  · intro a ha
    rw [h, dif_neg]
    rintro ⟨hlo, hhi⟩
    exact ha _ (mem_addressed.mpr ⟨a - c.addr, by omega, rfl⟩) (by simp only; omega)

/-- A page write and then the others: these begin past its page, so they leave its bytes (R105). -/
theorem Stores.cons (h : PageChunks (c :: todo)) (hfirst : Stores [c] d d₁) (hrest : Stores todo d₁ d') :
    Stores (c :: todo) d d' := by
  obtain ⟨hpage, hfrom⟩ := h
  refine ⟨fun x hx hle => ?_, fun a ha => ?_⟩
  · rw [chunkBytes_cons] at hx
    obtain hx | hx := List.mem_append.mp hx
    · have hlt : x.1 < nextPage c.addr := by
        obtain ⟨i, hi, rfl⟩ := mem_addressed.mp hx
        rw [nextPage_eq]
        have := pageOff_add_firstChunkLength c.addr
        omega
      have hother : ∀ y ∈ chunkBytes todo, y.1 ≠ x.1 := fun y hy =>
        (hlt.trans_le (hfrom.le_of_mem_chunkBytes hy)).ne'
      rw [hrest.kept x.1 hother, hfirst.stored x (by rwa [chunkBytes_singleton]) hle]
    · exact hrest.stored x hx hle
  · have hmem : ∀ x, x ∈ chunkBytes [c] ∨ x ∈ chunkBytes todo → x.1 ≠ a := fun x hx =>
      ha x (by simpa [chunkBytes] using hx)
    rw [hrest.kept a fun x hx => hmem x (.inr hx), hfirst.kept a fun x hx => hmem x (.inl hx)]

theorem PageChunks.tail (h : PageChunks (c :: todo)) : PageChunks todo := by
  obtain ⟨-, hrest⟩ := h
  exact hrest.pageChunks (pageOff_nextPage _)

/-! ### A list of page writes on the device -/

/-- The block on the reference device, the device idle, no reset on its way. -/
structure Quiet (s : State) (d : RefDevice) : Prop where
  device : OnIdleDevice s d
  noReset : s.host.resetIn = none
  wf : Memory.wf d.fill d.arr

theorem Quiet.runs (h : Quiet s d) : Runs s d := by
  obtain ⟨⟨hcs, hxfer, hdev, -⟩, hreset, -⟩ := h
  exact ⟨⟨hcs, hxfer, hdev⟩, hreset⟩

theorem Runs.quiet (h : Runs s d) (hbusy : d.busy = 0) (hwip : d.wip = false) (hwf : Memory.wf d.fill d.arr) :
    Quiet s d :=
  ⟨⟨h.env.cs, h.env.xfer, h.env.device, hbusy, hwip⟩, h.noReset, hwf⟩

/-- Only the environment and the host's side matter to it. -/
theorem Quiet.of_eq (h : Quiet s d) (henv : u.env = s.env) (hhost : u.host = s.host) : Quiet u d := by
  obtain ⟨hdev, hreset, hwf⟩ := h
  rw [OnIdleDevice, ← henv] at hdev
  exact ⟨hdev, by rw [hhost, hreset], hwf⟩

/-- An operation of a list of page writes has ended on the device: with `Ok` where all of them are in the array, else
with `AddressOutOfBounds` (R107, R108). -/
structure WritesEnd (chunks : List Chunk) (d : RefDevice) (u : State) (d' : RefDevice) : Prop where
  result : u.result = some (if ∀ c ∈ chunks, c.addr ≤ Config.maxAddr then .ok else .error .addressOutOfBounds)
  mode : u.mode = .idle
  cs : u.cs = .high
  waiting : u.activity = .waiting
  quiet : Quiet u d'
  stores : Stores chunks d d'

/-- One page write in the array, and the device is idle again. -/
theorem Quiet.pageWrite (h : Quiet s d) (hpage : PageChunks (c :: todo)) (hc : c.addr ≤ Config.maxAddr) :
    ∃ n v d₁, runFor n (writeRest (c :: todo) s) = .next (writeRest todo v) ∧ Quiet v d₁ ∧ v.cs = .high ∧
      v.mode = .idle ∧ Stores [c] d d₁ := by
  have hstart : Runs (sendEnable (.pageEnable c todo) s) d := ⟨h.runs.env, h.noReset⟩
  obtain ⟨⟨-, -, -, hbusy, hwip⟩, -, hwf⟩ := h
  obtain ⟨n, v, d₁, hrun, hruns, -, hhigh, hbusy₁, hwip₁, -, -, hbytes, -⟩ := hstart.pageWrite hbusy hwip rfl
  obtain ⟨hin, -⟩ := hpage
  obtain ⟨hwf₁, hbyte⟩ := hbytes hwf hc hin
  rw [writeRest_cons_of_le todo s hc]
  exact ⟨n, _, d₁, hrun, (hruns.quiet hbusy₁ hwip₁ hwf₁).of_eq rfl rfl, hhigh, rfl, stores_of_byte hbyte⟩

/-- A page write in the array and the end of those that follow it. -/
theorem WritesEnd.cons (h : WritesEnd todo d₁ u d') (hpages : PageChunks (c :: todo)) (hc : c.addr ≤ Config.maxAddr)
    (hfirst : Stores [c] d d₁) : WritesEnd (c :: todo) d u d' :=
  { h with
    result := by simpa [hc] using h.result
    stores := hfirst.cons hpages h.stores }

/-- Page writes that follow one just done: each in turn, up to the end of the list or of the array. -/
theorem Quiet.laterPageWrites (h : Quiet s d) (hpages : PageChunks chunks) (hcs : s.cs = .high)
    (hmode : s.mode = .idle) :
    ∃ n u d', runFor n (writeRest chunks s) = .next u ∧ WritesEnd chunks d u d' := by
  induction chunks generalizing s d with
  | nil =>
    exact ⟨0, _, d, rfl, by simp [writeRest], hmode, hcs, rfl, h.of_eq rfl rfl, stores_of_nothing d nofun⟩
  | cons c todo ih =>
    by_cases hc : c.addr ≤ Config.maxAddr
    · obtain ⟨n, v, d₁, hrun, hv, hvcs, hvmode, hfirst⟩ := h.pageWrite hpages hc
      obtain ⟨m, u, d', hrun', hend⟩ := ih hv hpages.tail hvcs hvmode
      exact ⟨n + m, u, d', (runFor_add hrun).trans hrun', hend.cons hpages hc hfirst⟩
    · have hlt := Nat.lt_of_not_le hc
      rw [writeRest_cons_of_lt todo s hlt]
      exact ⟨0, _, d, rfl, by simp [hc], rfl, hcs, rfl, h.of_eq rfl rfl,
        stores_of_nothing d fun x => hpages.maxAddr_lt_of_mem_chunkBytes hlt⟩

/-- The page writes of an operation, the first one in the array, from its first interaction to its end. -/
theorem Quiet.operation (h : Quiet s d) (hpages : PageChunks (c :: todo)) (hc : c.addr ≤ Config.maxAddr) :
    ∃ n u d', runFor n (advance (writeRest (c :: todo) s)) = .next u ∧ WritesEnd (c :: todo) d u d' := by
  obtain ⟨n, v, d₁, hrun, hv, hvcs, hvmode, hfirst⟩ := h.pageWrite hpages hc
  obtain ⟨m, u, d', hrun', hend⟩ := hv.laterPageWrites hpages.tail hvcs hvmode
  have hall := (runFor_add hrun).trans hrun'
  rw [writeRest_cons_of_le todo s hc] at hall ⊢
  obtain ⟨k, hk⟩ := exists_runFor_advance (s := sendEnable _ s) h.noReset nofun hall hend.waiting
  exact ⟨k, u, d', hk, hend.cons hpages hc hfirst⟩

/-! ### Which writes stay inside the array -/

/-- The page writes of a write that starts in the array are all in it just if its bytes are (R51, R110). -/
theorem forall_splitWrite_le_maxAddr {a : Nat} (ha : a ≤ Config.maxAddr) :
    (∀ c ∈ splitWrite a data, c.addr ≤ Config.maxAddr) ↔ a + data.length ≤ Config.capacity := by
  have hfcl : firstChunkLength a = 32 - a % 32 := rfl
  have hbase : pageBase a = a - a % 32 := rfl
  simp only [Config.maxAddr, Config.capacity, Config.addrBits] at *
  constructor
  · intro h
    by_contra hlong
    obtain ⟨i, hi⟩ : ∃ i, pageBase a + 32 * (i + 1) = 4096 := ⟨(4096 - pageBase a) / 32 - 1, by omega⟩
    have hget := splitWrite_getElem?_succ (addr := a) (data := data) (i := i) (by omega)
    have := h _ (List.mem_of_getElem? hget)
    simp only at this
    omega
  · intro h c hc
    obtain ⟨j, hj⟩ := List.mem_iff_getElem?.mp hc
    cases j with
    | zero =>
      cases hj
      exact ha
    | succ i =>
      obtain ⟨hlt, -⟩ := List.getElem?_eq_some_iff.mp hj
      rw [splitWrite_length] at hlt
      rw [splitWrite_getElem?_succ (by omega)] at hj
      cases hj
      simp only
      omega

/-! ### The host operations on the device -/

/-- A write that starts in the array, on the device, from the step that takes it to its end. -/
theorem writeBytes_runs (hs : s.Ready) (hmode : s.mode ≠ .uninitialized) (hd : OnIdleDevice s d)
    (hwf : Memory.wf d.fill d.arr) (haddr : addr.toNat ≤ Config.maxAddr) (data : List Byte) :
    ∃ n t u d', exec (.writeBytes addr data) s = .next t ∧ runFor n t = .next u ∧
      WritesEnd (splitWrite addr.toNat data) d u d' := by
  obtain ⟨hwait, hreset⟩ := hs
  have hquiet : Quiet s.begin d := ⟨hd, hreset, hwf⟩
  obtain ⟨n, u, d', hrun, hend⟩ := hquiet.operation (pageChunks_splitWrite addr.toNat data) haddr
  exact ⟨n, _, u, d', exec_writeBytes_next.mpr ⟨hwait, hmode, rfl⟩, hrun, hend⟩

/-- Of a write the bytes up to 4095 are at their addresses (R54). -/
theorem Stores.byte_of_splitWrite {a i : Nat} (h : Stores (splitWrite a data) d d') (hi : i < data.length)
    (hle : a + i ≤ Config.maxAddr) : d'.byte (a + i) = data.getD i 0 := by
  have hmem : (a + i, data[i]) ∈ chunkBytes (splitWrite a data) := by
    rw [chunkBytes_splitWrite]
    exact mem_addressed.mpr ⟨i, hi, rfl⟩
  rw [h.stored _ hmem hle, List.getD_eq_getElem _ _ hi]

/-- Every byte outside a write is as before. -/
theorem Stores.byte_outside_splitWrite {a b : Nat} (h : Stores (splitWrite a data) d d')
    (hb : b < a ∨ a + data.length ≤ b) : d'.byte b = d.byte b := by
  refine h.kept b fun x hx => ?_
  rw [chunkBytes_splitWrite] at hx
  obtain ⟨i, hi, rfl⟩ := mem_addressed.mp hx
  simp only
  omega

/-- Settles O42: all its page writes are in the array. -/
theorem writeBytesOnDevice : Obligations.WriteBytesOnDevice := by
  intro s d addr data hs hmode hd hwf haddr hlen
  obtain ⟨n, t, u, d', hexec, hrun, hres, hidle, hcs, hwait, hquiet, hstores⟩ :=
    writeBytes_runs hs hmode hd hwf haddr data
  rw [if_pos ((forall_splitWrite_le_maxAddr haddr).mpr hlen)] at hres
  refine ⟨n, t, u, d', hexec, hrun, hres, hidle, hcs, hwait, hquiet.device, hquiet.wf, fun i hi => ?_,
    fun a => hstores.byte_outside_splitWrite⟩
  have hle : addr.toNat + i ≤ 4095 := by omega
  exact hstores.byte_of_splitWrite hi hle

/-- Settles O43: some page write is above the array, and those before it are done. -/
theorem writePastTheEnd : Obligations.WritePastTheEnd := by
  intro s d addr data hs hmode hd hwf haddr hlen
  obtain ⟨n, t, u, d', hexec, hrun, hres, hidle, hcs, hwait, hquiet, hstores⟩ :=
    writeBytes_runs hs hmode hd hwf haddr data
  rw [if_neg (mt (forall_splitWrite_le_maxAddr haddr).mp (Nat.not_le.mpr hlen))] at hres
  exact ⟨n, t, u, d', hexec, hrun, hres, hidle, hcs, hwait, hquiet.device,
    fun i hi => hstores.byte_of_splitWrite (by omega) hi, fun a ha => hstores.byte_outside_splitWrite (.inl ha)⟩

/-- Settles O44: an erase is the write of so many zeros (R114). -/
theorem eraseSectorsOnDevice : Obligations.EraseSectorsOnDevice := by
  intro s d addr amount hs hmode hd hwf hpos hspan
  obtain ⟨k, hk⟩ : ∃ k, k = firstChunkLength addr.toNat + 32 * (amount - 1) := ⟨_, rfl⟩
  have hlen : (zeros k).length = k := List.length_replicate
  have hend : addr.toNat + k = pageBase addr.toNat + 32 * amount := by
    have := nextPage_eq addr.toNat
    have := nextPage_eq_pageBase addr.toNat
    omega
  obtain ⟨-, hfcl, -⟩ := firstChunkLength_spec addr.toNat
  obtain ⟨n, t, u, d', hexec, hrun, hres, hidle, hcs, hwait, hdev, -, hbytes, hkept⟩ :=
    writeBytesOnDevice s d addr (zeros k) hs hmode hd hwf (by omega) (by omega)
  rw [hlen] at hbytes hkept
  obtain ⟨-, hsame⟩ := eraseIsWriteOfZeros
  rw [hk, ← hsame addr amount s hpos] at hexec
  refine ⟨n, t, u, d', hexec, hrun, hres, hidle, hcs, hwait, hdev, fun a hlo hhi => ?_,
    fun a ha => hkept a (by omega)⟩
  have hbyte := hbytes (a - addr.toNat) (by omega)
  rw [Nat.add_sub_cancel' hlo] at hbyte
  rw [hbyte]
  simp [zeros]

/-! ### Erasing everything -/

theorem zeroPages_eq_map (n cur : Nat) :
    zeroPages n cur = (List.range n).map fun j => ⟨cur + 32 * j, zeros 32⟩ := by
  induction n generalizing cur with
  | zero => rfl
  | succ n ih =>
    rw [zeroPages, ih, List.range_succ_eq_map, List.map_cons, List.map_map]
    congr 2
    funext j
    simp only [Function.comp, Config.pageSize]
    congr 1
    omega

/-- An erase from a page boundary writes whole pages only (R112). -/
theorem splitErase_of_pageOff_eq_zero {a amount : Nat} (ha : pageOff a = 0) (hpos : 1 ≤ amount) :
    splitErase a amount = zeroPages amount a := by
  obtain ⟨n, rfl⟩ := Nat.exists_eq_add_of_le' hpos
  have hfcl := pageOff_add_firstChunkLength a
  rw [ha, Nat.zero_add] at hfcl
  rw [splitErase, hfcl, nextPage_of_pageOff_eq_zero ha]
  rfl

/-- Settles O38: page 0 begins at address 0, so all the pages are whole; and both operations make the same ones. -/
theorem eraseAllPages : Obligations.EraseAllPages := by
  constructor
  · rw [splitErase_of_pageOff_eq_zero rfl (by decide), zeroPages_eq_map]
    simp only [Nat.zero_add]
    rfl
  · intro s
    rw [exec_eraseSectors_of_pos (by decide)]
    rfl

/-- Settles O45: the erase of the 128 pages from address 0. -/
theorem eraseAllOnDevice : Obligations.EraseAllOnDevice := by
  intro s d hs hmode hd hwf
  obtain ⟨n, t, u, d', hexec, hrun, hres, hidle, hcs, hwait, hdev, hzero, -⟩ :=
    eraseSectorsOnDevice s d 0 128 hs hmode hd hwf (by decide) (by decide)
  obtain ⟨-, hsame⟩ := eraseAllPages
  rw [← hsame s] at hexec
  exact ⟨n, t, u, d', hexec, hrun, hres, hidle, hcs, hwait, hdev,
    fun a ha => hzero a (Nat.zero_le a) (Nat.lt_succ_of_le ha)⟩

end Sys2Proof.Machine
end

section
/-! The errors (60_exceptions.md): their codes, which operation ends in which (R124), and the two that are no bus error
where they arise: the address check before the bus (R107, R127) and the status check of `init` (R100, R128). -/

namespace Sys2Proof.Machine

variable {s t h : State} {tx rx : List Byte} {ph : Phase} {p : Purpose} {c : Chunk}
  {todo chunks : List Chunk} {i : Instr}

/-- Settles O18: the table of R124, read off. -/
theorem resultCodes : Obligations.ResultCodes := fun _ _ _ => ⟨rfl, rfl, rfl, rfl, rfl, rfl, rfl⟩

/-! ### Which operation ends in which error -/

/-- `t` is a state that a step of instruction `i` may leave: with no result `i` is in progress, `UnexpectedStatus` is
`init`'s, and `AddressOutOfBounds` is that of an operation with a page write above the array (R107, R124). -/
structure ResultFits (i : Instr) (t : State) : Prop where
  unexpectedStatus : t.result = some (.error .unexpectedStatus) → i = .init
  outOfBounds : t.result = some (.error .addressOutOfBounds) →
    ∃ chunks, pageWritesOf i = some chunks ∧ ∃ c ∈ chunks, Config.maxAddr < c.addr
  inProgress : t.result = none → InProgress i t

theorem resultFits_of_inProgress (hres : t.result = none) (hp : InProgress i t) : ResultFits i t :=
  ⟨by simp [hres], by simp [hres], fun _ => hp⟩

/-- Success and the bus errors are anyone's. -/
theorem resultFits_of_result {r : Result} (hres : t.result = some r) (hstatus : r ≠ .error .unexpectedStatus)
    (haddr : r ≠ .error .addressOutOfBounds) : ResultFits i t :=
  ⟨by simp [hres, hstatus], by simp [hres, haddr], by simp [hres]⟩

/-- The page writes still to do: the next one's write-enable, the end, or the abort at one above the array (R107). -/
theorem writeRest_resultFits (hi : pageWritesOf i = some chunks) (hsuf : todo <:+ chunks) (hres : s.result = none) :
    ResultFits i (writeRest todo s) := by
  cases todo with
  | nil => exact resultFits_of_result rfl nofun nofun
  | cons c todo =>
    by_cases haddr : c.addr ≤ Config.maxAddr
    · rw [writeRest_cons_of_le todo s haddr]
      exact resultFits_of_inProgress hres ⟨chunks, hi, hsuf⟩
    · have habove : Config.maxAddr < c.addr := by omega
      rw [writeRest_cons_of_lt todo s habove]
      exact ⟨nofun, fun _ => ⟨chunks, hi, c, hsuf.subset (by simp), habove⟩, nofun⟩

/-- What follows a command: only the status check of `init` and the next page write raise an error (R100, R107). -/
theorem returned_resultFits (hp : p.Serves i) (hres : s.result = none) : ResultFits i (returned p rx s) := by
  cases p with
  | initStatus =>
    rw [returned, initRead]
    split
    · exact ⟨fun _ => hp, nofun, nofun⟩
    · exact resultFits_of_result rfl nofun nofun
  | hostStatus | hostRead => exact resultFits_of_result rfl nofun nofun
  | call f => exact resultFits_of_result rfl (by cases f <;> nofun) (by cases f <;> nofun)
  | pageEnable | pageData => exact resultFits_of_inProgress hres hp
  | pagePoll c todo =>
    cases hwip : statusWip (statusIn rx) with
    | true =>
      rw [returned_poll_of_busy hwip]
      exact resultFits_of_inProgress hres hp
    | false =>
      obtain ⟨chunks, hi, hsuf⟩ := hp
      rw [returned_poll_of_ready hwip]
      exact writeRest_resultFits hi ((List.suffix_cons c todo).trans hsuf) hres

/-- The interactions of a command raise bus errors only (R88). -/
theorem CommandStep.resultFits (hstep : CommandStep tx ph p s t) (hp : p.Serves i) (hres : s.result = none) :
    ResultFits i t := by
  cases hstep with
  | asserted | exchanged | exchangeFails => exact resultFits_of_inProgress hres hp
  | assertFails => exact resultFits_of_result rfl nofun nofun
  | released => exact returned_resultFits hp hres
  | raises hbus => obtain ⟨v, rfl⟩ | ⟨v, rfl⟩ := hbus <;> exact resultFits_of_result rfl nofun nofun

/-- The next interaction, from a state of the invariant whose result fits. -/
theorem ResultFits.advance (hfits : ResultFits i s) (hs : s.Inv) : ResultFits i (advance s) := by
  by_cases ha : s.activity = .waiting
  · rwa [advance_waiting ha]
  have hres := hs.running ha
  have hp := hfits.inProgress hres
  match ha : s.activity with
  | .waiting => contradiction
  | .driving =>
    obtain rfl : i = .init := by simpa [InProgress, ha] using hp
    obtain ⟨v, -, heq⟩ | ⟨-, heq⟩ := advance_driving ha <;> rw [heq]
    · exact resultFits_of_result rfl nofun nofun
    · exact resultFits_of_inProgress hres rfl
  | .framing tx ph p => exact (advance_command ha).resultFits (hp.serves ha) hres

theorem exec_resultFits (hs : s.Inv) (hexec : exec i s = .next t) : ResultFits i t := by
  cases hi : pageWritesOf i with
  | some chunks =>
    obtain ⟨ha, hne, rfl⟩ := (exec_pageWrites_next hi).mp hexec
    obtain ⟨hmode, hcs⟩ := hs.idle ha hne
    exact (writeRest_resultFits hi (List.suffix_refl _) rfl).advance (begun_writeRest hi hmode hcs hs.device_ok).inv
  | none =>
    obtain ⟨u, rfl, hu, hp | ⟨-, -, chunks, hi'⟩⟩ := exec_begun hs hexec
    · exact (resultFits_of_inProgress (hu.running hp.not_waiting) hp).advance hu
    · cases hi.symm.trans hi'

/-- Every step of an instruction leaves a result that fits, whatever the environment answers. -/
theorem StepOf.resultFits (hs : s.Inv) (hstep : StepOf i s t) : ResultFits i t := by
  obtain hexec | ⟨hp, hr, ht⟩ := hstep
  · exact exec_resultFits hs hexec
  · rw [step_running hr hp.not_waiting, Host.Outcome.next.injEq] at ht
    rw [← ht]
    exact ResultFits.advance (s := { s with host := s.host.tick })
      (resultFits_of_inProgress (hs.running hp.not_waiting) hp) (hs.withHost _)

/-- The 128 pages of `erase_all` are the array's (R115). -/
theorem addr_le_maxAddr_of_eraseAll (hc : c ∈ splitErase 0 Config.pageCount) : c.addr ≤ Config.maxAddr := by
  rw [eraseAllPages.1, List.mem_map] at hc
  obtain ⟨p, hp, rfl⟩ := hc
  have hlt := List.mem_range.mp hp
  simp only [Config.maxAddr, Config.addrBits]
  omega

/-- Only an operation whose page writes the host places can have one above the array (R115, R127). -/
theorem writeBytes_or_eraseSectors_of_above (hi : pageWritesOf i = some chunks) (hmem : c ∈ chunks)
    (habove : Config.maxAddr < c.addr) :
    (∃ addr data, i = .writeBytes addr data) ∨ ∃ addr amount, i = .eraseSectors addr amount := by
  cases i with
  | writeBytes addr data => exact .inl ⟨addr, data, rfl⟩
  | eraseSectors addr amount => exact .inr ⟨addr, amount, rfl⟩
  | eraseAll =>
    cases hi
    exact absurd (addr_le_maxAddr_of_eraseAll hmem) (Nat.not_le.mpr habove)
  | _ => cases hi

/-- Settles O19: every step leaves a result that fits its instruction, and a page write above the array is not
`erase_all`'s. -/
theorem errorsByOperation : Obligations.ErrorsByOperation := by
  intro i s t hs hstep
  obtain ⟨hstatus, haddr, hrunning⟩ := hstep.resultFits hs
  refine ⟨hstatus, fun hres => ?_, hrunning⟩
  obtain ⟨chunks, hi, c, hmem, habove⟩ := haddr hres
  exact writeBytes_or_eraseSectors_of_above hi hmem habove

/-! ### A write or an erase above the array -/

/-- The address check comes before any interaction: neither the bus nor the environment is touched (R107, R127). -/
theorem advance_writeRest_above {a : Nat} {bytes : List Byte} (hwait : s.activity = .waiting)
    (habove : Config.maxAddr < a) :
    advance (writeRest (⟨a, bytes⟩ :: todo) s.begin) =
      { s with mode := .idle, result := some (.error .addressOutOfBounds), trace := [] } := by
  rw [writeRest_cons_of_lt todo s.begin habove, advance_waiting rfl, hwait]
  rfl

/-- Settles O39: the first chunk of either operation is at its address. -/
theorem outOfBoundsBeforeTheBus : Obligations.OutOfBoundsBeforeTheBus := by
  intro s addr data amount hwait hmode habove hpos
  exact ⟨exec_writeBytes_next.mpr ⟨hwait, hmode, (advance_writeRest_above hwait habove).symm⟩,
    exec_eraseSectors_next.mpr ⟨hwait, hmode, hpos, (advance_writeRest_above hwait habove).symm⟩⟩

/-! ### `init` on a device that is busy or write-enabled -/

/-- `init` whose `CsSet(High)` and status read are answered without failure: its first step drives chip-select High, and
three more are the status read and its check (R100). -/
theorem init_runs (hs : s.Ready) (hmode : s.mode = .uninitialized) (hcs : s.env.drawCs.1 = .ok)
    (hh : h = afterDriveHigh s.begin) (hframe : FrameOk (h.afterDummies 1) (nextRdsr h) rx) :
    exec .init s = .next (sendStatus .initStatus h) ∧
      runFor 3 (sendStatus .initStatus h) =
        .next (initRead (statusIn rx) (afterFrame (h.afterDummies 1) (nextRdsr h) rx)) := by
  obtain ⟨hwait, hreset⟩ := hs
  have hok : s.env.csAnswer = .ok := hcs
  have hdriven : csSet .high { s.begin with activity := .driving } = { h with activity := .driving } := by
    simp [hh, csSet, afterDriveHigh, State.begin, hok, csAfter, csEvent]
  have hdrive : advance { s.begin with activity := .driving } = sendStatus .initStatus h := by
    obtain ⟨v, hfail, -⟩ | ⟨-, hsend⟩ := advance_driving (s := { s.begin with activity := .driving }) rfl
    · cases hok.symm.trans hfail
    · rw [hsend, hdriven]
      rfl
  refine ⟨exec_init_next.mpr ⟨hwait, hmode, hdrive.symm⟩, ?_⟩
  have hnone : h.host.resetIn = none := by rw [hh]; exact hreset
  exact (run_frame (s := sendStatus .initStatus h) hnone rfl hframe).trans
    (congrArg _ (returned_activity .initStatus rx (afterFrame (h.afterDummies 1) (nextRdsr h) rx) _))

/-- WEL of the status read is bit 1 of the second byte received (R34, R93). -/
theorem statusWel_statusIn (rx : List Byte) : statusWel (statusIn rx) = (rx.getD 1 0).getLsbD 1 :=
  statusWel_decodeStatus _

/-- The status check fails on WIP or WEL, the mode kept (R100, R128, R131). -/
theorem initRead_of_dirty (hdirty : (rx.getD 1 0).getLsbD 0 = true ∨ (rx.getD 1 0).getLsbD 1 = true) (s : State) :
    initRead (statusIn rx) s = s.finish (.error .unexpectedStatus) := by
  have hbits : (statusWip (statusIn rx) || statusWel (statusIn rx)) = true := by
    rwa [Bool.or_eq_true, statusWip_statusIn, statusWel_statusIn]
  exact if_pos hbits

/-- Settles O29: `init` runs to its status check, which fails. -/
theorem initOnDirtyStatus : Obligations.InitOnDirtyStatus := by
  intro s h rx hs hmode hcs hh hframe hdirty
  obtain ⟨hexec, hrun⟩ := init_runs hs hmode hcs hh hframe
  rw [initRead_of_dirty hdirty] at hrun
  exact ⟨_, hexec, by rw [hh]; rfl, hrun⟩

end Sys2Proof.Machine
end

section
/-! The block's steps seen from outside: one interaction a step (R159), and the host's reset (R145), which leaves the
device as it was (R146). -/

namespace Sys2Proof.Machine

variable {s t u : State} {i : Instr}

/-! ### One interaction a step -/

/-- The first interaction of an instruction, if it comes to one, is all its trace (R46). -/
theorem AtFirstInteraction.advance_trace_length (hu : AtFirstInteraction u) : (advance u).trace.length ≤ 1 := by
  by_cases ha : u.activity = .waiting
  · simp [advance_waiting ha, hu.trace]
  · obtain ⟨ev, htrace, -⟩ := advance_trace ha
    simp [htrace, hu.trace]

/-- Settles O8: by what a step can do; an operation in progress makes its next interaction, and an instruction just
taken its first. -/
theorem oneInteractionPerStep : Obligations.OneInteractionPerStep := by
  intro s t hr hstep
  obtain ⟨hreset, -⟩ | ⟨-, ha, rfl⟩ | ⟨-, ha, hreq, rfl⟩ | ⟨-, ha, r, rest, i, hreq, -, hexec⟩ := step_cases hstep
  · exact absurd hreset hr
  · obtain ⟨ev, htrace, -⟩ := advance_trace (s := { s with host := s.host.tick }) ha
    exact ⟨fun _ => ⟨ev, htrace⟩, fun hwait => absurd hwait ha, fun hwait => absurd hwait ha⟩
  · exact ⟨fun hrun => absurd ha hrun, fun _ hne => absurd hreq hne, fun _ _ => rfl⟩
  · obtain ⟨u, rfl, hu⟩ := exec_atFirstInteraction hexec
    exact ⟨fun hrun => absurd ha hrun, fun _ _ => hu.advance_trace_length, fun _ hnil => by simp [hreq] at hnil⟩

/-! ### The host's side -/

theorem writeRest_host (chunks : List Chunk) (s : State) : (writeRest chunks s).host = s.host := by
  cases chunks with
  | nil => rfl
  | cons c todo =>
    rw [writeRest, startPageWrite]
    split <;> rfl

theorem sendCall_host (f : CodecCall) (s : State) : (sendCall f s).host = s.host := by cases f <;> rfl

/-- An instruction's first interaction starts with the host's side as it was. -/
theorem exec_starts_from_host (hexec : exec i s = .next t) : ∃ u, t = advance u ∧ u.host = s.host := by
  cases i with
  | cmdWren => exact ⟨_, (exec_cmdWren_next.mp hexec).2, sendCall_host _ _⟩
  | cmdWrdi => exact ⟨_, (exec_cmdWrdi_next.mp hexec).2, sendCall_host _ _⟩
  | cmdRdsr => exact ⟨_, (exec_cmdRdsr_next.mp hexec).2, sendCall_host _ _⟩
  | cmdRead => exact ⟨_, (exec_cmdRead_next.mp hexec).2, sendCall_host _ _⟩
  | cmdWrite => exact ⟨_, (exec_cmdWrite_next.mp hexec).2, sendCall_host _ _⟩
  | cmdWrsr => exact absurd hexec exec_cmdWrsr_next
  | init => exact ⟨_, (exec_init_next.mp hexec).2.2, rfl⟩
  | readStatus => exact ⟨_, (exec_readStatus_next.mp hexec).2.2, rfl⟩
  | read => exact ⟨_, (exec_read_next.mp hexec).2.2, rfl⟩
  | writeBytes => exact ⟨_, (exec_writeBytes_next.mp hexec).2.2, writeRest_host _ _⟩
  | eraseSectors => exact ⟨_, (exec_eraseSectors_next.mp hexec).2.2.2, writeRest_host _ _⟩
  | eraseAll => exact ⟨_, (exec_eraseAll_next.mp hexec).2.2, writeRest_host _ _⟩

/-- No instruction touches the host's side. -/
theorem exec_host (hexec : exec i s = .next t) : t.host = s.host := by
  obtain ⟨u, rfl, hu⟩ := exec_starts_from_host hexec
  rw [advance_host, hu]

/-- A reset on its way comes one step nearer at every step (R145; log 4). -/
theorem step_resetIn_succ {k : Nat} (hr : s.host.resetIn = some (k + 1)) (hstep : step s = .next t) :
    t.host.resetIn = some k := by
  have htick : s.host.tick.resetIn = some k := by simp [HostSide.tick, hr]
  obtain ⟨hreset, -⟩ | ⟨-, -, rfl⟩ | ⟨-, -, -, rfl⟩ | ⟨-, -, r, rest, i, -, -, hexec⟩ := step_cases hstep
  · simp [hr] at hreset
  · rw [advance_host]
    exact htick
  · exact htick
  · rw [exec_host hexec]
    exact htick

/-! ### The reset -/

/-- Settles O13: the reset values are read off, a reset that lands is the whole step, and any other step counts it
down. -/
theorem resetOfTheBlock : Obligations.ResetOfTheBlock :=
  ⟨⟨rfl, rfl, rfl⟩, fun _ => step_reset, fun _ _ _ => step_resetIn_succ⟩

/-! ### `init` after the reset of a busy device -/

/-- WIP is bit 0 of the device's status byte (R33, R69). -/
theorem RefDevice.status_getLsbD_zero (d : RefDevice) : d.status.getLsbD 0 = d.wip := by
  rw [RefDevice.status]
  cases d.wip <;> cases d.wel <;> rfl

/-- WEL is its bit 1 (R34, R69). -/
theorem RefDevice.status_getLsbD_one (d : RefDevice) : d.status.getLsbD 1 = d.wel := by
  rw [RefDevice.status]
  cases d.wip <;> cases d.wel <;> rfl

/-- Settles O14: the reset leaves the environment as it was, and `init` reads WIP or WEL in the device's status. -/
theorem initAfterResetOfBusyDevice : Obligations.InitAfterResetOfBusyDevice := by
  intro s d hr hcs hxfer hdev hdirty
  have henv : s.resetBlock.env.Attached d := ⟨hcs, hxfer, hdev⟩
  obtain ⟨h, hh⟩ : ∃ h, h = afterDriveHigh s.resetBlock.begin := ⟨_, rfl⟩
  have hattached : (h.afterDummies 1).env.Attached d := by
    rw [hh]
    exact henv.drawCs.drawDummies 1
  obtain ⟨hframe, -⟩ := frameOk_attached (nextRdsr h) hattached
  have hstatus : (devExchange d (nextRdsr h)).1.getD 1 0 = d.status := by
    obtain ⟨dummy, hrdsr⟩ := nextRdsr_sends h
    rw [hrdsr, devExchange_rdsr_fst]
    rfl
  rw [← d.status_getLsbD_zero, ← d.status_getLsbD_one, ← hstatus] at hdirty
  obtain ⟨u, hexec, -, hrun⟩ :=
    initOnDirtyStatus s.resetBlock h _ ⟨rfl, rfl⟩ rfl henv.csAnswer hh hframe hdirty
  exact ⟨_, u, _, step_reset hr, hdev, hexec, hrun, rfl, by rw [hh]; rfl⟩

end Sys2Proof.Machine
end

section
/-! The requests: what the frame decoder reads (30_encoding.md), how a ready block takes one (R117), and which are
admitted (R117, R123). -/

namespace Sys2Proof.Machine

variable {s : State} {frame tail : List Byte} {op : Byte} {i : Instr} {why : Reject}

/-! ### What the frame decoder reads -/

/-- The frames the decoder reads as an instruction: those of 30_encoding.md section 1, a write frame only within its
page (log 8), and every frame that starts with `0x01` as the one named command (log 7). -/
def ReadsAs (frame : List Byte) : Instr → Prop
  | .cmdWren => frame = wrenFrame
  | .cmdWrdi => frame = wrdiFrame
  | .cmdRdsr => ∃ d, frame = rdsrFrame d
  | .cmdRead a n => ∃ p, p.length = n ∧ frame = readFrame a.toNat p
  | .cmdWrite a c => frame = writeFrame a.toNat c ∧ (Instr.cmdWrite a c).WellFormed
  | .cmdWrsr => frame.head? = some 0x01
  | .init | .readStatus | .read _ _ | .writeBytes _ _ | .eraseSectors _ _ | .eraseAll => False

theorem readsAs_of_decodeFrame (h : decodeFrame frame = .ok i) : ReadsAs frame i := by
  cases frame with
  | nil => cases h
  | cons op tail =>
    rw [decodeFrame] at h
    split_ifs at h with h6 h4 h5 h3 h2 h1
    · obtain ⟨rfl, rfl⟩ := decodeOp_ok h
      exact congrArg (· :: []) h6
    · obtain ⟨rfl, rfl⟩ := decodeOp_ok h
      exact congrArg (· :: []) h4
    · obtain ⟨⟨d, rfl⟩, rfl⟩ := decodeOpd_ok h
      exact ⟨d, congrArg (· :: [d]) h5⟩
    · obtain ⟨hi, lo, payload, rfl, hk⟩ := decodeAddr_ok h
      cases hk
      exact ⟨payload, rfl, by simp [readFrame, h3]⟩
    · obtain ⟨hi, lo, payload, rfl, hk⟩ := decodeAddr_ok h
      obtain ⟨rfl, hwf⟩ := checkedWrite_ok hk
      exact ⟨by simp [writeFrame, h2], hwf⟩
    · cases h
      exact congrArg some h1

theorem decodeFrame_of_readsAs (h : ReadsAs frame i) : decodeFrame frame = .ok i := by
  cases i with
  | cmdWren | cmdWrdi =>
    cases h
    rfl
  | cmdRdsr =>
    obtain ⟨d, rfl⟩ := h
    rfl
  | cmdRead a n =>
    obtain ⟨payload, rfl, rfl⟩ := h
    exact decode_readFrame a payload
  | cmdWrite a c =>
    obtain ⟨rfl, hwf⟩ := h
    exact decode_writeFrame hwf
  | cmdWrsr =>
    obtain ⟨tail, rfl⟩ := List.head?_eq_some_iff.mp h
    rfl
  | init | readStatus | read | writeBytes | eraseSectors | eraseAll => exact h.elim

theorem decode_codec_eq_ok_iff : decode (.codec frame) = .ok i ↔ ReadsAs frame i :=
  ⟨readsAs_of_decodeFrame, decodeFrame_of_readsAs⟩

theorem ReadsAs.wellFormed (h : ReadsAs frame i) : i.WellFormed := by
  cases i with
  | cmdWrite => exact h.2
  | _ => rfl

theorem ReadsAs.not_hostOp (h : ReadsAs frame i) : isHostOp i = false := by
  cases i with
  | init | readStatus | read | writeBytes | eraseSectors | eraseAll => exact h.elim
  | _ => rfl

theorem decodeHost_wellFormed {r : HostRequest} (h : decodeHost r = .ok i) : i.WellFormed := by
  rw [decodeHost] at h
  split_ifs at h <;> cases h <;> rfl

/-- Settles O2: only a write frame could be ill-formed, and the decoder checks that one. -/
theorem decodedIsWellFormed : Obligations.DecodedIsWellFormed := by
  intro r i h
  cases r with
  | host r => exact decodeHost_wellFormed h
  | codec frame => exact (decode_codec_eq_ok_iff.mp h).wellFormed

/-! ### Which frames it rejects, and how -/

theorem decodeOp_error (h : decodeOp i tail = .error why) : why = .badLength := by
  cases tail <;> cases h
  rfl

theorem decodeOpd_error (h : decodeOpd i tail = .error why) : why = .badLength := by
  match tail with
  | [] | _ :: _ :: _ =>
    cases h
    rfl
  | [_] => cases h

theorem decodeAddr_error {k : HostAddr → List Byte → Except Reject Instr} (h : decodeAddr k tail = .error why) :
    why = .badLength ∨ ∃ a payload, k a payload = .error why := by
  match tail with
  | [] | [_] =>
    cases h
    exact .inl rfl
  | hi :: lo :: payload => exact .inr ⟨_, _, h⟩

theorem checkedWrite_error {a : HostAddr} {chunk : List Byte} (h : checkedWrite a chunk = .error why) :
    why = .badWriteFrame := by
  rw [checkedWrite] at h
  split_ifs at h
  cases h
  rfl

/-- A frame with an opcode the decoder knows is rejected only for its operands. -/
theorem decodeFrame_error_of_mem (hop : op ∈ ([0x01, 0x02, 0x03, 0x04, 0x05, 0x06] : List Byte))
    (h : decodeFrame (op :: tail) = .error why) : why = .badLength ∨ why = .badWriteFrame := by
  rw [decodeFrame] at h
  split_ifs at h with h6 h4 h5 h3 h2 h1
  · exact .inl (decodeOp_error h)
  · exact .inl (decodeOp_error h)
  · exact .inl (decodeOpd_error h)
  · obtain hwhy | ⟨a, payload, hk⟩ := decodeAddr_error h
    · exact .inl hwhy
    · cases hk
  · obtain hwhy | ⟨a, payload, hk⟩ := decodeAddr_error h
    · exact .inl hwhy
    · exact .inr (checkedWrite_error hk)
  · simp only [List.mem_cons, List.not_mem_nil, h6, h4, h5, h3, h2, h1, or_self] at hop

theorem decodeFrame_of_not_mem (hop : op ∉ ([0x01, 0x02, 0x03, 0x04, 0x05, 0x06] : List Byte)) (tail : List Byte) :
    decodeFrame (op :: tail) = .error .unsentOpcode := by
  simp only [List.mem_cons, List.not_mem_nil, or_false, not_or] at hop
  obtain ⟨h1, h2, h3, h4, h5, h6⟩ := hop
  rw [decodeFrame, if_neg h6, if_neg h4, if_neg h5, if_neg h3, if_neg h2, if_neg h1]

theorem decodeFrame_eq_emptyFrame_iff : decodeFrame frame = .error .emptyFrame ↔ frame = [] := by
  cases frame with
  | nil => exact ⟨fun _ => rfl, fun _ => rfl⟩
  | cons op tail =>
    refine ⟨fun h => ?_, nofun⟩
    by_cases hop : op ∈ ([0x01, 0x02, 0x03, 0x04, 0x05, 0x06] : List Byte)
    · obtain hwhy | hwhy := decodeFrame_error_of_mem hop h <;> cases hwhy
    · cases (decodeFrame_of_not_mem hop tail).symm.trans h

theorem decodeFrame_eq_unsentOpcode_iff :
    decodeFrame frame = .error .unsentOpcode ↔
      ∃ op, frame.head? = some op ∧ op ∉ ([0x01, 0x02, 0x03, 0x04, 0x05, 0x06] : List Byte) := by
  constructor
  · intro h
    cases frame with
    | nil => cases h
    | cons op tail =>
      refine ⟨op, rfl, fun hop => ?_⟩
      obtain hwhy | hwhy := decodeFrame_error_of_mem hop h <;> cases hwhy
  · rintro ⟨op, hhead, hop⟩
    obtain ⟨tail, rfl⟩ := List.head?_eq_some_iff.mp hhead
    exact decodeFrame_of_not_mem hop tail

/-- Settles O3: the accepted frames are those `ReadsAs` lists, the rejected ones go by their opcode. -/
theorem framesDecoded : Obligations.FramesDecoded := fun _ _ _ _ =>
  ⟨decode_codec_eq_ok_iff, decode_codec_eq_ok_iff, decode_codec_eq_ok_iff, decode_codec_eq_ok_iff,
    decode_codec_eq_ok_iff, decode_codec_eq_ok_iff, decodeFrame_eq_emptyFrame_iff, decodeFrame_eq_unsentOpcode_iff,
    fun _ h => (decode_codec_eq_ok_iff.mp h).not_hostOp⟩

/-- Settles O4: each word is read by its code. -/
theorem sampleWords : Obligations.SampleWords := by
  refine ⟨rfl, rfl, rfl, ?_, ?_, rfl, rfl, rfl, rfl, rfl, rfl⟩
  · exact decode_readFrame 0x0FF8 [1, 2, 3, 4, 5, 6, 7, 8]
  · exact decode_writeFrame (addr := 30) (chunk := [0x68, 0x65]) rfl

/-! ### A ready block and its requests -/

theorem step_of_ready (hs : s.Ready) : step s = takeRequest s := by
  obtain ⟨hwait, hreset⟩ := hs
  rw [step_waiting (by simp [hreset]) hwait, tick_none hreset]

/-- Settles O6: a ready block takes the oldest request. -/
theorem stepRunsRequest : Obligations.StepRunsRequest := by
  intro s r rest i hs hreq hdec _
  rw [step_of_ready hs, takeRequest, hreq]
  simp only [hdec]

/-- Settles O7: a ready block without a request has nothing to take. -/
theorem stepWaits : Obligations.StepWaits := by
  intro s hs hreq
  rw [step_of_ready hs, takeRequest, hreq]

/-! ### Admission -/

theorem whenWaiting_of_waiting (h : s.activity = .waiting) (k : Host.Outcome State Fault Refusal) :
    whenWaiting s k = k := by
  rw [whenWaiting, h]

theorem whenWaiting_of_running (h : s.activity ≠ .waiting) (k : Host.Outcome State Fault Refusal) :
    whenWaiting s k = .refused .operationRunning := by
  rw [whenWaiting]
  split
  · contradiction
  · rfl
  · rfl

theorem admitted_of_uninitialized (ha : s.activity = .waiting) (hmode : s.mode = .uninitialized)
    (k : Host.Outcome State Fault Refusal) : admitted s k = .refused .notInitialized := by
  rw [admitted_of_waiting ha, if_pos hmode]

theorem exec_init_of_initialized (ha : s.activity = .waiting) (hmode : s.mode ≠ .uninitialized) :
    exec .init s = .refused .alreadyInitialized := by
  rw [exec, execInit, whenWaiting_of_waiting ha, if_neg hmode]

/-- Settles O9: the five operations after `init` share one admission, whatever they would run. -/
theorem admissionByMode : Obligations.AdmissionByMode := by
  intro s addr n data ha
  refine ⟨exec_init_of_initialized ha, fun hmode => ?_⟩
  have refused := admitted_of_uninitialized ha hmode
  exact ⟨refused _, refused _, refused _, refused _, refused _⟩

/-- Settles O12: every instruction but `CMD_WRSR` waits for the block. -/
theorem oneOperationAtATime : Obligations.OneOperationAtATime := by
  intro i s hne ha
  have refused := whenWaiting_of_running ha
  cases i with
  | cmdWrsr => exact absurd rfl hne
  | cmdWren | cmdWrdi | cmdRdsr | cmdRead | cmdWrite | init => exact refused _
  | readStatus | read | writeBytes | eraseSectors | eraseAll => exact refused _

/-- Settles O15: the block waits, in mode Uninitialized, chip-select unknown, with no device attached. -/
theorem resetInv : Obligations.ResetInv := inv_of_waiting rfl (.inl rfl) nofun nofun

end Sys2Proof.Machine
end

section
/-! `Command(tx)` (R88): its three interactions, each by the environment's answer. -/

namespace Sys2Proof.Machine

variable {s : State} {tx rx : List Byte} {x : XferAnswer} {v w : EnvError} {p : Purpose}

/-! ### The step of each interaction -/

theorem step_of_assert (hr : s.host.resetIn = none) (ha : s.activity = .framing tx .assert p) :
    step s = .next (assertStep tx p s) := by
  rw [step_running_none hr (by simp [ha]), advance, ha]

theorem step_of_exchange (hr : s.host.resetIn = none) (ha : s.activity = .framing tx .exchange p) :
    step s = .next (exchangeStep tx p s) := by
  rw [step_running_none hr (by simp [ha]), advance, ha]

theorem step_of_release (hr : s.host.resetIn = none) (ha : s.activity = .framing tx (.release x) p) :
    step s = .next (releaseStep x p s) := by
  rw [step_running_none hr (by simp [ha]), advance, ha]

/-! ### A `CsSet` by its answer, and the abort after one -/

theorem csSet_of_ok (level : Level) (h : s.env.csAnswer = .ok) :
    csSet level s =
      { s with cs := csAfter level .ok, trace := s.trace ++ [csEvent level .ok], env := s.env.drawCs.2 } := by
  rw [csSet, h]

theorem csSet_of_fail (level : Level) (h : s.env.csAnswer = .fail v) :
    csSet level s =
      { s with cs := .unknown, trace := s.trace ++ [csEvent level (.fail v)], env := s.env.drawCs.2 } := by
  cases level <;> rw [csSet, h] <;> rfl

/-! ### The release by both answers -/

theorem releaseStep_ok_fail (h : s.env.csAnswer = .fail w) :
    releaseStep (.ok rx) p s = ((csSet .high s).lose p.atRisk.1 p.atRisk.2).abort p.keepsMode (.gpio w) := by
  simp only [releaseStep, h]

theorem releaseStep_fail_ok (h : s.env.csAnswer = .ok) :
    releaseStep (.fail v) p s = (csSet .high s).abort p.keepsMode (.transport v) := by
  simp only [releaseStep, h]

/-- Which of the two errors is reported is drawn (D10). -/
theorem releaseStep_fail_fail (h : s.env.csAnswer = .fail w) :
    releaseStep (.fail v) p s =
      State.abort p.keepsMode
        (if (s.env.drawCs.2.lose p.atRisk.1 p.atRisk.2).drawChoice.1 then .transport v else .gpio w)
        { csSet .high s with env := (s.env.drawCs.2.lose p.atRisk.1 p.atRisk.2).drawChoice.2 } := by
  simp only [releaseStep, h]
  rfl

/-- Settles O22: the step of each phase is that interaction, and each answer to it is one row. -/
theorem commandMatrix : Obligations.CommandMatrix := by
  rintro s tx rx x v w p m hr rfl
  refine ⟨fun ha => ?_, fun ha => ?_, fun ha => ?_⟩
  · rw [step_of_assert hr ha]
    refine ⟨fun hok => ?_, fun hfail => ?_⟩
    · rw [assertStep_ok hok]
      rfl
    · rw [assertStep_fail hfail, csSet_of_fail .low hfail]
      rfl
  · rw [step_of_exchange hr ha]
    refine ⟨fun hok => ?_, fun hfail => ?_⟩ <;> rw [drawXfer_fst] at *
    · rw [exchangeStep_ok hok, exchange, hok]
      rfl
    · rw [exchangeStep_fail hfail, exchange, hfail]
      rfl
  · rw [step_of_release hr ha]
    refine ⟨?_, ?_, ?_, ?_⟩
    · rintro rfl hok
      rw [releaseStep_ok hok, csSet_of_ok .high hok]
      rfl
    · rintro rfl hfail
      rw [releaseStep_ok_fail hfail, csSet_of_fail .high hfail]
      rfl
    · rintro rfl hok
      rw [releaseStep_fail_ok hok, csSet_of_ok .high hok]
      rfl
    · rintro rfl hfail
      rw [releaseStep_fail_fail hfail, csSet_of_fail .high hfail]
      rfl

end Sys2Proof.Machine
end

section
/-! `init` (R100): it succeeds on a clean status, and fails before any frame where its `CsSet` fails. -/

namespace Sys2Proof.Machine

variable {rx : List Byte}

/-- The status check passes on WIP = 0 and WEL = 0, the mode then Idle (R100). -/
theorem initRead_of_clean (hwip : (rx.getD 1 0).getLsbD 0 = false) (hwel : (rx.getD 1 0).getLsbD 1 = false)
    (s : State) : initRead (statusIn rx) s = { s with mode := .idle }.finish .ok := by
  have hbits : ¬ (statusWip (statusIn rx) || statusWel (statusIn rx)) = true := by
    rw [statusWip_statusIn, statusWel_statusIn, hwip, hwel]
    nofun
  exact if_neg hbits

/-- Settles O28: `init` runs to its status check, which passes. -/
theorem initSucceeds : Obligations.InitSucceeds := by
  intro s h rx hs hmode hcs hh hframe hwip hwel
  obtain ⟨hexec, hrun⟩ := init_runs hs hmode hcs hh hframe
  rw [initRead_of_clean hwip hwel] at hrun
  exact ⟨_, hexec, by rw [hh]; rfl, hrun⟩

/-- Settles O30: the failed drive is the only interaction, and the abort of `init` keeps the mode. -/
theorem initDriveFails : Obligations.InitDriveFails := by
  intro s v hs hmode hcs
  obtain ⟨hwait, -⟩ := hs
  have hfail : s.env.csAnswer = .fail v := hcs
  refine exec_init_next.mpr ⟨hwait, hmode, ?_⟩
  obtain ⟨w, hw, hadv⟩ | ⟨hok, -⟩ := advance_driving (s := { s.begin with activity := .driving }) rfl
  · cases hfail.symm.trans hw
    rw [hadv, csSet_of_fail .high hw]
    simp [State.abort, State.begin, csEvent, hwait]
  · cases hfail.symm.trans hok

end Sys2Proof.Machine
end

section
/-! On the reference device: a read returns what a write put there (R64), and a WIP that never clears hangs the
operation (R136). -/

namespace Sys2Proof.Machine

variable {s : State} {d : RefDevice} {a n : Nat} {c : Chunk} {todo : List Chunk} {data payload : List Byte}

/-! ### A read frame -/

/-- An idle device answers a read frame with the array from its address on (R70). -/
theorem devExchange_read (hb : d.busy = 0) (ha : a < Config.capacity) :
    (devExchange d (readFrame a payload)).1 = zeros 3 ++ loadPayload d a payload.length := by
  have haddr : deviceAddr (readFrame a payload) = a := deviceAddr_frame payload ha
  simp only [devExchange, hb, idleExchange, haddr]
  simp [readFrame]

/-- A load that stays in the array is the bytes at its addresses (R64). -/
theorem loadPayload_eq (hlen : a + data.length ≤ Config.capacity)
    (hbyte : ∀ i, i < data.length → d.byte (a + i) = data.getD i 0) : loadPayload d a data.length = data := by
  refine List.ext_getElem (by simp [loadPayload]) fun i _ hi => ?_
  have hmod : (a + i) % Config.capacity = a + i := Nat.mod_eq_of_lt (by omega)
  simp only [loadPayload, List.getElem_map, List.getElem_range, hmod, hbyte i hi, List.getD_eq_getElem _ _ hi]

/-- A `read` on the idle device of bytes inside the array, from the step that takes it to its end (R119). -/
theorem Quiet.read {addr : HostAddr} (h : Quiet s d) (ha : s.activity = .waiting) (hmode : s.mode ≠ .uninitialized)
    (haddr : addr.toNat < Config.capacity) (hlen : addr.toNat + data.length ≤ Config.capacity)
    (hbyte : ∀ i, i < data.length → d.byte (addr.toNat + i) = data.getD i 0) :
    ∃ v w, exec (.read addr data.length) s = .next v ∧ runFor 2 v = .next w ∧ w.result = some (.okData data) ∧
      w.buffer = data := by
  have hruns := h.runs
  obtain ⟨⟨-, -, -, hbusy, -⟩, hreset, -⟩ := h
  obtain ⟨b, hb⟩ : ∃ b, b = (lendBuffer data.length s.begin).afterDummies data.length := ⟨_, rfl⟩
  have hattached : b.env.Attached d := by
    obtain ⟨hcs, hxfer, hdev⟩ := hruns.env
    rw [hb]
    exact ⟨hcs, hxfer, hdev⟩
  obtain ⟨payload, hpayload, htx⟩ := nextRead_sends (lendBuffer data.length s.begin) addr.toNat data.length
  obtain ⟨hframe, -⟩ := frameOk_attached (readFrame addr.toNat payload) hattached
  obtain ⟨-, hexec, hrun⟩ := readCompletes s b addr data.length _ _ ⟨ha, hreset⟩ hmode hb htx.symm hframe
  have hdata : (devExchange d (readFrame addr.toNat payload)).1.drop 3 = data := by
    rw [devExchange_read hbusy haddr, hpayload, loadPayload_eq hlen hbyte]
    rfl
  rw [hdata] at hrun
  exact ⟨_, _, hexec, hrun, rfl, rfl⟩

/-- Settles O46: the write leaves the device idle with the data at its addresses, and the read finds it there. -/
theorem writeReadRoundTrip : Obligations.WriteReadRoundTrip := by
  intro s d addr data hs hmode hd hwf haddr hlen
  obtain ⟨n, t, u, d', hexec, hrun, hres, hidle, -, hwait, hquiet, hstores⟩ :=
    writeBytes_runs hs hmode hd hwf haddr data
  rw [if_pos ((forall_splitWrite_le_maxAddr haddr).mpr hlen)] at hres
  have hbyte : ∀ i, i < data.length → d'.byte (addr.toNat + i) = data.getD i 0 := fun i hi => by
    have hle : addr.toNat + i ≤ 4095 := by omega
    exact hstores.byte_of_splitWrite hi hle
  obtain ⟨v, w, hread, hreads, hdata, hbuffer⟩ :=
    hquiet.read hwait (by simp [hidle]) (lt_capacity_of_le_maxAddr haddr) hlen hbyte
  exact ⟨n, t, u, v, w, hexec, hrun, hres, hread, hreads, hdata, hbuffer⟩

/-! ### A WIP that never clears -/

/-- A poll of a device whose WIP is stuck: three steps later the next poll is due, and nothing but the bus was
touched. -/
theorem Runs.stuckPoll {dummy : Byte} (h : Runs s d) (hwip : d.wip = true) (hbusy : d.busy = 0)
    (ha : s.activity = .framing (rdsrFrame dummy) .assert (.pagePoll c todo)) :
    ∃ t dummy', runFor 3 s = .next t ∧ Runs t d ∧
      t.activity = .framing (rdsrFrame dummy') .assert (.pagePoll c todo) ∧ t.mode = s.mode ∧
      t.result = s.result ∧ t.trace.length = s.trace.length + 3 := by
  obtain ⟨hrun, hnext⟩ := h.frame ha
  rw [returned_poll_of_busy ((statusIn_device d dummy).trans hwip)] at hrun
  rw [devExchange_rdsr_idle hbusy] at hnext
  exact ⟨_, _, hrun, ⟨hnext.env.drawDummies 1, hnext.noReset⟩, rfl, rfl, rfl, by simp⟩

theorem Runs.stuckPolls (hwip : d.wip = true) (hbusy : d.busy = 0) (n : Nat) {s : State} {dummy : Byte}
    (h : Runs s d) (ha : s.activity = .framing (rdsrFrame dummy) .assert (.pagePoll c todo)) :
    ∃ t tx, runFor (3 * n) s = .next t ∧ t.activity = .framing tx .assert (.pagePoll c todo) ∧ t.mode = s.mode ∧
      t.result = s.result ∧ t.trace.length = s.trace.length + 3 * n := by
  induction n generalizing s dummy with
  | zero => exact ⟨s, _, rfl, ha, rfl, rfl, rfl⟩
  | succ n ih =>
    obtain ⟨u, dummy', hrun, hu, hua, humode, hures, hutrace⟩ := h.stuckPoll hwip hbusy ha
    obtain ⟨t, tx, hrest, hta, hmode, hres, htrace⟩ := ih hu hua
    rw [Nat.mul_succ, Nat.add_comm (3 * n), runFor_add hrun]
    exact ⟨t, tx, hrest, hta, hmode.trans humode, hres.trans hures, by omega⟩

/-- Settles O49: poll by poll, the device as it was after each. -/
theorem stuckWipHangs : Obligations.StuckWipHangs := by
  intro s dummy c todo d n ha hmode hres hreset hcs hxfer hdev hwip hbusy
  have hpolls := Runs.stuckPolls hwip hbusy n (s := s) ⟨⟨hcs, hxfer, hdev⟩, hreset⟩ ha
  rwa [hmode, hres] at hpolls

end Sys2Proof.Machine
end

section
/-! What every step keeps to: the moves of `S.mode` (R99), the frames of a write or an erase in order (R103), the
opcodes a host operation sends (R117), and what a step of `init`, `read_status` and `read` leaves unchanged (R62). -/

namespace Sys2Proof.Machine

variable {s t : State} {tx rx : List Byte} {ph : Phase} {p : Purpose} {c : Chunk} {todo chunks done : List Chunk}
  {i : Instr}

/-! ### The moves of `S.mode` -/

/-- A purpose whose mode an error does not keep is not `init`'s, so its mode is not Uninitialized (R99, R131). -/
theorem Purpose.InMode.ne_uninitialized {m : Mode} (h : p.InMode m) (hk : p.keepsMode = false) :
    m ≠ .uninitialized := by
  cases p with
  | initStatus | call => cases hk
  | hostStatus | hostRead | pageEnable | pageData | pagePoll =>
    rw [show m = _ from h]
    nofun

/-- An abort keeps the mode, or it moves to Idle with its error (R131). -/
theorem modeMoves_of_abort {e : Error} (hin : p.InMode s.mode)
    (hmode : t.mode = if p.keepsMode then s.mode else .idle) (hres : t.result = some (.error e)) : ModeMoves s t := by
  cases hk : p.keepsMode with
  | true =>
    rw [hk] at hmode
    exact .inl hmode
  | false =>
    rw [hk] at hmode
    exact .inr (.inl ⟨hmode, hin.ne_uninitialized hk, e, hres⟩)

/-- What follows a command that returned moves the mode by the command's row of the table (R99 to R102). -/
theorem Returns.modeMoves {u : State} (h : Returns rx p u t) (hmode : u.mode = s.mode) (hin : p.InMode s.mode)
    (ha : s.activity = .framing tx (.release (.ok rx)) p) : ModeMoves s t := by
  cases h with
  | unexpectedStatus | status | read | call | busy => exact .inl hmode
  | initialized => exact .inr (.inr ⟨tx, rx, _, ha, hin, rfl, rfl⟩)
  | enabled | sent => exact .inr (.inr ⟨tx, rx, _, ha, hin, rfl⟩)
  | done hwip | next hwip => exact .inr (.inr ⟨tx, rx, _, ha, hin, rfl, hwip⟩)
  | outOfBounds => exact .inr (.inl ⟨rfl, hin.ne_uninitialized rfl, _, rfl⟩)

theorem CommandStep.modeMoves (h : CommandStep tx ph p s t) (ha : s.activity = .framing tx ph p)
    (hin : p.InMode s.mode) : ModeMoves s t := by
  cases h with
  | asserted | exchanged | exchangeFails => exact .inl rfl
  | assertFails | raises => exact modeMoves_of_abort hin rfl rfl
  | released => exact (returned_returns p _ _).modeMoves rfl hin ha

theorem advance_modeMoves (hs : s.Inv) : ModeMoves s (advance s) := by
  match ha : s.activity with
  | .waiting | .driving => exact .inl (advance_mode_of_calls (by simp [ha]))
  | .framing tx ph p =>
    obtain ⟨-, hin, -⟩ := hs.framing _ _ _ ha
    exact (advance_command ha).modeMoves ha hin

/-- In mode Idle the assert of a command leaves the mode, also where it fails (R131). -/
theorem advance_idle_of_assert (ha : s.activity = .framing tx .assert p) (hmode : s.mode = .idle) :
    (advance s).mode = .idle := by
  have h := advance_command ha
  generalize advance s = t at *
  cases h with
  | asserted => exact hmode
  | assertFails => simp [hmode]

/-- So does the first interaction of a write or an erase, and its address check (R107). -/
theorem advance_writeRest_idle (chunks : List Chunk) (hmode : s.mode = .idle) :
    (advance (writeRest chunks s)).mode = .idle := by
  cases chunks with
  | nil => exact hmode
  | cons c todo =>
    by_cases haddr : c.addr ≤ Config.maxAddr
    · rw [writeRest_cons_of_le todo s haddr]
      exact advance_idle_of_assert rfl hmode
    · rw [writeRest_cons_of_lt todo s (by omega)]
      rfl

/-- The step that takes an instruction leaves the mode as it was. -/
theorem exec_mode (hs : s.Inv) (h : exec i s = .next t) : t.mode = s.mode := by
  have write : ∀ {chunks}, pageWritesOf i = some chunks → t.mode = s.mode := by
    intro chunks hi
    obtain ⟨ha, hne, rfl⟩ := (exec_pageWrites_next hi).mp h
    obtain ⟨hmode, -⟩ := hs.idle ha hne
    exact (advance_writeRest_idle (s := s.begin) chunks hmode).trans hmode.symm
  cases i with
  | cmdWren | cmdWrdi | cmdRdsr | cmdRead | cmdWrite | cmdWrsr => exact StepOf.mode (.inl h) rfl
  | init =>
    obtain ⟨-, -, rfl⟩ := exec_init_next.mp h
    exact advance_mode_of_calls (s := { s.begin with activity := .driving }) nofun
  | readStatus =>
    obtain ⟨ha, hne, rfl⟩ := exec_readStatus_next.mp h
    obtain ⟨hmode, -⟩ := hs.idle ha hne
    exact (advance_idle_of_assert (s := startStatus s.begin) rfl hmode).trans hmode.symm
  | read addr n =>
    obtain ⟨ha, hne, rfl⟩ := exec_read_next.mp h
    obtain ⟨hmode, -⟩ := hs.idle ha hne
    exact (advance_idle_of_assert (s := startRead addr n s.begin) rfl hmode).trans hmode.symm
  | writeBytes | eraseAll => exact write rfl
  | eraseSectors addr amount =>
    obtain ⟨-, -, hpos, -⟩ := exec_eraseSectors_next.mp h
    exact write (if_neg (by omega))

/-- Settles O53: by what a step can do; only an interaction moves the mode. -/
theorem modesFollowTheTable : Obligations.ModesFollowTheTable := by
  intro s t hs hr hstep
  obtain ⟨hreset, -⟩ | ⟨-, -, rfl⟩ | ⟨-, -, -, rfl⟩ | ⟨-, -, r, rest, i, -, -, hexec⟩ := step_cases hstep
  · exact absurd hreset hr
  · exact advance_modeMoves (hs.withHost _)
  · exact .inl rfl
  · have hmode := exec_mode (hs.withHost _) hexec
    exact .inl hmode

/-! ### The opcodes of a host operation -/

/-- Of the block's opcodes only write-disable is no host operation's (R117, D23). -/
theorem Purpose.Serves.opcode_mem (h : p.Serves i) (hop : isHostOp i = true) :
    p.opcode ∈ ([0x02, 0x03, 0x05, 0x06] : List Byte) := by
  cases p with
  | call f =>
    rw [show i = f.instr from h] at hop
    cases f <;> cases hop
  | _ => simp [opcode]

/-- Settles O55: the frame a step exchanges is one of the operation's. -/
theorem hostOpsNeverWriteDisable : Obligations.HostOpsNeverWriteDisable := by
  intro i s t hs hop hstep hsent
  obtain hexec | ⟨hp, hr, ht⟩ := hstep
  · exact exec_sendsOnly hexec
  · rw [step_running hr hp.not_waiting, Host.Outcome.next.injEq] at ht
    subst ht
    refine SendsOnly.advance (s := { s with host := s.host.tick }) (hsent hp.not_waiting) fun tx p ha => ?_
    obtain ⟨hsends, -⟩ := hs.framing tx _ p ha
    exact ⟨p.opcode, (hp.serves ha).opcode_mem hop, hsends.head?⟩

/-! ### The steps of `init`, `read_status` and `read` -/

/-- The only frames of `read_status` and `read` are a read-status and a read frame (R118, R119). -/
theorem InProgress.framing_of_readOnly (h : InProgress i s) (hi : i = .readStatus ∨ ∃ addr n, i = .read addr n) :
    ∃ tx ph p, s.activity = .framing tx ph p ∧ (p = .hostStatus ∨ ∃ addr n, p = .hostRead addr n) := by
  obtain rfl | ⟨addr, n, rfl⟩ := hi
  · match ha : s.activity with
    | .waiting => exact absurd ha h.not_waiting
    | .driving => simp [InProgress, ha] at h
    | .framing tx ph p =>
      have hserves := h.serves ha
      cases p with
      | hostStatus => exact ⟨tx, ph, _, rfl, .inl rfl⟩
      | initStatus | hostRead => cases hserves
      | pageEnable | pageData | pagePoll =>
        obtain ⟨chunks, hc, -⟩ := hserves
        cases hc
      | call f => cases f <;> cases hserves
  · obtain ⟨tx, ph, ha⟩ := h.framing_of_read
    exact ⟨tx, ph, _, ha, .inr ⟨addr, n, rfl⟩⟩

/-- A step of `read_status` or `read` is made in mode Idle and leaves it so: the table has no move for their frames. -/
theorem StepOf.idle_of_readOnly (hs : s.Inv) (h : StepOf i s t)
    (hi : i = .readStatus ∨ ∃ addr n, i = .read addr n) : s.mode = .idle ∧ t.mode = .idle := by
  obtain hexec | ⟨hp, hr, ht⟩ := h
  · obtain ⟨ha, hne⟩ : s.activity = .waiting ∧ s.mode ≠ .uninitialized := by
      obtain rfl | ⟨addr, n, rfl⟩ := hi
      · obtain ⟨ha, hne, -⟩ := exec_readStatus_next.mp hexec
        exact ⟨ha, hne⟩
      · obtain ⟨ha, hne, -⟩ := exec_read_next.mp hexec
        exact ⟨ha, hne⟩
    obtain ⟨hmode, -⟩ := hs.idle ha hne
    exact ⟨hmode, (exec_mode hs hexec).trans hmode⟩
  · obtain ⟨tx, ph, p, ha, hreads⟩ := hp.framing_of_readOnly hi
    obtain ⟨-, hin, -⟩ := hs.framing tx ph p ha
    have hmode : s.mode = .idle := by obtain rfl | ⟨addr, n, rfl⟩ := hreads <;> exact hin
    refine ⟨hmode, ?_⟩
    obtain hsame | ⟨hidle, -⟩ | ⟨tx', rx, p', ha', hmove⟩ := modesFollowTheTable s t hs hr ht
    · exact hsame.trans hmode
    · exact hidle
    · cases ha.symm.trans ha'
      obtain rfl | ⟨addr, n, rfl⟩ := hreads <;> exact hmove.elim

/-- Settles O58: none of the three makes page writes, so no frame of theirs puts a byte at risk. -/
theorem readsFrame : Obligations.ReadsFrame := by
  intro i s t hs hi hstep
  have hop : isHostOp i = true := by obtain rfl | rfl | ⟨addr, n, rfl⟩ := hi <;> rfl
  have hnone : pageWritesOf i = none := by obtain rfl | rfl | ⟨addr, n, rfl⟩ := hi <;> rfl
  refine ⟨hstep.requests, hstep.sameBytes_of_chunks hs hop fun chunks hc => ?_,
    fun hne => hstep.idle_of_readOnly hs (hi.resolve_left hne), hstep.buffer⟩
  cases hnone.symm.trans hc

/-! ### The frames of a write or an erase -/

theorem writeFrames_append (a b : List Chunk) : writeFrames (a ++ b) = writeFrames a ++ writeFrames b :=
  List.flatMap_append

theorem writeFrames_singleton (c : Chunk) : writeFrames [c] = [wrenFrame, writeFrame c.addr c.bytes] := rfl

/-- What went out of the page write in progress but for its polls, by the frame in progress and its phase (R101). -/
def Purpose.sentOf (ph : Phase) : Purpose → List (List Byte)
  | .pageEnable _ _ => match ph with | .release _ => [wrenFrame] | .assert => [] | .exchange => []
  | .pageData c _ =>
    wrenFrame :: match ph with | .release _ => [writeFrame c.addr c.bytes] | .assert => [] | .exchange => []
  | .pagePoll c _ => [wrenFrame, writeFrame c.addr c.bytes]
  | .initStatus | .hostStatus | .hostRead _ _ | .call _ => []

theorem Purpose.sentOf_prefix (hp : p.pages = some (c, todo)) (ph : Phase) : p.sentOf ph <+: writeFrames [c] := by
  rw [writeFrames_singleton]
  cases p with
  | pageEnable | pageData | pagePoll =>
    cases hp
    cases ph <;> simp [sentOf]
  | initStatus | hostStatus | hostRead | call => cases hp

/-- The assert sends nothing. -/
theorem Purpose.sentOf_exchange (p : Purpose) : p.sentOf .exchange = p.sentOf .assert := by cases p <;> rfl

/-- The exchange sends the frame in progress, a poll apart, however it is answered. -/
theorem Purpose.sentOf_release (hp : p.pages = some (c, todo)) (hsends : p.Sends tx) (x : XferAnswer) :
    p.sentOf .exchange ++ (if isRdsr tx then [] else [tx]) = p.sentOf (.release x) := by
  cases p with
  | pageEnable | pageData =>
    cases hsends
    rfl
  | pagePoll =>
    obtain ⟨d, rfl⟩ := hsends
    rfl
  | initStatus | hostStatus | hostRead | call => cases hp

/-- The frames of the page writes done and then `sent` of the next one are those on the trace, polls apart; the page
writes still to do are `c :: todo`. -/
def SentUpTo (chunks : List Chunk) (c : Chunk) (todo : List Chunk) (sent : List (List Byte)) (s : State) : Prop :=
  ∃ done, chunks = done ++ c :: todo ∧ unpolled s.trace = writeFrames done ++ sent

/-- It speaks of the trace only, polls and chip-select apart. -/
theorem SentUpTo.congr {sent : List (List Byte)} (h : SentUpTo chunks c todo sent s)
    (htrace : unpolled t.trace = unpolled s.trace) : SentUpTo chunks c todo sent t := by
  rwa [SentUpTo, htrace]

theorem unpolled_csSet (level : Level) (s : State) : unpolled (csSet level s).trace = unpolled s.trace := by simp

theorem unpolled_asserted (s : State) (tx : List Byte) (p : Purpose) :
    unpolled (asserted s tx p).trace = unpolled s.trace := by
  rw [unpolled, unpolled, framesOf, exchangesOf_asserted, ← framesOf]

theorem SentUpTo.exchange (h : SentUpTo chunks c todo (p.sentOf .exchange) s) (hp : p.pages = some (c, todo))
    (hsends : p.Sends tx) (x : XferAnswer) :
    SentUpTo chunks c todo (p.sentOf (.release x)) (exchange tx s) := by
  obtain ⟨done, hchunks, htrace⟩ := h
  refine ⟨done, hchunks, ?_⟩
  rw [exchange_trace, unpolled_append, unpolled_xferEvent, htrace, List.append_assoc, p.sentOf_release hp hsends]

/-- Inside a page write the frames sent are those of the page writes done and what went out of this one. -/
theorem sentInOrder_iff_of_framing (ha : s.activity = .framing tx ph p) (hp : p.pages = some (c, todo)) :
    SentInOrder chunks s ↔ SentUpTo chunks c todo (p.sentOf ph) s := by
  rw [SentInOrder, ha]
  cases p with
  | pageEnable | pageData =>
    cases hp
    rfl
  | pagePoll =>
    cases hp
    simp only [writeFrames_append]
    rfl
  | initStatus | hostStatus | hostRead | call => cases hp

/-- A command of a page write about to start. -/
theorem sentInOrder_of_assert (ha : s.activity = .framing tx .assert p) (hp : p.pages = some (c, todo))
    (h : SentUpTo chunks c todo (p.sentOf .assert) s) : SentInOrder chunks s :=
  (sentInOrder_iff_of_framing ha hp).mpr h

/-- A frame in progress that keeps the order is one of a page write. -/
theorem SentInOrder.exists_pages (h : SentInOrder chunks s) (ha : s.activity = .framing tx ph p) :
    ∃ c todo, p.pages = some (c, todo) := by
  rw [SentInOrder, ha] at h
  cases p with
  | pageEnable c todo | pageData c todo | pagePoll c todo => exact ⟨c, todo, rfl⟩
  | initStatus | hostStatus | hostRead | call => exact h.elim

theorem SentUpTo.isPrefix {sent : List (List Byte)} (h : SentUpTo chunks c todo sent s)
    (hsent : sent <+: writeFrames [c]) : unpolled s.trace <+: writeFrames chunks := by
  obtain ⟨done, rfl, htrace⟩ := h
  rw [htrace, writeFrames_append, List.prefix_append_right_inj]
  exact hsent.trans (List.prefix_append _ _)

/-- Wherever an operation has come to, what it sent is a beginning of what it has to send. -/
theorem SentInOrder.isPrefix (h : SentInOrder chunks s) : unpolled s.trace <+: writeFrames chunks := by
  match ha : s.activity with
  | .waiting =>
    rw [SentInOrder, ha] at h
    exact h.1
  | .driving =>
    rw [SentInOrder, ha] at h
    exact h.elim
  | .framing tx ph p =>
    obtain ⟨c, todo, hp⟩ := h.exists_pages ha
    exact ((sentInOrder_iff_of_framing ha hp).mp h).isPrefix (p.sentOf_prefix hp ph)

/-- An operation cut short has sent a beginning of its frames. -/
theorem sentInOrder_of_not_ok (ha : s.activity = .waiting) (hres : s.result ≠ some .ok)
    (h : unpolled s.trace <+: writeFrames chunks) : SentInOrder chunks s := by
  rw [SentInOrder, ha]
  exact ⟨h, fun hok => absurd hok hres⟩

/-- The page writes to do, those before them done: the next one's write-enable, the end with all of them sent, or the
abort at one above the array (R101, R107, R109). -/
theorem writeRest_sentInOrder (hchunks : chunks = done ++ todo) (h : unpolled s.trace = writeFrames done) :
    SentInOrder chunks (writeRest todo s) := by
  cases todo with
  | nil =>
    rw [List.append_nil] at hchunks
    subst hchunks
    exact ⟨h ▸ List.prefix_refl _, fun _ => h⟩
  | cons c todo =>
    by_cases haddr : c.addr ≤ Config.maxAddr
    · rw [writeRest_cons_of_le todo s haddr]
      exact sentInOrder_of_assert rfl rfl ⟨done, hchunks, h.trans (List.append_nil _).symm⟩
    · rw [writeRest_cons_of_lt todo s (by omega)]
      refine sentInOrder_of_not_ok rfl nofun ?_
      show unpolled s.trace <+: _
      rw [h, hchunks, writeFrames_append]
      exact List.prefix_append _ _

/-- A page write's command returned: the next frame of the page write, or the page write is done (R101, R102). -/
theorem returned_sentInOrder {x : XferAnswer} (hp : p.pages = some (c, todo))
    (h : SentUpTo chunks c todo (p.sentOf (.release x)) s) : SentInOrder chunks (returned p rx s) := by
  cases p with
  | initStatus | hostStatus | hostRead | call => cases hp
  | pageEnable | pageData =>
    cases hp
    exact sentInOrder_of_assert rfl rfl h
  | pagePoll =>
    cases hp
    cases hwip : statusWip (statusIn rx) with
    | true =>
      rw [returned_poll_of_busy hwip]
      exact sentInOrder_of_assert rfl rfl h
    | false =>
      obtain ⟨done, hchunks, htrace⟩ := h
      rw [returned_poll_of_ready hwip]
      refine writeRest_sentInOrder (done := done ++ [c]) (by rw [hchunks, List.append_assoc]; rfl) ?_
      rw [writeFrames_append]
      exact htrace

/-- An interaction of a page write's frame keeps the order: only the exchange sends. -/
theorem CommandStep.sentInOrder (h : CommandStep tx ph p s t) (hp : p.pages = some (c, todo)) (hsends : p.Sends tx)
    (hsent : SentUpTo chunks c todo (p.sentOf ph) s) : SentInOrder chunks t := by
  cases h with
  | asserted =>
    rw [← p.sentOf_exchange] at hsent
    exact (sentInOrder_iff_of_framing rfl hp).mpr (hsent.congr (unpolled_asserted s tx p))
  | assertFails | raises =>
    refine sentInOrder_of_not_ok rfl nofun ?_
    exact (hsent.congr (unpolled_csSet _ s)).isPrefix (p.sentOf_prefix hp _)
  | exchanged | exchangeFails => exact (sentInOrder_iff_of_framing rfl hp).mpr (hsent.exchange hp hsends _)
  | released => exact returned_sentInOrder hp (hsent.congr (unpolled_csSet _ s))

/-- So does the next interaction of an operation whose frame in progress is its purpose's. -/
theorem SentInOrder.advance (h : SentInOrder chunks s)
    (hframe : ∀ tx ph p, s.activity = .framing tx ph p → p.Sends tx) : SentInOrder chunks (advance s) := by
  match ha : s.activity with
  | .waiting => rwa [advance_waiting ha]
  | .driving =>
    rw [SentInOrder, ha] at h
    exact h.elim
  | .framing tx ph p =>
    obtain ⟨c, todo, hp⟩ := h.exists_pages ha
    exact (advance_command ha).sentInOrder hp (hframe tx ph p ha) ((sentInOrder_iff_of_framing ha hp).mp h)

/-- Settles O51: every interaction of the operation keeps the order, and a reset leaves a beginning of its frames and
no result. -/
theorem writeFramesInOrder : Obligations.WriteFramesInOrder := by
  intro i s t chunks
  refine ⟨fun hi h => ?_, fun hs hrun ho h => ?_⟩
  · obtain ⟨-, -, rfl⟩ := (exec_pageWrites_next hi).mp h
    refine (writeRest_sentInOrder (s := s.begin) (done := []) rfl rfl).advance fun tx ph p ha => ?_
    obtain ⟨rfl, c, todo, rfl⟩ := writeRest_framing ha
    rfl
  · obtain ⟨-, rfl⟩ | ⟨-, -, rfl⟩ | ⟨-, ha, -⟩ | ⟨-, ha, -⟩ := step_cases h
    · exact sentInOrder_of_not_ok rfl (by simp [hrun]) ho.isPrefix
    · refine SentInOrder.advance (s := { s with host := s.host.tick }) ho fun tx ph p ha => ?_
      obtain ⟨hsends, -⟩ := hs.framing tx ph p ha
      exact hsends
    · exact absurd ha hrun
    · exact absurd ha hrun

end Sys2Proof.Machine
end
